-- ==== Sys2Proof/Word.lean ====
section
/-! DEFINITION. The two widths of the F2MC-8FX: a byte (8 bits) and a word (16 bits), R2. -/

namespace Sys2Proof

/-- A byte of memory, or a byte operand (R2, R41). -/
abbrev Byte := BitVec 8

/-- A 16-bit register or an address (R6, R13). -/
abbrev Word := BitVec 16

end Sys2Proof
end

