-- ==== Sys2Proof/Config.lean ====
section
/-! DEFINITION. What the spec leaves to the device and to the environment (R7): the device parameters, as plain data
that `State` carries so that every claim about every state holds for every device (log 3); what the environment
presents at a boundary (R277); and the free values of R12 (c), opaque, so that no proof can see them (log 8). -/

namespace Sys2Proof

/-- What `MEM_MAP` says is at an address (R60). -/
inductive MemKind where
  /-- reads return the last byte written -/
  | ram
  /-- reads return a fixed image; a write is refused -/
  | rom
  /-- the environment chooses what a read returns and is told of every access -/
  | io
  /-- nothing: every access is refused -/
  | unimplemented
deriving DecidableEq, Repr

/-- One entry of the memory map: the addresses `first` to `last`, both included. -/
structure Region where
  first : Nat
  last  : Nat
  kind  : MemKind
deriving DecidableEq, Repr

/-- The device parameters of R7 that a step reads. No step changes them (R37). -/
structure Device where
  /-- `MEM_MAP`: the first region that holds an address decides; an address in none is unimplemented. -/
  memMap : List Region
  /-- `N_IRQ`, at most 24 (R261). -/
  nIrq : Nat
  /-- `irq_mask_latency`: false is 0, the spec's default; true is 1 (R264). -/
  irqMaskDelay : Bool
deriving DecidableEq, Repr

/-- What the environment presents to the CPU at one instruction boundary (R36, R264, R277 E1 and E2). A level has two
bits, so a level above 3 cannot be written down. -/
inductive BoundaryInput where
  /-- `IRQ_SOURCE` presents none -/
  | quiet
  /-- `IRQ_SOURCE` presents request number `n` at level `level` -/
  | request (n : Nat) (level : BitVec 2)
  /-- the reset input is asserted -/
  | reset
deriving DecidableEq, Repr

/-- A request as `IRQ_SOURCE` holds it (R36): the number, which selects the vector, and the level software gave it. -/
structure IrqRequest where
  number : Nat
  level  : BitVec 2
deriving DecidableEq, Repr

/-- The `n`-th free bit: an `unspecified_1` of R12 (c) (log 8). -/
opaque Config.freeBit : Nat → Bool

/-- The `n`-th free byte: an `unspecified_8` of R12 (c) (log 8). -/
opaque Config.freeByte : Nat → BitVec 8

/-- The `n`-th free word: an `unspecified_16` of R12 (c) (log 8). -/
opaque Config.freeWord : Nat → BitVec 16

/-- What the environment returns for a read of an I/O address (R60, R277 E3), when `n` draws were made before
it: unconstrained (log 15). -/
opaque Config.ioInput : Nat → BitVec 16 → BitVec 8

end Sys2Proof
end

