-- ==== Sys2Proof/Syntax.lean ====
section
/-! DEFINITION. The instructions: one constructor per row of the op code table, in the table's order (R85: 136 forms, and
the reserved row 44, R90). In a name, `AtIx`, `AtEp`, `AtA` stand for the operands `@IX+off`, `@EP`, `@A`; the
destination comes first, as in the mnemonic. Operand fields hold exactly the bits the encoding gives them (R71, R74), so
every operand value is legal (R91). -/

namespace Sys2Proof

/-- The instructions of the F2MC-8FX. -/
inductive Instr where
  -- Transfer instructions, Table A-9 (40_transfer.md)
  /-- MOV dir,A (R101) -/
  | movDirA (dir : Byte)
  /-- MOV @IX+off,A (R102) -/
  | movAtIxA (off : Byte)
  /-- MOV ext,A (R103) -/
  | movExtA (ext : Word)
  /-- MOV @EP,A (R104) -/
  | movAtEpA
  /-- MOV Ri,A (R105) -/
  | movRiA (r : BitVec 3)
  /-- MOV A,#d8 (R106) -/
  | movAImm (d8 : Byte)
  /-- MOV A,dir (R107) -/
  | movADir (dir : Byte)
  /-- MOV A,@IX+off (R108) -/
  | movAAtIx (off : Byte)
  /-- MOV A,ext (R109) -/
  | movAExt (ext : Word)
  /-- MOV A,@A (R110) -/
  | movAAtA
  /-- MOV A,@EP (R111) -/
  | movAAtEp
  /-- MOV A,Ri (R112) -/
  | movARi (r : BitVec 3)
  /-- MOV dir,#d8 (R113) -/
  | movDirImm (dir : Byte) (d8 : Byte)
  /-- MOV @IX+off,#d8 (R114) -/
  | movAtIxImm (off : Byte) (d8 : Byte)
  /-- MOV @EP,#d8 (R115) -/
  | movAtEpImm (d8 : Byte)
  /-- MOV Ri,#d8 (R116) -/
  | movRiImm (r : BitVec 3) (d8 : Byte)
  /-- MOVW dir,A (R117) -/
  | movwDirA (dir : Byte)
  /-- MOVW @IX+off,A (R118) -/
  | movwAtIxA (off : Byte)
  /-- MOVW ext,A (R119) -/
  | movwExtA (ext : Word)
  /-- MOVW @EP,A (R120) -/
  | movwAtEpA
  /-- MOVW EP,A (R121) -/
  | movwEpA
  /-- MOVW A,#d16 (R122) -/
  | movwAImm (d16 : Word)
  /-- MOVW A,dir (R123) -/
  | movwADir (dir : Byte)
  /-- MOVW A,@IX+off (R124) -/
  | movwAAtIx (off : Byte)
  /-- MOVW A,ext (R125) -/
  | movwAExt (ext : Word)
  /-- MOVW A,@A (R126) -/
  | movwAAtA
  /-- MOVW A,@EP (R127) -/
  | movwAAtEp
  /-- MOVW A,EP (R128) -/
  | movwAEp
  /-- MOVW EP,#d16 (R129) -/
  | movwEpImm (d16 : Word)
  /-- MOVW IX,A (R130) -/
  | movwIxA
  /-- MOVW A,IX (R131) -/
  | movwAIx
  /-- MOVW SP,A (R132) -/
  | movwSpA
  /-- MOVW A,SP (R133) -/
  | movwASp
  /-- MOV @A,T (R134) -/
  | movAtAT
  /-- MOVW @A,T (R135) -/
  | movwAtAT
  /-- MOVW IX,#d16 (R136) -/
  | movwIxImm (d16 : Word)
  /-- MOVW A,PS (R137) -/
  | movwAPs
  /-- MOVW PS,A (R138) -/
  | movwPsA
  /-- MOVW SP,#d16 (R139) -/
  | movwSpImm (d16 : Word)
  /-- SWAP (R140) -/
  | swap
  /-- SETB dir:b (R141) -/
  | setb (dir : Byte) (b : BitVec 3)
  /-- CLRB dir:b (R142) -/
  | clrb (dir : Byte) (b : BitVec 3)
  /-- XCH A,T (R143) -/
  | xchAT
  /-- XCHW A,T (R144) -/
  | xchwAT
  /-- XCHW A,EP (R145) -/
  | xchwAEp
  /-- XCHW A,IX (R146) -/
  | xchwAIx
  /-- XCHW A,SP (R147) -/
  | xchwASp
  /-- MOVW A,PC (R148) -/
  | movwAPc
  -- Operation instructions, Table A-10 (41_operation.md)
  /-- ADDC A,Ri (R160) -/
  | addcARi (r : BitVec 3)
  /-- ADDC A,#d8 (R161) -/
  | addcAImm (d8 : Byte)
  /-- ADDC A,dir (R162) -/
  | addcADir (dir : Byte)
  /-- ADDC A,@IX+off (R163) -/
  | addcAAtIx (off : Byte)
  /-- ADDC A,@EP (R164) -/
  | addcAAtEp
  /-- ADDCW A (R165) -/
  | addcwA
  /-- ADDC A (R166) -/
  | addcA
  /-- SUBC A,Ri (R167) -/
  | subcARi (r : BitVec 3)
  /-- SUBC A,#d8 (R168) -/
  | subcAImm (d8 : Byte)
  /-- SUBC A,dir (R169) -/
  | subcADir (dir : Byte)
  /-- SUBC A,@IX+off (R170) -/
  | subcAAtIx (off : Byte)
  /-- SUBC A,@EP (R171) -/
  | subcAAtEp
  /-- SUBCW A (R172) -/
  | subcwA
  /-- SUBC A (R173) -/
  | subcA
  /-- INC Ri (R174) -/
  | incRi (r : BitVec 3)
  /-- INCW EP (R175) -/
  | incwEp
  /-- INCW IX (R176) -/
  | incwIx
  /-- INCW A (R177) -/
  | incwA
  /-- DEC Ri (R178) -/
  | decRi (r : BitVec 3)
  /-- DECW EP (R179) -/
  | decwEp
  /-- DECW IX (R180) -/
  | decwIx
  /-- DECW A (R181) -/
  | decwA
  /-- MULU A (R182) -/
  | mulu
  /-- DIVU A (R183) -/
  | divu
  /-- ANDW A (R184) -/
  | andwA
  /-- ORW A (R185) -/
  | orwA
  /-- XORW A (R186) -/
  | xorwA
  /-- CMP A (R187) -/
  | cmpA
  /-- CMPW A (R188) -/
  | cmpwA
  /-- RORC A (R189) -/
  | rorc
  /-- ROLC A (R190) -/
  | rolc
  /-- CMP A,#d8 (R191) -/
  | cmpAImm (d8 : Byte)
  /-- CMP A,dir (R192) -/
  | cmpADir (dir : Byte)
  /-- CMP A,@EP (R193) -/
  | cmpAAtEp
  /-- CMP A,@IX+off (R194) -/
  | cmpAAtIx (off : Byte)
  /-- CMP A,Ri (R195) -/
  | cmpARi (r : BitVec 3)
  /-- DAA (R196) -/
  | daa
  /-- DAS (R197) -/
  | das
  /-- XOR A (R198) -/
  | xorA
  /-- XOR A,#d8 (R199) -/
  | xorAImm (d8 : Byte)
  /-- XOR A,dir (R200) -/
  | xorADir (dir : Byte)
  /-- XOR A,@EP (R201) -/
  | xorAAtEp
  /-- XOR A,@IX+off (R202) -/
  | xorAAtIx (off : Byte)
  /-- XOR A,Ri (R203) -/
  | xorARi (r : BitVec 3)
  /-- AND A (R204) -/
  | andA
  /-- AND A,#d8 (R205) -/
  | andAImm (d8 : Byte)
  /-- AND A,dir (R206) -/
  | andADir (dir : Byte)
  /-- AND A,@EP (R207) -/
  | andAAtEp
  /-- AND A,@IX+off (R208) -/
  | andAAtIx (off : Byte)
  /-- AND A,Ri (R209) -/
  | andARi (r : BitVec 3)
  /-- OR A (R210) -/
  | orA
  /-- OR A,#d8 (R211) -/
  | orAImm (d8 : Byte)
  /-- OR A,dir (R212) -/
  | orADir (dir : Byte)
  /-- OR A,@EP (R213) -/
  | orAAtEp
  /-- OR A,@IX+off (R214) -/
  | orAAtIx (off : Byte)
  /-- OR A,Ri (R215) -/
  | orARi (r : BitVec 3)
  /-- CMP dir,#d8 (R216) -/
  | cmpDirImm (dir : Byte) (d8 : Byte)
  /-- CMP @EP,#d8 (R217) -/
  | cmpAtEpImm (d8 : Byte)
  /-- CMP @IX+off,#d8 (R218) -/
  | cmpAtIxImm (off : Byte) (d8 : Byte)
  /-- CMP Ri,#d8 (R219) -/
  | cmpRiImm (r : BitVec 3) (d8 : Byte)
  /-- INCW SP (R220) -/
  | incwSp
  /-- DECW SP (R221) -/
  | decwSp
  -- Branch instructions, Table A-11 (42_branch.md)
  /-- BZ rel (R226) -/
  | bz (rel : Byte)
  /-- BNZ rel (R227) -/
  | bnz (rel : Byte)
  /-- BC rel (R228) -/
  | bc (rel : Byte)
  /-- BNC rel (R229) -/
  | bnc (rel : Byte)
  /-- BN rel (R230) -/
  | bn (rel : Byte)
  /-- BP rel (R231) -/
  | bp (rel : Byte)
  /-- BLT rel (R232) -/
  | blt (rel : Byte)
  /-- BGE rel (R233) -/
  | bge (rel : Byte)
  /-- BBC dir:b,rel (R234) -/
  | bbc (dir : Byte) (b : BitVec 3) (rel : Byte)
  /-- BBS dir:b,rel (R235) -/
  | bbs (dir : Byte) (b : BitVec 3) (rel : Byte)
  /-- JMP @A (R236) -/
  | jmpAtA
  /-- JMP ext (R237) -/
  | jmpExt (ext : Word)
  /-- CALLV #vct (R238) -/
  | callv (k : BitVec 3)
  /-- CALL ext (R239) -/
  | call (ext : Word)
  /-- XCHW A,PC (R240) -/
  | xchwAPc
  /-- RET (R241) -/
  | ret
  /-- RETI (R242) -/
  | reti
  -- Other instructions, Table A-12 (43_other.md)
  /-- PUSHW A (R245) -/
  | pushwA
  /-- POPW A (R246) -/
  | popwA
  /-- PUSHW IX (R247) -/
  | pushwIx
  /-- POPW IX (R248) -/
  | popwIx
  /-- NOP (R249) -/
  | nop
  /-- CLRC (R250) -/
  | clrc
  /-- SETC (R251) -/
  | setc
  /-- CLRI (R252) -/
  | clri
  /-- SETI (R253) -/
  | seti
  -- The one byte with no row in the op code map
  /-- op code 44: reserved, no instruction (R90) -/
  | unassigned
deriving DecidableEq, Repr

end Sys2Proof
end

