-- ==== Sys2Proof/WellFormed.lean ====
section
/-! DEFINITION. What counts as an instruction, a device and a boundary input of the spec. -/

namespace Sys2Proof

/-- An instruction the op code map assigns (R77): every constructor but the reserved one (R90). Operand fields
need no check, because every value of every operand is legal (R91). -/
def Instr.wellFormed : Instr → Bool
  | .unassigned => false
  | _ => true

/-- A region lies in the 64 Kbyte space (R41). -/
def Region.wellFormed (r : Region) : Bool :=
  decide (r.first ≤ r.last) && decide (r.last < 65536)

/-- The device parameters as R7 bounds them: every region in the space, at most 24 request numbers (R261). -/
def Device.wellFormed (d : Device) : Bool :=
  d.memMap.all Region.wellFormed && decide (d.nIrq ≤ 24)

/-- What the environment may present to a device (R277 E1): a request number below `N_IRQ`, at most 23 (R261). -/
def BoundaryInput.wellFormed (d : Device) : BoundaryInput → Bool
  | .request n _ => decide (n < d.nIrq) && decide (n < 24)
  | .quiet => true
  | .reset => true

end Sys2Proof
end

