-- ==== Sys2Proof/Machine/State.lean ====
section
/-! DEFINITION. The state of the machine: the seven dedicated registers, memory, what the environment presents, and the
device (10_state.md R13, R36, R37). INVENTORY.md lists every field with its rule and its reset value. -/

namespace Sys2Proof.Machine

/-- Program status PS by its fields (R20, R22): the sixteen bits are RP, DP, H, I, IL1, IL0, N, Z, V, C and nothing
else, so there is no reserved bit to keep. `Status.toWord` is the register as a word. -/
structure Status where
  /-- register bank pointer, PS[15:11] (R32) -/
  rp : BitVec 5
  /-- direct bank pointer, PS[10:8] (R33) -/
  dp : BitVec 3
  /-- half carry, PS[7] (R23) -/
  h : Bool
  /-- interrupt enable, PS[6] (R24) -/
  i : Bool
  /-- interrupt level, PS[5:4] (R25) -/
  il : BitVec 2
  /-- negative, PS[3] (R26) -/
  n : Bool
  /-- zero, PS[2] (R27) -/
  z : Bool
  /-- two's complement overflow, PS[1] (R28) -/
  v : Bool
  /-- carry or borrow, PS[0] (R29) -/
  c : Bool
deriving DecidableEq, Repr

/-- Memory: the bytes that hold a value, at strictly rising addresses (`Memory.wf`). An address that is not listed
has no value: nothing has written it and no image defines it (R40, log 1). -/
abbrev Memory := List Host.Cell

/-- Whether an I/O access reads or writes. -/
inductive IoDirection where
  | read
  | write
deriving DecidableEq, Repr

/-- One access to an I/O address, as it is delivered to the environment (R60, R48, D26). -/
structure IoAccess where
  address : Word
  direction : IoDirection
  /-- the RMW bus signal of the read cycle (R48) -/
  rmw : Bool
  value : Byte
deriving DecidableEq, Repr

/-- The I flag and the interrupt level an acceptance test reads (R264). -/
structure IrqMask where
  i  : Bool
  il : BitVec 2
deriving DecidableEq, Repr

/-- The state. -/
structure State where
  /-- program counter: between steps, the address of the next instruction (R15) -/
  pc : Word
  /-- accumulator (R14) -/
  a : Word
  /-- temporary accumulator (R17) -/
  t : Word
  /-- index register (R18) -/
  ix : Word
  /-- extra pointer (R19) -/
  ep : Word
  /-- stack pointer (R16) -/
  sp : Word
  /-- program status (R20) -/
  ps : Status
  /-- the bytes of RAM and ROM that hold a value (R34) -/
  mem : Memory
  /-- the device parameters of R7: no step changes them (R37, log 3) -/
  device : Device
  /-- what the environment presents at the coming boundaries, the next first; when it is empty, nothing new (R36, log 16) -/
  inputs : List BoundaryInput
  /-- the requests `IRQ_SOURCE` has presented and that nothing can have cleared or disabled since: no reset and no CPU write to an
  I/O register. The latest is first, none stands twice (R36, R273, log 35) -/
  pending : List IrqRequest
  /-- I and IL as they were before the step that just ended, when that step was SETI, CLRI, MOVW PS,A or RETI (R264, log 18) -/
  maskBefore : Option IrqMask
  /-- the model's own: every I/O access so far, the oldest first (log 15) -/
  ioLog : List IoAccess
  /-- the model's own: how many free values have been drawn (R12 (c), log 8) -/
  draws : Nat
deriving DecidableEq, Repr

/-- Why a run stops with a fault. The hardware itself has no fault (R260). -/
inductive Fault where
  /-- Raised by every read of a RAM or ROM byte that nothing has written: a fetch, an operand, a pop or a vector. R40: a model
  should treat the read as a fault. Safe: the chip reads some byte and goes on. -/
  | unwrittenRead (address : Word)
deriving DecidableEq, Repr

/-- Why a step is refused: the spec gives the situation no meaning (R12 (b)). -/
inductive Refusal where
  /-- Raised by an arm of `exec` whose instruction has no meaning yet; no arm is such. Safe. -/
  | notModelled (mnemonic : String)
  /-- Raised by the byte 44 as an op code (R90). Safe. -/
  | unassignedOpcode44
  /-- Raised by a storing instruction other than CALL and CALLV that writes `next_pc` or `next_pc + 1` (R310). Safe. -/
  | prefetchHazard
  /-- Raised by MOVW A,dir and MOVW dir,A with dir = FF, or dir = 7F and DP ≠ 0 (R58). Safe. -/
  | dirWordCrossesBank
  /-- Raised by a CPU write to a ROM address (R60). Safe. -/
  | writeToRom (address : Word)
  /-- Raised by any access to an unimplemented address (R60). Safe. -/
  | unmapped (address : Word)
  /-- Raised at a boundary where the environment presents a request number the device does not have (R277 E1). Safe. -/
  | requestOutOfRange (n : Nat)
  /-- Raised at a boundary where the environment no longer presents a request that software has neither cleared nor disabled
  (R273, R277 E1). Safe. -/
  | requestWithdrawn
deriving DecidableEq, Repr

/-- The outcome of an operation: a value, a fault, or a refusal. -/
abbrev Res (α : Type) := Host.Outcome α Fault Refusal

/-- PS after reset: 0030 (R38). -/
def Status.afterReset : Status :=
  { rp := 0#5, dp := 0#3, h := false, i := false, il := 3#2, n := false, z := false, v := false, c := false }

/-- The device of `State.reset`: DESIGN CHOICE, all 64 Kbytes RAM, all 24 request numbers, `irq_mask_latency` at the
spec's default 0 (log 3). Claims quantify over every device. -/
def Device.allRam : Device :=
  { memMap := [{ first := 0, last := 65535, kind := .ram }], nIrq := 24, irqMaskDelay := false }

/-- The machine right after reset (R38). PC is the word at FFFE:FFFF, which no image has defined here: DESIGN CHOICE
8000, what every worked reset of the spec leaves (R300's example; log 2). Memory lists nothing. -/
def State.reset : State :=
  { pc := 0x8000#16, a := 0#16, t := 0#16, ix := 0#16, ep := 0#16, sp := 0#16, ps := Status.afterReset, mem := [],
    device := Device.allRam, inputs := [], pending := [], maskBefore := none, ioLog := [], draws := 0 }

end Sys2Proof.Machine
end

