-- ==== Sys2Proof/Machine/Memory.lean ====
section
/-! DEFINITION. Memory as a list of cells in canonical form, and what the memory map says of an address (R41, R60). -/

namespace Sys2Proof.Machine

/-- The value a cell holds; an unlisted address has none (R40). -/
def Memory.read : Memory → Nat → Option Byte
  | [], _ => none
  | (k, w) :: m, a => if k = a then some w else Memory.read m a

/-- Store a byte, keeping addresses strictly rising. -/
def Memory.write : Memory → Nat → Byte → Memory
  | [], a, v => [(a, v)]
  | (k, w) :: m, a, v =>
    if a < k then (a, v) :: (k, w) :: m
    else if k = a then (a, v) :: m
    else (k, w) :: Memory.write m a v

/-- Addresses rise strictly from `lo` on and stay in the 64 Kbyte space. -/
def Memory.risingFrom : Nat → Memory → Bool
  | _, [] => true
  | lo, (k, _) :: m => decide (lo ≤ k) && decide (k < 65536) && Memory.risingFrom (k + 1) m

/-- The canonical form: addresses strictly rising, below 65,536 (R41). No listed cell equals what an unlisted address
reads as, because an unlisted address has no value. -/
def Memory.wf (m : Memory) : Bool := Memory.risingFrom 0 m

/-- What a memory map says of an address: the first region that holds it decides; in none, nothing is there (R60). -/
def memKindOf : List Region → Nat → MemKind
  | [], _ => .unimplemented
  | r :: rs, a => if r.first ≤ a ∧ a ≤ r.last then r.kind else memKindOf rs a

/-- What an access to an address reaches. -/
inductive Site where
  /-- the PS mirror at 0078 (R21) -/
  | mirror
  /-- what the memory map has there (R60) -/
  | mapped (kind : MemKind)
deriving DecidableEq, Repr

/-- The address of the PS mirror (R21). -/
def mirrorAddr : Word := 0x0078#16

/-- The mirror is fixed by the CPU and overrides `MEM_MAP` (R60). -/
def State.siteOf (s : State) (addr : Word) : Site :=
  if addr = mirrorAddr then .mirror else .mapped (memKindOf s.device.memMap addr.toNat)

end Sys2Proof.Machine
end

