-- ==== Sys2Proof/Decode.lean ====
section
/-! DEFINITION. The op code map (30_encoding.md R70 to R77, R86), the decoder over bytes, and the encoder written from the same
formats. The first byte alone selects the instruction and its length (R70). -/

namespace Sys2Proof

/-- The upper byte of a word (R8: `v[15:8]`). -/
def hiByte (w : Word) : Byte := w.extractLsb' 8 8

/-- The lower byte of a word (`v[7:0]`). -/
def loByte (w : Word) : Byte := w.extractLsb' 0 8

/-- What follows the op code byte, and the instruction it makes: nothing, one byte, or two bytes, the byte at the
lower address first (R72, R73). -/
inductive Layout where
  | one   (i : Instr)
  | two   (k : Byte → Instr)
  | three (k : Byte → Byte → Instr)

/-- The instruction's bytes (R72). -/
def Layout.length : Layout → Nat
  | .one _ => 1
  | .two _ => 2
  | .three _ => 3

/-- One row of the map (R77): an op code belongs to it when its bits under `mask` are `pattern`. The layout is given
the op code's low three bits, which the register, bit and vector forms use (R71). -/
structure OpRow where
  mask    : Byte
  pattern : Byte
  layout  : BitVec 3 → Layout

/-- A form with one op code (mask FF). -/
def opRow (op : Byte) (l : Layout) : OpRow := ⟨0xFF#8, op, fun _ => l⟩

/-- A form with eight op codes, selected by `op[7:3]` (mask F8, R71). -/
def fieldRow (op : BitVec 5) (l : BitVec 3 → Layout) : OpRow := ⟨0xF8#8, op ++ 0#3, l⟩

/-- Table A-9, rows in its order. -/
def transferRows1 : List OpRow := [
  opRow 0x45#8 (.two .movDirA),
  opRow 0x46#8 (.two .movAtIxA),
  opRow 0x61#8 (.three (fun h l => .movExtA (h ++ l))),
  opRow 0x47#8 (.one .movAtEpA),
  fieldRow 0b01001#5 (fun n => .one (.movRiA n)),
  opRow 0x04#8 (.two .movAImm),
  opRow 0x05#8 (.two .movADir),
  opRow 0x06#8 (.two .movAAtIx),
  opRow 0x60#8 (.three (fun h l => .movAExt (h ++ l))),
  opRow 0x92#8 (.one .movAAtA),
  opRow 0x07#8 (.one .movAAtEp),
  fieldRow 0b00001#5 (fun n => .one (.movARi n)),
  opRow 0x85#8 (.three .movDirImm),
  opRow 0x86#8 (.three .movAtIxImm),
  opRow 0x87#8 (.two .movAtEpImm),
  fieldRow 0b10001#5 (fun n => .two (.movRiImm n)),
  opRow 0xD5#8 (.two .movwDirA),
  opRow 0xD6#8 (.two .movwAtIxA),
  opRow 0xD4#8 (.three (fun h l => .movwExtA (h ++ l))),
  opRow 0xD7#8 (.one .movwAtEpA),
  opRow 0xE3#8 (.one .movwEpA),
  opRow 0xE4#8 (.three (fun h l => .movwAImm (h ++ l))),
  opRow 0xC5#8 (.two .movwADir),
  opRow 0xC6#8 (.two .movwAAtIx)]

/-- Table A-9, rows in its order. -/
def transferRows2 : List OpRow := [
  opRow 0xC4#8 (.three (fun h l => .movwAExt (h ++ l))),
  opRow 0x93#8 (.one .movwAAtA),
  opRow 0xC7#8 (.one .movwAAtEp),
  opRow 0xF3#8 (.one .movwAEp),
  opRow 0xE7#8 (.three (fun h l => .movwEpImm (h ++ l))),
  opRow 0xE2#8 (.one .movwIxA),
  opRow 0xF2#8 (.one .movwAIx),
  opRow 0xE1#8 (.one .movwSpA),
  opRow 0xF1#8 (.one .movwASp),
  opRow 0x82#8 (.one .movAtAT),
  opRow 0x83#8 (.one .movwAtAT),
  opRow 0xE6#8 (.three (fun h l => .movwIxImm (h ++ l))),
  opRow 0x70#8 (.one .movwAPs),
  opRow 0x71#8 (.one .movwPsA),
  opRow 0xE5#8 (.three (fun h l => .movwSpImm (h ++ l))),
  opRow 0x10#8 (.one .swap),
  fieldRow 0b10101#5 (fun n => .two (fun d => .setb d n)),
  fieldRow 0b10100#5 (fun n => .two (fun d => .clrb d n)),
  opRow 0x42#8 (.one .xchAT),
  opRow 0x43#8 (.one .xchwAT),
  opRow 0xF7#8 (.one .xchwAEp),
  opRow 0xF6#8 (.one .xchwAIx),
  opRow 0xF5#8 (.one .xchwASp),
  opRow 0xF0#8 (.one .movwAPc)]

/-- Table A-9, whole. -/
def transferRows : List OpRow := transferRows1 ++ transferRows2

/-- Table A-10, rows in its order. -/
def operationRows1 : List OpRow := [
  fieldRow 0b00101#5 (fun n => .one (.addcARi n)),
  opRow 0x24#8 (.two .addcAImm),
  opRow 0x25#8 (.two .addcADir),
  opRow 0x26#8 (.two .addcAAtIx),
  opRow 0x27#8 (.one .addcAAtEp),
  opRow 0x23#8 (.one .addcwA),
  opRow 0x22#8 (.one .addcA),
  fieldRow 0b00111#5 (fun n => .one (.subcARi n)),
  opRow 0x34#8 (.two .subcAImm),
  opRow 0x35#8 (.two .subcADir),
  opRow 0x36#8 (.two .subcAAtIx),
  opRow 0x37#8 (.one .subcAAtEp),
  opRow 0x33#8 (.one .subcwA),
  opRow 0x32#8 (.one .subcA),
  fieldRow 0b11001#5 (fun n => .one (.incRi n)),
  opRow 0xC3#8 (.one .incwEp),
  opRow 0xC2#8 (.one .incwIx),
  opRow 0xC0#8 (.one .incwA),
  fieldRow 0b11011#5 (fun n => .one (.decRi n)),
  opRow 0xD3#8 (.one .decwEp),
  opRow 0xD2#8 (.one .decwIx),
  opRow 0xD0#8 (.one .decwA),
  opRow 0x01#8 (.one .mulu),
  opRow 0x11#8 (.one .divu)]

/-- Table A-10, rows in its order. -/
def operationRows2 : List OpRow := [
  opRow 0x63#8 (.one .andwA),
  opRow 0x73#8 (.one .orwA),
  opRow 0x53#8 (.one .xorwA),
  opRow 0x12#8 (.one .cmpA),
  opRow 0x13#8 (.one .cmpwA),
  opRow 0x03#8 (.one .rorc),
  opRow 0x02#8 (.one .rolc),
  opRow 0x14#8 (.two .cmpAImm),
  opRow 0x15#8 (.two .cmpADir),
  opRow 0x17#8 (.one .cmpAAtEp),
  opRow 0x16#8 (.two .cmpAAtIx),
  fieldRow 0b00011#5 (fun n => .one (.cmpARi n)),
  opRow 0x84#8 (.one .daa),
  opRow 0x94#8 (.one .das),
  opRow 0x52#8 (.one .xorA),
  opRow 0x54#8 (.two .xorAImm),
  opRow 0x55#8 (.two .xorADir),
  opRow 0x57#8 (.one .xorAAtEp),
  opRow 0x56#8 (.two .xorAAtIx),
  fieldRow 0b01011#5 (fun n => .one (.xorARi n)),
  opRow 0x62#8 (.one .andA),
  opRow 0x64#8 (.two .andAImm),
  opRow 0x65#8 (.two .andADir),
  opRow 0x67#8 (.one .andAAtEp)]

/-- Table A-10, rows in its order. -/
def operationRows3 : List OpRow := [
  opRow 0x66#8 (.two .andAAtIx),
  fieldRow 0b01101#5 (fun n => .one (.andARi n)),
  opRow 0x72#8 (.one .orA),
  opRow 0x74#8 (.two .orAImm),
  opRow 0x75#8 (.two .orADir),
  opRow 0x77#8 (.one .orAAtEp),
  opRow 0x76#8 (.two .orAAtIx),
  fieldRow 0b01111#5 (fun n => .one (.orARi n)),
  opRow 0x95#8 (.three .cmpDirImm),
  opRow 0x97#8 (.two .cmpAtEpImm),
  opRow 0x96#8 (.three .cmpAtIxImm),
  fieldRow 0b10011#5 (fun n => .two (.cmpRiImm n)),
  opRow 0xC1#8 (.one .incwSp),
  opRow 0xD1#8 (.one .decwSp)]

/-- Table A-10, whole. -/
def operationRows : List OpRow := operationRows1 ++ operationRows2 ++ operationRows3

/-- Table A-11, rows in its order. -/
def branchRows : List OpRow := [
  opRow 0xFD#8 (.two .bz),
  opRow 0xFC#8 (.two .bnz),
  opRow 0xF9#8 (.two .bc),
  opRow 0xF8#8 (.two .bnc),
  opRow 0xFB#8 (.two .bn),
  opRow 0xFA#8 (.two .bp),
  opRow 0xFF#8 (.two .blt),
  opRow 0xFE#8 (.two .bge),
  fieldRow 0b10110#5 (fun n => .three (fun d e => .bbc d n e)),
  fieldRow 0b10111#5 (fun n => .three (fun d e => .bbs d n e)),
  opRow 0xE0#8 (.one .jmpAtA),
  opRow 0x21#8 (.three (fun h l => .jmpExt (h ++ l))),
  fieldRow 0b11101#5 (fun n => .one (.callv n)),
  opRow 0x31#8 (.three (fun h l => .call (h ++ l))),
  opRow 0xF4#8 (.one .xchwAPc),
  opRow 0x20#8 (.one .ret),
  opRow 0x30#8 (.one .reti)]

/-- Table A-12, rows in its order. -/
def otherRows : List OpRow := [
  opRow 0x40#8 (.one .pushwA),
  opRow 0x50#8 (.one .popwA),
  opRow 0x41#8 (.one .pushwIx),
  opRow 0x51#8 (.one .popwIx),
  opRow 0x00#8 (.one .nop),
  opRow 0x81#8 (.one .clrc),
  opRow 0x91#8 (.one .setc),
  opRow 0x80#8 (.one .clri),
  opRow 0x90#8 (.one .seti)]

/-- The complete map: the 136 forms (R85). -/
def opRows : List OpRow := transferRows ++ operationRows ++ branchRows ++ otherRows

/-- The row an op code byte belongs to, if any (R70). -/
def rowOf? (op : Byte) : Option OpRow := opRows.find? fun r => op &&& r.mask == r.pattern

/-- What the first byte selects. A byte with no row is the reserved encoding (R90); it has no operand bytes here only because
it has no length at all: its meaning refuses before anything is read or moved (log 10). -/
def layoutOf (op : Byte) : Layout :=
  match rowOf? op with
  | some r => r.layout (op.extractLsb' 0 3)
  | none => .one .unassigned

/-- Why a list of bytes is not decoded. -/
inductive DecodeError where
  /-- there is no op code byte -/
  | noOpcode
  /-- the op code needs more operand bytes than there are -/
  | operandMissing (op : Byte)
deriving DecidableEq, Repr

/-- The instruction a list of bytes begins with, and the bytes after it (R70). -/
def decode : List Byte → Except DecodeError (Instr × List Byte)
  | [] => .error .noOpcode
  | op :: rest =>
    match layoutOf op, rest with
    | .one i, rest => .ok (i, rest)
    | .two k, b :: rest => .ok (k b, rest)
    | .three k, b :: c :: rest => .ok (k b c, rest)
    | _, _ => .error (.operandMissing op)

/-- The bytes the table's numbering stands for: bit 0 is the least significant bit of the first byte, and every bit
from `nbits` up is zero; three bytes, the longest instruction (R86). -/
def tableBytes (nbits w : Nat) : List Byte :=
  [BitVec.ofNat 8 (w % 2 ^ nbits), BitVec.ofNat 8 (w % 2 ^ nbits / 256), BitVec.ofNat 8 (w % 2 ^ nbits / 65536)]

/-- The instruction the decoder reads from the bits `w` of an instruction. -/
def decodeTableWord (nbits w : Nat) : Option Instr :=
  match decode (tableBytes nbits w) with
  | .ok (i, _) => some i
  | .error _ => none

/-- The bytes of an instruction, at rising addresses (R72, R73, R74). -/
def encode : Instr → List Byte
  | .movDirA dir => [0x45#8, dir]
  | .movAtIxA off => [0x46#8, off]
  | .movExtA ext => [0x61#8, hiByte ext, loByte ext]
  | .movAtEpA => [0x47#8]
  | .movRiA r => [0b01001#5 ++ r]
  | .movAImm d8 => [0x04#8, d8]
  | .movADir dir => [0x05#8, dir]
  | .movAAtIx off => [0x06#8, off]
  | .movAExt ext => [0x60#8, hiByte ext, loByte ext]
  | .movAAtA => [0x92#8]
  | .movAAtEp => [0x07#8]
  | .movARi r => [0b00001#5 ++ r]
  | .movDirImm dir d8 => [0x85#8, dir, d8]
  | .movAtIxImm off d8 => [0x86#8, off, d8]
  | .movAtEpImm d8 => [0x87#8, d8]
  | .movRiImm r d8 => [0b10001#5 ++ r, d8]
  | .movwDirA dir => [0xD5#8, dir]
  | .movwAtIxA off => [0xD6#8, off]
  | .movwExtA ext => [0xD4#8, hiByte ext, loByte ext]
  | .movwAtEpA => [0xD7#8]
  | .movwEpA => [0xE3#8]
  | .movwAImm d16 => [0xE4#8, hiByte d16, loByte d16]
  | .movwADir dir => [0xC5#8, dir]
  | .movwAAtIx off => [0xC6#8, off]
  | .movwAExt ext => [0xC4#8, hiByte ext, loByte ext]
  | .movwAAtA => [0x93#8]
  | .movwAAtEp => [0xC7#8]
  | .movwAEp => [0xF3#8]
  | .movwEpImm d16 => [0xE7#8, hiByte d16, loByte d16]
  | .movwIxA => [0xE2#8]
  | .movwAIx => [0xF2#8]
  | .movwSpA => [0xE1#8]
  | .movwASp => [0xF1#8]
  | .movAtAT => [0x82#8]
  | .movwAtAT => [0x83#8]
  | .movwIxImm d16 => [0xE6#8, hiByte d16, loByte d16]
  | .movwAPs => [0x70#8]
  | .movwPsA => [0x71#8]
  | .movwSpImm d16 => [0xE5#8, hiByte d16, loByte d16]
  | .swap => [0x10#8]
  | .setb dir b => [0b10101#5 ++ b, dir]
  | .clrb dir b => [0b10100#5 ++ b, dir]
  | .xchAT => [0x42#8]
  | .xchwAT => [0x43#8]
  | .xchwAEp => [0xF7#8]
  | .xchwAIx => [0xF6#8]
  | .xchwASp => [0xF5#8]
  | .movwAPc => [0xF0#8]
  | .addcARi r => [0b00101#5 ++ r]
  | .addcAImm d8 => [0x24#8, d8]
  | .addcADir dir => [0x25#8, dir]
  | .addcAAtIx off => [0x26#8, off]
  | .addcAAtEp => [0x27#8]
  | .addcwA => [0x23#8]
  | .addcA => [0x22#8]
  | .subcARi r => [0b00111#5 ++ r]
  | .subcAImm d8 => [0x34#8, d8]
  | .subcADir dir => [0x35#8, dir]
  | .subcAAtIx off => [0x36#8, off]
  | .subcAAtEp => [0x37#8]
  | .subcwA => [0x33#8]
  | .subcA => [0x32#8]
  | .incRi r => [0b11001#5 ++ r]
  | .incwEp => [0xC3#8]
  | .incwIx => [0xC2#8]
  | .incwA => [0xC0#8]
  | .decRi r => [0b11011#5 ++ r]
  | .decwEp => [0xD3#8]
  | .decwIx => [0xD2#8]
  | .decwA => [0xD0#8]
  | .mulu => [0x01#8]
  | .divu => [0x11#8]
  | .andwA => [0x63#8]
  | .orwA => [0x73#8]
  | .xorwA => [0x53#8]
  | .cmpA => [0x12#8]
  | .cmpwA => [0x13#8]
  | .rorc => [0x03#8]
  | .rolc => [0x02#8]
  | .cmpAImm d8 => [0x14#8, d8]
  | .cmpADir dir => [0x15#8, dir]
  | .cmpAAtEp => [0x17#8]
  | .cmpAAtIx off => [0x16#8, off]
  | .cmpARi r => [0b00011#5 ++ r]
  | .daa => [0x84#8]
  | .das => [0x94#8]
  | .xorA => [0x52#8]
  | .xorAImm d8 => [0x54#8, d8]
  | .xorADir dir => [0x55#8, dir]
  | .xorAAtEp => [0x57#8]
  | .xorAAtIx off => [0x56#8, off]
  | .xorARi r => [0b01011#5 ++ r]
  | .andA => [0x62#8]
  | .andAImm d8 => [0x64#8, d8]
  | .andADir dir => [0x65#8, dir]
  | .andAAtEp => [0x67#8]
  | .andAAtIx off => [0x66#8, off]
  | .andARi r => [0b01101#5 ++ r]
  | .orA => [0x72#8]
  | .orAImm d8 => [0x74#8, d8]
  | .orADir dir => [0x75#8, dir]
  | .orAAtEp => [0x77#8]
  | .orAAtIx off => [0x76#8, off]
  | .orARi r => [0b01111#5 ++ r]
  | .cmpDirImm dir d8 => [0x95#8, dir, d8]
  | .cmpAtEpImm d8 => [0x97#8, d8]
  | .cmpAtIxImm off d8 => [0x96#8, off, d8]
  | .cmpRiImm r d8 => [0b10011#5 ++ r, d8]
  | .incwSp => [0xC1#8]
  | .decwSp => [0xD1#8]
  | .bz rel => [0xFD#8, rel]
  | .bnz rel => [0xFC#8, rel]
  | .bc rel => [0xF9#8, rel]
  | .bnc rel => [0xF8#8, rel]
  | .bn rel => [0xFB#8, rel]
  | .bp rel => [0xFA#8, rel]
  | .blt rel => [0xFF#8, rel]
  | .bge rel => [0xFE#8, rel]
  | .bbc dir b rel => [0b10110#5 ++ b, dir, rel]
  | .bbs dir b rel => [0b10111#5 ++ b, dir, rel]
  | .jmpAtA => [0xE0#8]
  | .jmpExt ext => [0x21#8, hiByte ext, loByte ext]
  | .callv k => [0b11101#5 ++ k]
  | .call ext => [0x31#8, hiByte ext, loByte ext]
  | .xchwAPc => [0xF4#8]
  | .ret => [0x20#8]
  | .reti => [0x30#8]
  | .pushwA => [0x40#8]
  | .popwA => [0x50#8]
  | .pushwIx => [0x41#8]
  | .popwIx => [0x51#8]
  | .nop => [0x00#8]
  | .clrc => [0x81#8]
  | .setc => [0x91#8]
  | .clri => [0x80#8]
  | .seti => [0x90#8]
  | .unassigned => [0x44#8]

/-- The length of an instruction in bytes (R86). -/
def Instr.length (i : Instr) : Nat := (encode i).length

end Sys2Proof
end

