-- ==== Sys2Proof/Machine/Flags.lean ====
section
/-! DEFINITION. The words and bytes of registers, PS as a word, the arithmetic laws with their flags (41_operation.md R150 to
R155), and the decimal adjust tables (R196, R197). The laws are computed exactly on integers and then narrowed. -/

namespace Sys2Proof.Machine

/-- `w` with its lower byte replaced; the upper byte is unchanged (R14: byte instructions write AL only). -/
def withLo (w : Word) (b : Byte) : Word := hiByte w ++ b

/-- `a : b` (R8). -/
def joinBytes (hi lo : Byte) : Word := hi ++ lo

/-- `sext_8` (R9), as a word. -/
def sextByte (b : Byte) : Word := b.signExtend 16

/-- PS[15:8], the byte at the mirror: RP in bits 7:3, DP in bits 2:0 (R20, R21). -/
def Status.upper (p : Status) : Byte := p.rp ++ p.dp

/-- CCR, PS[7:0]: H, I, IL1, IL0, N, Z, V, C (R22; the places of H, I and IL are PRESUMED, log 5). -/
def Status.ccr (p : Status) : Byte :=
  BitVec.ofBool p.h ++ BitVec.ofBool p.i ++ p.il ++ BitVec.ofBool p.n ++ BitVec.ofBool p.z ++ BitVec.ofBool p.v
    ++ BitVec.ofBool p.c

/-- PS as a word (R20). -/
def Status.toWord (p : Status) : Word := joinBytes p.upper p.ccr

/-- RP and DP from a byte, as a write of the mirror does (R21). -/
def Status.withUpper (p : Status) (b : Byte) : Status :=
  { p with rp := b.extractLsb' 3 5, dp := b.extractLsb' 0 3 }

/-- PS from a word: all sixteen bits (R138, R242). -/
def Status.ofWord (w : Word) : Status :=
  { rp := w.extractLsb' 11 5, dp := w.extractLsb' 8 3, h := w.getLsbD 7, i := w.getLsbD 6, il := w.extractLsb' 4 2,
    n := w.getLsbD 3, z := w.getLsbD 2, v := w.getLsbD 1, c := w.getLsbD 0 }

/-- N and Z written, nothing else. -/
def Status.setNZ (p : Status) (n z : Bool) : Status := { p with n := n, z := z }

/-- N and Z of a byte result (R154). -/
def Status.nz8 (p : Status) (r : Byte) : Status := p.setNZ r.msb (decide (r = 0#8))

/-- N and Z of a word result (R154). -/
def Status.nz16 (p : Status) (r : Word) : Status := p.setNZ r.msb (decide (r = 0#16))

/-- The result and flags of a byte adder (R150, R151). -/
structure Alu8 where
  r : Byte
  h : Bool
  n : Bool
  z : Bool
  v : Bool
  c : Bool
deriving DecidableEq, Repr

/-- The result and flags of a word adder; it has no H output (R152, R153). -/
structure Alu16 where
  r : Word
  n : Bool
  z : Bool
  v : Bool
  c : Bool
deriving DecidableEq, Repr

/-- Outside the signed range of a byte (R28). -/
def overflows8 (x : Int) : Bool := decide (x < -128) || decide (127 < x)

/-- Outside the signed range of a word (R28). -/
def overflows16 (x : Int) : Bool := decide (x < -32768) || decide (32767 < x)

/-- `Add8` (R150). -/
def add8 (a b : Byte) (cin : Bool) : Alu8 :=
  let r := BitVec.ofNat 8 (a.toNat + b.toNat + cin.toNat)
  { r := r
    h := decide (15 < a.toNat % 16 + b.toNat % 16 + cin.toNat)
    n := r.msb
    z := decide (r = 0#8)
    v := overflows8 (a.toInt + b.toInt + cin.toNat)
    c := decide (255 < a.toNat + b.toNat + cin.toNat) }

/-- `Sub8`, a minus b minus the borrow (R151): C is a borrow. -/
def sub8 (a b : Byte) (bin : Bool) : Alu8 :=
  let r := BitVec.ofInt 8 ((a.toNat : Int) - b.toNat - bin.toNat)
  { r := r
    h := decide (a.toNat % 16 < b.toNat % 16 + bin.toNat)
    n := r.msb
    z := decide (r = 0#8)
    v := overflows8 (a.toInt - b.toInt - bin.toNat)
    c := decide (a.toNat < b.toNat + bin.toNat) }

/-- `Add16` (R152). -/
def add16 (a b : Word) (cin : Bool) : Alu16 :=
  let r := BitVec.ofNat 16 (a.toNat + b.toNat + cin.toNat)
  { r := r
    n := r.msb
    z := decide (r = 0#16)
    v := overflows16 (a.toInt + b.toInt + cin.toNat)
    c := decide (65535 < a.toNat + b.toNat + cin.toNat) }

/-- `Sub16` (R153). -/
def sub16 (a b : Word) (bin : Bool) : Alu16 :=
  let r := BitVec.ofInt 16 ((a.toNat : Int) - b.toNat - bin.toNat)
  { r := r
    n := r.msb
    z := decide (r = 0#16)
    v := overflows16 (a.toInt - b.toInt - bin.toNat)
    c := decide (a.toNat < b.toNat + bin.toNat) }

/-- H, N, Z, V, C of a byte addition or subtraction (R23 (i), R150, R151). -/
def Status.setHNZVC (p : Status) (o : Alu8) : Status :=
  { p with h := o.h, n := o.n, z := o.z, v := o.v, c := o.c }

/-- N, Z, V, C written. -/
def Status.setNZVC (p : Status) (n z v c : Bool) : Status := { p with n := n, z := z, v := v, c := c }

/-- The logical law: N and Z of the result, V 0, C and H unchanged (R155). -/
def Status.logic8 (p : Status) (r : Byte) : Status := { p.nz8 r with v := false }

/-- The logical law for a word result (R155). -/
def Status.logic16 (p : Status) (r : Word) : Status := { p.nz16 r with v := false }

/-- One row of Table 6-12 (R196): the inputs it covers, the correction value, and C after. -/
structure DaaRow where
  c : Bool
  hiMin : Nat
  hiMax : Nat
  h : Bool
  loMin : Nat
  loMax : Nat
  corr : Byte
  cAfter : Bool
deriving DecidableEq, Repr

/-- Table 6-12, in its order (R196). -/
def daaTable : List DaaRow := [
  ⟨false, 0x0, 0x9, false, 0x0, 0x9, 0x00#8, false⟩,
  ⟨false, 0x0, 0x8, false, 0xA, 0xF, 0x06#8, false⟩,
  ⟨false, 0x0, 0x9, true, 0x0, 0x3, 0x06#8, false⟩,
  ⟨false, 0xA, 0xF, false, 0x0, 0x9, 0x60#8, true⟩,
  ⟨false, 0x9, 0xF, false, 0xA, 0xF, 0x66#8, true⟩,
  ⟨false, 0xA, 0xF, true, 0x0, 0x3, 0x66#8, true⟩,
  ⟨true, 0x0, 0x2, false, 0x0, 0x9, 0x60#8, true⟩,
  ⟨true, 0x0, 0x2, false, 0xA, 0xF, 0x66#8, true⟩,
  ⟨true, 0x0, 0x3, true, 0x0, 0x3, 0x66#8, true⟩]

/-- A row covers these inputs. -/
def DaaRow.covers (row : DaaRow) (c h : Bool) (al : Byte) : Bool :=
  row.c == c && row.h == h
    && decide (row.hiMin ≤ al.toNat / 16) && decide (al.toNat / 16 ≤ row.hiMax)
    && decide (row.loMin ≤ al.toNat % 16) && decide (al.toNat % 16 ≤ row.loMax)

/-- The row of Table 6-12 that C, H and AL select; none outside the table (R196, D4). -/
def daaRow? (c h : Bool) (al : Byte) : Option DaaRow := daaTable.find? fun row => row.covers c h al

/-- The correction value of Table 6-14 (R197). -/
def dasCorrection (c h : Bool) : Byte :=
  match c, h with
  | false, false => 0x00#8
  | false, true => 0x06#8
  | true, false => 0x60#8
  | true, true => 0x66#8

end Sys2Proof.Machine
end

