-- ==== Sys2Proof/Machine/Operands.lean ====
section
/-! DEFINITION. Every operand form and the address it computes (20_memory.md R51 to R58, 10_state.md R31, R61, R62, R225). Every
address is computed modulo 2^16 (D6, log 9). -/

namespace Sys2Proof.Machine

/-- The operands that name a byte or a word of memory. -/
inductive Ea where
  /-- `dir`, through the direct bank pointer (R52) -/
  | dir (d : Byte)
  /-- `@IX+off` (R53) -/
  | ix (off : Byte)
  /-- `ext` (R57) -/
  | ext (e : Word)
  /-- `@EP` (R54) -/
  | ep
  /-- `@A` (R54) -/
  | atA
  /-- `Ri` (R31) -/
  | reg (i : BitVec 3)
deriving DecidableEq, Repr

/-- The source of a byte operation (R156): a value the instruction or a register supplies, or a byte of memory. -/
inductive ByteSrc where
  | value (v : Byte)
  | mem (e : Ea)
deriving DecidableEq, Repr

/-- The source of a word load. -/
inductive WordSrc where
  | value (v : Word)
  | mem (e : Ea)
deriving DecidableEq, Repr

/-- `DirAddr` (R52): 00 to 7F are not banked; 80 to FF lie in the 128-byte bank DP selects, from 0080 on. -/
def dirAddr (p : Status) (d : Byte) : Word :=
  if d.msb then 0x0080#16 + BitVec.ofNat 16 (p.dp.toNat * 0x80) + BitVec.ofNat 16 (d.toNat % 0x80)
  else d.setWidth 16

/-- `RegAddr` (R31): 01 in the upper byte, RP and the register number in the lower (PRESUMED, log 6). -/
def regAddr (p : Status) (i : BitVec 3) : Word := 0x01#8 ++ p.rp ++ i

/-- The address an operand form computes. -/
def State.addrOf (s : State) : Ea → Word
  | .dir d => dirAddr s.ps d
  | .ix off => s.ix + sextByte off
  | .ext e => e
  | .ep => s.ep
  | .atA => s.a
  | .reg i => regAddr s.ps i

/-- `CallvVectorAddr` (R61). -/
def callvVectorAddr (k : BitVec 3) : Word := 0xFFC0#16 + BitVec.ofNat 16 (2 * k.toNat)

/-- `IrqVectorAddr` (R62). -/
def irqVectorAddr (n : Nat) : Word := 0xFFFA#16 - BitVec.ofNat 16 (2 * n)

/-- A word direct operand whose two readings of "dir+1" differ: FF, or 7F with DP ≠ 0 (R58). -/
def State.crossesBank (s : State) : Ea → Bool
  | .dir d => decide (d = 0xFF#8) || (decide (d = 0x7F#8) && decide (s.ps.dp ≠ 0#3))
  | _ => false

/-- `next_pc`: the address after an instruction of `len` bytes (R15). -/
def State.nextPc (s : State) (len : Nat) : Word := s.pc + BitVec.ofNat 16 len

/-- The target of a relative branch of `len` bytes (R225). -/
def State.relTarget (s : State) (len : Nat) (rel : Byte) : Word := s.nextPc len + sextByte rel

end Sys2Proof.Machine
end

