-- ==== Sys2Proof/Machine/Ops.lean ====
section
/-! DEFINITION. The operations every meaning is written over: byte and word accesses in bus order (20_memory.md R41 to R49),
the stack (R55, R56), the prefetch window (R310), interrupt entry and the return from it (R266, R268), reset (R300), and the
shapes the instruction families share. -/

namespace Sys2Proof.Machine

/-- Go on with the value, or stop as the first operation stopped. -/
def Res.andThen {α β : Type} (x : Res α) (f : α → Res β) : Res β :=
  match x with
  | .next a => f a
  | .fault r => .fault r
  | .refused r => .refused r

/-- An I/O access delivered to the environment. -/
def State.logIo (s : State) (acc : IoAccess) : State := { s with ioLog := s.ioLog ++ [acc] }

/-- A byte written to an I/O register, delivered to the environment. Every pending request may be cleared or disabled by it, because
which register belongs to which request is the device's (R60, R273, log 35). -/
def State.writeIo (s : State) (addr : Word) (v : Byte) : State :=
  { s.logIo ⟨addr, .write, false, v⟩ with pending := [] }

/-- The byte an address holds, without reading it: what every claim about "a byte of memory" speaks of. None where
nothing has written, at an I/O register, and at an unimplemented address. -/
def State.peek (s : State) (addr : Word) : Option Byte :=
  match s.siteOf addr with
  | .mirror => some s.ps.upper
  | .mapped .ram => s.mem.read addr.toNat
  | .mapped .rom => s.mem.read addr.toNat
  | .mapped .io => none
  | .mapped .unimplemented => none

/-- `MemRead(addr, 1)` (R41, R21, R60, R40); `rmw` is the RMW signal of the read cycle (R48). A read of an I/O address
draws what the environment returns. -/
def State.readAs (s : State) (rmw : Bool) (addr : Word) : Res (Byte × State) :=
  match s.siteOf addr with
  | .mirror => .next (s.ps.upper, s)
  | .mapped .io =>
    let v := Config.ioInput s.draws addr
    .next (v, { s with ioLog := s.ioLog ++ [⟨addr, .read, rmw, v⟩], draws := s.draws + 1 })
  | .mapped .unimplemented => .refused (.unmapped addr)
  | .mapped .ram | .mapped .rom =>
    match s.mem.read addr.toNat with
    | some v => .next (v, s)
    | none => .fault (.unwrittenRead addr)

/-- `MemRead(addr, 1)` outside a read-modify-write (R41). -/
def State.read8 (s : State) (addr : Word) : Res (Byte × State) := s.readAs false addr

/-- `MemRead(addr, 2)`: the upper byte at `addr` first, then the lower byte (R42, R44). -/
def State.read16 (s : State) (addr : Word) : Res (Word × State) :=
  (s.read8 addr).andThen fun (hi, s1) =>
    (s1.read8 (addr + 1#16)).andThen fun (lo, s2) => .next (joinBytes hi lo, s2)

/-- `MemWrite(addr, 1, v)` (R41, R21, R60). -/
def State.write8 (s : State) (addr : Word) (v : Byte) : Res State :=
  match s.siteOf addr with
  | .mirror => .next { s with ps := s.ps.withUpper v }
  | .mapped .ram => .next { s with mem := s.mem.write addr.toNat v }
  | .mapped .rom => .refused (.writeToRom addr)
  | .mapped .io => .next (s.writeIo addr v)
  | .mapped .unimplemented => .refused (.unmapped addr)

/-- The two bytes that may already be prefetched: `next` and `next + 1` (R310). -/
def inPrefetchWindow (next addr : Word) : Bool := decide (addr = next) || decide (addr = next + 1#16)

/-- A byte stored by an instruction. `window` is `next_pc` for an instruction that continues there; CALL, CALLV and interrupt
entry have none (R310). -/
def State.store8 (s : State) (window : Option Word) (addr : Word) (v : Byte) : Res State :=
  match window with
  | some next => if inPrefetchWindow next addr then .refused .prefetchHazard else s.write8 addr v
  | none => s.write8 addr v

/-- A word stored through an addressing mode: the upper byte at `addr` first (R44). -/
def State.store16 (s : State) (window : Option Word) (addr : Word) (v : Word) : Res State :=
  (s.store8 window addr (hiByte v)).andThen fun s1 => s1.store8 window (addr + 1#16) (loByte v)

/-- `Push16` (R55): the lower byte at SP-1 first, then the upper byte at SP-2. -/
def State.push16 (s : State) (window : Option Word) (v : Word) : Res State :=
  (s.store8 window (s.sp - 1#16) (loByte v)).andThen fun s1 =>
    (s1.store8 window (s.sp - 2#16) (hiByte v)).andThen fun s2 => .next { s2 with sp := s.sp - 2#16 }

/-- `Pop16` (R56): the upper byte from SP first. -/
def State.pop16 (s : State) : Res (Word × State) :=
  (s.read16 s.sp).andThen fun (v, s1) => .next (v, { s1 with sp := s.sp + 2#16 })

/-- Read a byte source (R156). -/
def State.readByteSrc (s : State) : ByteSrc → Res (Byte × State)
  | .value v => .next (v, s)
  | .mem e => s.read8 (s.addrOf e)

/-- Read a word through an addressing mode; a direct operand at the edge of a bank is refused (R58). -/
def State.readWordAt (s : State) (e : Ea) : Res (Word × State) :=
  if s.crossesBank e then .refused .dirWordCrossesBank else s.read16 (s.addrOf e)

/-- Read a word source. -/
def State.readWordSrc (s : State) : WordSrc → Res (Word × State)
  | .value v => .next (v, s)
  | .mem e => s.readWordAt e

/-- The instruction ends at `next_pc` (R100 (b)). -/
def State.advance (s : State) (len : Nat) : State := { s with pc := s.nextPc len }

/-- H left `unspecified_1` (R23 (iii)): a free bit (log 8). -/
def State.freeH (s : State) : State :=
  { s with ps := { s.ps with h := Config.freeBit s.draws }, draws := s.draws + 1 }

/-- I and IL before this instruction, kept for the acceptance test of `irq_mask_latency` = 1 (R264, log 18). -/
def State.recordMask (s : State) : State := { s with maskBefore := some ⟨s.ps.i, s.ps.il⟩ }

/-! ## Shapes the families share -/

/-- A byte store: the address is computed first, the value stored there, and the instruction goes on (R101 to R105). -/
def storeByte (e : Ea) (v : Byte) (len : Nat) (s : State) : Res State :=
  (s.store8 (some (s.nextPc len)) (s.addrOf e) v).andThen fun s1 => .next (s1.advance len)

/-- A word store (R117 to R120, R135). -/
def storeWord (e : Ea) (v : Word) (len : Nat) (s : State) : Res State :=
  if s.crossesBank e then .refused .dirWordCrossesBank
  else (s.store16 (some (s.nextPc len)) (s.addrOf e) v).andThen fun s1 => .next (s1.advance len)

/-- A byte load into A: TL takes the old AL, AL the byte, N and Z its value (R106 to R112). -/
def loadByte (src : ByteSrc) (len : Nat) (s : State) : Res State :=
  (s.readByteSrc src).andThen fun (v, s1) =>
    .next { s1 with a := withLo s1.a v, t := withLo s1.t (loByte s1.a), ps := s1.ps.nz8 v, pc := s1.nextPc len }

/-- A word load into A: T takes the old A, A the word, N and Z its value (R122 to R127). -/
def loadWord (src : WordSrc) (len : Nat) (s : State) : Res State :=
  (s.readWordSrc src).andThen fun (v, s1) =>
    .next { s1 with a := v, t := s1.a, ps := s1.ps.nz16 v, pc := s1.nextPc len }

/-- Read a byte, change it, write the whole byte back to the same address (R48). -/
def modifyByte (e : Ea) (f : Byte → Byte) (len : Nat) (s : State) : Res State :=
  (s.readAs true (s.addrOf e)).andThen fun (v, s1) =>
    (s1.store8 (some (s.nextPc len)) (s.addrOf e) (f v)).andThen fun s2 => .next (s2.advance len)

/-- INC and DEC of a register: also N, Z, V from the adder's outputs, C unchanged, H free (R174, R178). -/
def countByte (i : BitVec 3) (f : Byte → Alu8) (s : State) : Res State :=
  (s.readAs true (s.addrOf (.reg i))).andThen fun (v, s1) =>
    (s1.store8 (some (s.nextPc 1)) (s.addrOf (.reg i)) (f v).r).andThen fun s2 =>
      .next ({ s2 with ps := s2.ps.setNZVC (f v).n (f v).z (f v).v s2.ps.c }.freeH.advance 1)

/-- A byte addition or subtraction into AL (R160 to R164, R166 to R171, R173). -/
def arithByte (f : Byte → Byte → Bool → Alu8) (src : ByteSrc) (len : Nat) (s : State) : Res State :=
  (s.readByteSrc src).andThen fun (v, s1) =>
    let o := f (loByte s1.a) v s1.ps.c
    .next { s1 with a := withLo s1.a o.r, ps := s1.ps.setHNZVC o, pc := s1.nextPc len }

/-- A compare: the flags of `x - y`, H free, nothing else (R187, R191 to R195, R216 to R219). -/
def compareBytes (x y : Byte) (len : Nat) (s : State) : State :=
  let o := sub8 x y false
  { s with ps := s.ps.setNZVC o.n o.z o.v o.c }.freeH.advance len

/-- CMP A,src: AL is the minuend (R191 to R195). -/
def compareAL (src : ByteSrc) (len : Nat) (s : State) : Res State :=
  (s.readByteSrc src).andThen fun (v, s1) => .next (compareBytes (loByte s1.a) v len s1)

/-- CMP x,#d8: the memory byte is the minuend (R216 to R219). -/
def compareMem (e : Ea) (d8 : Byte) (len : Nat) (s : State) : Res State :=
  (s.read8 (s.addrOf e)).andThen fun (v, s1) => .next (compareBytes v d8 len s1)

/-- A bitwise operation into AL (R155). -/
def logicByte (f : Byte → Byte → Byte) (src : ByteSrc) (len : Nat) (s : State) : Res State :=
  (s.readByteSrc src).andThen fun (v, s1) =>
    let r := f (loByte s1.a) v
    .next { s1 with a := withLo s1.a r, ps := s1.ps.logic8 r, pc := s1.nextPc len }

/-- A bitwise operation of A and T into A (R155). -/
def logicWord (f : Word → Word → Word) (s : State) : Res State :=
  let r := f s.a s.t
  .next { s with a := r, ps := s.ps.logic16 r, pc := s.nextPc 1 }

/-- A word addition or subtraction into A: N, Z, V, C written, H free (R165, R172). -/
def arithWord (o : Alu16) (s : State) : Res State :=
  .next ({ s with a := o.r, ps := s.ps.setNZVC o.n o.z o.v o.c }.freeH.advance 1)

/-- INCW A and DECW A: N and Z of the result, V and C unchanged, H free (R177, R181). -/
def countA (r : Word) (s : State) : Res State :=
  .next ({ s with a := r, ps := s.ps.nz16 r }.freeH.advance 1)

/-- A conditional branch of two bytes (R225, R226 to R233). -/
def branchIf (taken : Bool) (rel : Byte) (s : State) : Res State :=
  .next { s with pc := if taken then s.relTarget 2 rel else s.nextPc 2 }

/-- BBC and BBS: Z is the complement of the bit; the branch is taken when the bit is `want` (R234, R235). -/
def branchOnBit (want : Bool) (dir : Byte) (b : BitVec 3) (rel : Byte) (s : State) : Res State :=
  (s.read8 (s.addrOf (.dir dir))).andThen fun (v, s1) =>
    let bit := v.getLsbD b.toNat
    .next { s1 with ps := { s1.ps with z := !bit }
                    pc := if bit == want then s1.relTarget 3 rel else s1.nextPc 3 }

/-! ## Interrupt entry, return, reset -/

/-- The interrupt entry step for an accepted request `(n, level)` (R266): the vector is read first, the return address and
then the old PS are pushed, IL becomes the level, PC the vector's word. I is not changed (D17, log 24). -/
def interruptEntry (n : Nat) (level : BitVec 2) (s : State) : Res State :=
  (s.read16 (irqVectorAddr n)).andThen fun (target, s1) =>
    (s1.push16 none s.pc).andThen fun s2 =>
      (s2.push16 none s.ps.toWord).andThen fun s3 =>
        .next { s3 with ps := { s3.ps with il := level }, pc := target }

/-- The return from an interrupt (R242, R268): PS from the word at SP, PC from the word at SP + 2, both read with the
PS of before the instruction (log 25), and SP + 4. -/
def returnFromInterrupt (s : State) : Res State :=
  (s.read16 s.sp).andThen fun (w, s1) =>
    (s1.read16 (s.sp + 2#16)).andThen fun (target, s2) =>
      .next { s2 with ps := Status.ofWord w, pc := target, sp := s.sp + 4#16 }

/-- The reset step (R300): the mode byte at FFFD is read and ignored (D13), then the reset vector; memory is kept, and no request
stays pending (R273). -/
def resetStep (s : State) : Res State :=
  (s.read8 0xFFFD#16).andThen fun (_, s1) =>
    (s1.read16 0xFFFE#16).andThen fun (start, s2) =>
      .next { s2 with pc := start, a := 0#16, t := 0#16, ix := 0#16, ep := 0#16, sp := 0#16, ps := Status.afterReset,
                      pending := [], maskBefore := none }

end Sys2Proof.Machine
end

