-- ==== Sys2Proof/Machine/Arithmetic.lean ====
section
/-! DEFINITION. Addition, subtraction, counting, multiplication, division, compares, rotates and decimal adjustment: the operation
instructions of Table A-10 but the bitwise ones (41_operation.md R160 to R183, R187 to R197, R216 to R221). -/

namespace Sys2Proof.Machine

/-- DIVU A but for H and PC (R183): T divided by A, quotient to A, remainder to T, Z 0; with A = 0 both are free words
and Z is 1 (D5, log 23). -/
def State.divide (s : State) : State :=
  if s.a = 0#16 then
    { s with a := Config.freeWord s.draws, t := Config.freeWord (s.draws + 1), draws := s.draws + 2,
             ps := { s.ps with z := true } }
  else
    { s with a := BitVec.ofNat 16 (s.t.toNat / s.a.toNat), t := BitVec.ofNat 16 (s.t.toNat % s.a.toNat),
             ps := { s.ps with z := false } }

/-- DAA but for PC (R196): the correction and C of the row of Table 6-12 that C, H and AL select; outside the table AL and
N, Z, V, C are free (D4, log 22). H is unchanged. -/
def State.decimalAdjustAdd (s : State) : State :=
  match daaRow? s.ps.c s.ps.h (loByte s.a) with
  | some row =>
    let o := add8 (loByte s.a) row.corr false
    { s with a := withLo s.a o.r, ps := s.ps.setNZVC o.n o.z o.v row.cAfter }
  | none =>
    { s with a := withLo s.a (Config.freeByte s.draws), draws := s.draws + 5,
             ps := s.ps.setNZVC (Config.freeBit (s.draws + 1)) (Config.freeBit (s.draws + 2))
               (Config.freeBit (s.draws + 3)) (Config.freeBit (s.draws + 4)) }

/-- DAS but for PC (R197): AL less the correction of Table 6-14; C and H unchanged. -/
def State.decimalAdjustSub (s : State) : State :=
  let o := sub8 (loByte s.a) (dasCorrection s.ps.c s.ps.h) false
  { s with a := withLo s.a o.r, ps := s.ps.setNZVC o.n o.z o.v s.ps.c }

/-- ADDC A,Ri (R160). -/
def execAddcARi (r : BitVec 3) (s : State) : Res State :=
  arithByte add8 (.mem (.reg r)) 1 s

/-- ADDC A,#d8 (R161). -/
def execAddcAImm (d8 : Byte) (s : State) : Res State :=
  arithByte add8 (.value d8) 2 s

/-- ADDC A,dir (R162). -/
def execAddcADir (dir : Byte) (s : State) : Res State :=
  arithByte add8 (.mem (.dir dir)) 2 s

/-- ADDC A,@IX+off (R163). -/
def execAddcAAtIx (off : Byte) (s : State) : Res State :=
  arithByte add8 (.mem (.ix off)) 2 s

/-- ADDC A,@EP (R164). -/
def execAddcAAtEp (s : State) : Res State :=
  arithByte add8 (.mem .ep) 1 s

/-- ADDCW A (R165). -/
def execAddcwA (s : State) : Res State :=
  arithWord (add16 s.a s.t s.ps.c) s

/-- ADDC A (R166). -/
def execAddcA (s : State) : Res State :=
  arithByte add8 (.value (loByte s.t)) 1 s

/-- SUBC A,Ri (R167). -/
def execSubcARi (r : BitVec 3) (s : State) : Res State :=
  arithByte sub8 (.mem (.reg r)) 1 s

/-- SUBC A,#d8 (R168). -/
def execSubcAImm (d8 : Byte) (s : State) : Res State :=
  arithByte sub8 (.value d8) 2 s

/-- SUBC A,dir (R169). -/
def execSubcADir (dir : Byte) (s : State) : Res State :=
  arithByte sub8 (.mem (.dir dir)) 2 s

/-- SUBC A,@IX+off (R170). -/
def execSubcAAtIx (off : Byte) (s : State) : Res State :=
  arithByte sub8 (.mem (.ix off)) 2 s

/-- SUBC A,@EP (R171). -/
def execSubcAAtEp (s : State) : Res State :=
  arithByte sub8 (.mem .ep) 1 s

/-- SUBCW A (R172). -/
def execSubcwA (s : State) : Res State :=
  arithWord (sub16 s.t s.a s.ps.c) s

/-- SUBC A (R173). -/
def execSubcA (s : State) : Res State :=
  arithByte (fun al tl c => sub8 tl al c) (.value (loByte s.t)) 1 s

/-- INC Ri (R174). -/
def execIncRi (r : BitVec 3) (s : State) : Res State :=
  countByte r (fun v => add8 v 1#8 false) s

/-- INCW EP (R175). -/
def execIncwEp (s : State) : Res State :=
  .next { s with ep := s.ep + 1#16, pc := s.nextPc 1 }

/-- INCW IX (R176). -/
def execIncwIx (s : State) : Res State :=
  .next { s with ix := s.ix + 1#16, pc := s.nextPc 1 }

/-- INCW A (R177). -/
def execIncwA (s : State) : Res State :=
  countA (s.a + 1#16) s

/-- DEC Ri (R178). -/
def execDecRi (r : BitVec 3) (s : State) : Res State :=
  countByte r (fun v => sub8 v 1#8 false) s

/-- DECW EP (R179). -/
def execDecwEp (s : State) : Res State :=
  .next { s with ep := s.ep - 1#16, pc := s.nextPc 1 }

/-- DECW IX (R180). -/
def execDecwIx (s : State) : Res State :=
  .next { s with ix := s.ix - 1#16, pc := s.nextPc 1 }

/-- DECW A (R181). -/
def execDecwA (s : State) : Res State :=
  countA (s.a - 1#16) s

/-- MULU A (R182). -/
def execMulu (s : State) : Res State :=
  .next ({ s with a := BitVec.ofNat 16 ((loByte s.a).toNat * (loByte s.t).toNat) }.freeH.advance 1)

/-- DIVU A (R183). -/
def execDivu (s : State) : Res State :=
  .next (s.divide.freeH.advance 1)

/-- CMP A (R187). -/
def execCmpA (s : State) : Res State :=
  .next (compareBytes (loByte s.t) (loByte s.a) 1 s)

/-- CMPW A (R188). -/
def execCmpwA (s : State) : Res State :=
  let o := sub16 s.t s.a false
  .next ({ s with ps := s.ps.setNZVC o.n o.z o.v o.c }.freeH.advance 1)

/-- RORC A (R189). -/
def execRorc (s : State) : Res State :=
  let r := BitVec.ofBool s.ps.c ++ (loByte s.a).extractLsb' 1 7
  .next { s with a := withLo s.a r, ps := { s.ps.nz8 r with c := (loByte s.a).getLsbD 0 }, pc := s.nextPc 1 }

/-- ROLC A (R190). -/
def execRolc (s : State) : Res State :=
  let r := (loByte s.a).extractLsb' 0 7 ++ BitVec.ofBool s.ps.c
  .next { s with a := withLo s.a r, ps := { s.ps.nz8 r with c := (loByte s.a).getLsbD 7 }, pc := s.nextPc 1 }

/-- CMP A,#d8 (R191). -/
def execCmpAImm (d8 : Byte) (s : State) : Res State :=
  compareAL (.value d8) 2 s

/-- CMP A,dir (R192). -/
def execCmpADir (dir : Byte) (s : State) : Res State :=
  compareAL (.mem (.dir dir)) 2 s

/-- CMP A,@EP (R193). -/
def execCmpAAtEp (s : State) : Res State :=
  compareAL (.mem .ep) 1 s

/-- CMP A,@IX+off (R194). -/
def execCmpAAtIx (off : Byte) (s : State) : Res State :=
  compareAL (.mem (.ix off)) 2 s

/-- CMP A,Ri (R195). -/
def execCmpARi (r : BitVec 3) (s : State) : Res State :=
  compareAL (.mem (.reg r)) 1 s

/-- DAA (R196). -/
def execDaa (s : State) : Res State :=
  .next (s.decimalAdjustAdd.advance 1)

/-- DAS (R197). -/
def execDas (s : State) : Res State :=
  .next (s.decimalAdjustSub.advance 1)

/-- CMP dir,#d8 (R216). -/
def execCmpDirImm (dir : Byte) (d8 : Byte) (s : State) : Res State :=
  compareMem (.dir dir) d8 3 s

/-- CMP @EP,#d8 (R217). -/
def execCmpAtEpImm (d8 : Byte) (s : State) : Res State :=
  compareMem .ep d8 2 s

/-- CMP @IX+off,#d8 (R218). -/
def execCmpAtIxImm (off : Byte) (d8 : Byte) (s : State) : Res State :=
  compareMem (.ix off) d8 3 s

/-- CMP Ri,#d8 (R219). -/
def execCmpRiImm (r : BitVec 3) (d8 : Byte) (s : State) : Res State :=
  compareMem (.reg r) d8 2 s

/-- INCW SP (R220). -/
def execIncwSp (s : State) : Res State :=
  .next { s with sp := s.sp + 1#16, pc := s.nextPc 1 }

/-- DECW SP (R221). -/
def execDecwSp (s : State) : Res State :=
  .next { s with sp := s.sp - 1#16, pc := s.nextPc 1 }

end Sys2Proof.Machine
end

