-- ==== Sys2Proof/Machine/Branch.lean ====
section
/-! DEFINITION. The branch instructions, Table A-11 (42_branch.md R226 to R242). -/

namespace Sys2Proof.Machine

/-- BZ rel (R226). -/
def execBz (rel : Byte) (s : State) : Res State :=
  branchIf s.ps.z rel s

/-- BNZ rel (R227). -/
def execBnz (rel : Byte) (s : State) : Res State :=
  branchIf (!s.ps.z) rel s

/-- BC rel (R228). -/
def execBc (rel : Byte) (s : State) : Res State :=
  branchIf s.ps.c rel s

/-- BNC rel (R229). -/
def execBnc (rel : Byte) (s : State) : Res State :=
  branchIf (!s.ps.c) rel s

/-- BN rel (R230). -/
def execBn (rel : Byte) (s : State) : Res State :=
  branchIf s.ps.n rel s

/-- BP rel (R231). -/
def execBp (rel : Byte) (s : State) : Res State :=
  branchIf (!s.ps.n) rel s

/-- BLT rel (R232). -/
def execBlt (rel : Byte) (s : State) : Res State :=
  branchIf (s.ps.v ^^ s.ps.n) rel s

/-- BGE rel (R233). -/
def execBge (rel : Byte) (s : State) : Res State :=
  branchIf (!(s.ps.v ^^ s.ps.n)) rel s

/-- BBC dir:b,rel (R234). -/
def execBbc (dir : Byte) (b : BitVec 3) (rel : Byte) (s : State) : Res State :=
  branchOnBit false dir b rel s

/-- BBS dir:b,rel (R235). -/
def execBbs (dir : Byte) (b : BitVec 3) (rel : Byte) (s : State) : Res State :=
  branchOnBit true dir b rel s

/-- JMP @A (R236). -/
def execJmpAtA (s : State) : Res State :=
  .next { s with pc := s.a }

/-- JMP ext (R237). -/
def execJmpExt (ext : Word) (s : State) : Res State :=
  .next { s with pc := ext }

/-- CALLV #vct (R238). -/
def execCallv (k : BitVec 3) (s : State) : Res State :=
  (s.read16 (callvVectorAddr k)).andThen fun (target, s1) =>
    (s1.push16 none (s.nextPc 1)).andThen fun s2 => .next { s2 with pc := target }

/-- CALL ext (R239). -/
def execCall (ext : Word) (s : State) : Res State :=
  (s.push16 none (s.nextPc 3)).andThen fun s1 => .next { s1 with pc := ext }

/-- XCHW A,PC (R240). -/
def execXchwAPc (s : State) : Res State :=
  .next { s with pc := s.a, a := s.nextPc 1 }

/-- RET (R241). -/
def execRet (s : State) : Res State :=
  s.pop16.andThen fun (target, s1) => .next { s1 with pc := target }

/-- RETI (R242). -/
def execReti (s : State) : Res State :=
  (returnFromInterrupt s).andThen fun s1 => .next { s1 with maskBefore := some ⟨s.ps.i, s.ps.il⟩ }

end Sys2Proof.Machine
end

