-- ==== Sys2Proof/Machine/Logic.lean ====
section
/-! DEFINITION. The bitwise instructions of Table A-10 (41_operation.md R155, R184 to R186, R198 to R215). -/

namespace Sys2Proof.Machine

/-- ANDW A (R184). -/
def execAndwA (s : State) : Res State :=
  logicWord (fun x y => x &&& y) s

/-- ORW A (R185). -/
def execOrwA (s : State) : Res State :=
  logicWord (fun x y => x ||| y) s

/-- XORW A (R186). -/
def execXorwA (s : State) : Res State :=
  logicWord (fun x y => x ^^^ y) s

/-- XOR A (R198). -/
def execXorA (s : State) : Res State :=
  logicByte (fun x y => x ^^^ y) (.value (loByte s.t)) 1 s

/-- XOR A,#d8 (R199). -/
def execXorAImm (d8 : Byte) (s : State) : Res State :=
  logicByte (fun x y => x ^^^ y) (.value d8) 2 s

/-- XOR A,dir (R200). -/
def execXorADir (dir : Byte) (s : State) : Res State :=
  logicByte (fun x y => x ^^^ y) (.mem (.dir dir)) 2 s

/-- XOR A,@EP (R201). -/
def execXorAAtEp (s : State) : Res State :=
  logicByte (fun x y => x ^^^ y) (.mem .ep) 1 s

/-- XOR A,@IX+off (R202). -/
def execXorAAtIx (off : Byte) (s : State) : Res State :=
  logicByte (fun x y => x ^^^ y) (.mem (.ix off)) 2 s

/-- XOR A,Ri (R203). -/
def execXorARi (r : BitVec 3) (s : State) : Res State :=
  logicByte (fun x y => x ^^^ y) (.mem (.reg r)) 1 s

/-- AND A (R204). -/
def execAndA (s : State) : Res State :=
  logicByte (fun x y => x &&& y) (.value (loByte s.t)) 1 s

/-- AND A,#d8 (R205). -/
def execAndAImm (d8 : Byte) (s : State) : Res State :=
  logicByte (fun x y => x &&& y) (.value d8) 2 s

/-- AND A,dir (R206). -/
def execAndADir (dir : Byte) (s : State) : Res State :=
  logicByte (fun x y => x &&& y) (.mem (.dir dir)) 2 s

/-- AND A,@EP (R207). -/
def execAndAAtEp (s : State) : Res State :=
  logicByte (fun x y => x &&& y) (.mem .ep) 1 s

/-- AND A,@IX+off (R208). -/
def execAndAAtIx (off : Byte) (s : State) : Res State :=
  logicByte (fun x y => x &&& y) (.mem (.ix off)) 2 s

/-- AND A,Ri (R209). -/
def execAndARi (r : BitVec 3) (s : State) : Res State :=
  logicByte (fun x y => x &&& y) (.mem (.reg r)) 1 s

/-- OR A (R210). -/
def execOrA (s : State) : Res State :=
  logicByte (fun x y => x ||| y) (.value (loByte s.t)) 1 s

/-- OR A,#d8 (R211). -/
def execOrAImm (d8 : Byte) (s : State) : Res State :=
  logicByte (fun x y => x ||| y) (.value d8) 2 s

/-- OR A,dir (R212). -/
def execOrADir (dir : Byte) (s : State) : Res State :=
  logicByte (fun x y => x ||| y) (.mem (.dir dir)) 2 s

/-- OR A,@EP (R213). -/
def execOrAAtEp (s : State) : Res State :=
  logicByte (fun x y => x ||| y) (.mem .ep) 1 s

/-- OR A,@IX+off (R214). -/
def execOrAAtIx (off : Byte) (s : State) : Res State :=
  logicByte (fun x y => x ||| y) (.mem (.ix off)) 2 s

/-- OR A,Ri (R215). -/
def execOrARi (r : BitVec 3) (s : State) : Res State :=
  logicByte (fun x y => x ||| y) (.mem (.reg r)) 1 s

end Sys2Proof.Machine
end

