-- ==== Sys2Proof/Machine/Other.lean ====
section
/-! DEFINITION. Stack pushes and pops, NOP and the flag instructions, Table A-12 (43_other.md R245 to R253), and the reserved byte 44 (R90). -/

namespace Sys2Proof.Machine

/-- PUSHW A (R245). -/
def execPushwA (s : State) : Res State :=
  (s.push16 (some (s.nextPc 1)) s.a).andThen fun s1 => .next (s1.advance 1)

/-- POPW A (R246). -/
def execPopwA (s : State) : Res State :=
  s.pop16.andThen fun (v, s1) => .next { s1 with a := v, pc := s1.nextPc 1 }

/-- PUSHW IX (R247). -/
def execPushwIx (s : State) : Res State :=
  (s.push16 (some (s.nextPc 1)) s.ix).andThen fun s1 => .next (s1.advance 1)

/-- POPW IX (R248). -/
def execPopwIx (s : State) : Res State :=
  s.pop16.andThen fun (v, s1) => .next { s1 with ix := v, pc := s1.nextPc 1 }

/-- NOP (R249). -/
def execNop (s : State) : Res State :=
  .next (s.advance 1)

/-- CLRC (R250). -/
def execClrc (s : State) : Res State :=
  .next { s with ps := { s.ps with c := false }, pc := s.nextPc 1 }

/-- SETC (R251). -/
def execSetc (s : State) : Res State :=
  .next { s with ps := { s.ps with c := true }, pc := s.nextPc 1 }

/-- CLRI (R252). -/
def execClri (s : State) : Res State :=
  .next { s.recordMask with ps := { s.ps with i := false }, pc := s.nextPc 1 }

/-- SETI (R253). -/
def execSeti (s : State) : Res State :=
  .next { s.recordMask with ps := { s.ps with i := true }, pc := s.nextPc 1 }

/-- The byte 44 as an op code has no meaning, no length and no effect: the step is refused (R90). -/
def execUnassigned (_s : State) : Res State :=
  .refused .unassignedOpcode44

end Sys2Proof.Machine
end

