-- ==== Sys2Proof/Machine/Transfer.lean ====
section
/-! DEFINITION. The transfer instructions, Table A-9 (40_transfer.md R101 to R148), in the table's order. -/

namespace Sys2Proof.Machine

/-- MOV dir,A (R101). -/
def execMovDirA (dir : Byte) (s : State) : Res State :=
  storeByte (.dir dir) (loByte s.a) 2 s

/-- MOV @IX+off,A (R102). -/
def execMovAtIxA (off : Byte) (s : State) : Res State :=
  storeByte (.ix off) (loByte s.a) 2 s

/-- MOV ext,A (R103). -/
def execMovExtA (ext : Word) (s : State) : Res State :=
  storeByte (.ext ext) (loByte s.a) 3 s

/-- MOV @EP,A (R104). -/
def execMovAtEpA (s : State) : Res State :=
  storeByte .ep (loByte s.a) 1 s

/-- MOV Ri,A (R105). -/
def execMovRiA (r : BitVec 3) (s : State) : Res State :=
  storeByte (.reg r) (loByte s.a) 1 s

/-- MOV A,#d8 (R106). -/
def execMovAImm (d8 : Byte) (s : State) : Res State :=
  loadByte (.value d8) 2 s

/-- MOV A,dir (R107). -/
def execMovADir (dir : Byte) (s : State) : Res State :=
  loadByte (.mem (.dir dir)) 2 s

/-- MOV A,@IX+off (R108). -/
def execMovAAtIx (off : Byte) (s : State) : Res State :=
  loadByte (.mem (.ix off)) 2 s

/-- MOV A,ext (R109). -/
def execMovAExt (ext : Word) (s : State) : Res State :=
  loadByte (.mem (.ext ext)) 3 s

/-- MOV A,@A (R110). -/
def execMovAAtA (s : State) : Res State :=
  loadByte (.mem .atA) 1 s

/-- MOV A,@EP (R111). -/
def execMovAAtEp (s : State) : Res State :=
  loadByte (.mem .ep) 1 s

/-- MOV A,Ri (R112). -/
def execMovARi (r : BitVec 3) (s : State) : Res State :=
  loadByte (.mem (.reg r)) 1 s

/-- MOV dir,#d8 (R113). -/
def execMovDirImm (dir : Byte) (d8 : Byte) (s : State) : Res State :=
  storeByte (.dir dir) d8 3 s

/-- MOV @IX+off,#d8 (R114). -/
def execMovAtIxImm (off : Byte) (d8 : Byte) (s : State) : Res State :=
  storeByte (.ix off) d8 3 s

/-- MOV @EP,#d8 (R115). -/
def execMovAtEpImm (d8 : Byte) (s : State) : Res State :=
  storeByte .ep d8 2 s

/-- MOV Ri,#d8 (R116). -/
def execMovRiImm (r : BitVec 3) (d8 : Byte) (s : State) : Res State :=
  storeByte (.reg r) d8 2 s

/-- MOVW dir,A (R117). -/
def execMovwDirA (dir : Byte) (s : State) : Res State :=
  storeWord (.dir dir) s.a 2 s

/-- MOVW @IX+off,A (R118). -/
def execMovwAtIxA (off : Byte) (s : State) : Res State :=
  storeWord (.ix off) s.a 2 s

/-- MOVW ext,A (R119). -/
def execMovwExtA (ext : Word) (s : State) : Res State :=
  storeWord (.ext ext) s.a 3 s

/-- MOVW @EP,A (R120). -/
def execMovwAtEpA (s : State) : Res State :=
  storeWord .ep s.a 1 s

/-- MOVW EP,A (R121). -/
def execMovwEpA (s : State) : Res State :=
  .next { s with ep := s.a, pc := s.nextPc 1 }

/-- MOVW A,#d16 (R122). -/
def execMovwAImm (d16 : Word) (s : State) : Res State :=
  loadWord (.value d16) 3 s

/-- MOVW A,dir (R123). -/
def execMovwADir (dir : Byte) (s : State) : Res State :=
  loadWord (.mem (.dir dir)) 2 s

/-- MOVW A,@IX+off (R124). -/
def execMovwAAtIx (off : Byte) (s : State) : Res State :=
  loadWord (.mem (.ix off)) 2 s

/-- MOVW A,ext (R125). -/
def execMovwAExt (ext : Word) (s : State) : Res State :=
  loadWord (.mem (.ext ext)) 3 s

/-- MOVW A,@A (R126). -/
def execMovwAAtA (s : State) : Res State :=
  loadWord (.mem .atA) 1 s

/-- MOVW A,@EP (R127). -/
def execMovwAAtEp (s : State) : Res State :=
  loadWord (.mem .ep) 1 s

/-- MOVW A,EP (R128). -/
def execMovwAEp (s : State) : Res State :=
  .next { s with a := s.ep, pc := s.nextPc 1 }

/-- MOVW EP,#d16 (R129). -/
def execMovwEpImm (d16 : Word) (s : State) : Res State :=
  .next { s with ep := d16, pc := s.nextPc 3 }

/-- MOVW IX,A (R130). -/
def execMovwIxA (s : State) : Res State :=
  .next { s with ix := s.a, pc := s.nextPc 1 }

/-- MOVW A,IX (R131). -/
def execMovwAIx (s : State) : Res State :=
  .next { s with a := s.ix, pc := s.nextPc 1 }

/-- MOVW SP,A (R132). -/
def execMovwSpA (s : State) : Res State :=
  .next { s with sp := s.a, pc := s.nextPc 1 }

/-- MOVW A,SP (R133). -/
def execMovwASp (s : State) : Res State :=
  .next { s with a := s.sp, pc := s.nextPc 1 }

/-- MOV @A,T (R134). -/
def execMovAtAT (s : State) : Res State :=
  storeByte .atA (loByte s.t) 1 s

/-- MOVW @A,T (R135). -/
def execMovwAtAT (s : State) : Res State :=
  storeWord .atA s.t 1 s

/-- MOVW IX,#d16 (R136). -/
def execMovwIxImm (d16 : Word) (s : State) : Res State :=
  .next { s with ix := d16, pc := s.nextPc 3 }

/-- MOVW A,PS (R137). -/
def execMovwAPs (s : State) : Res State :=
  .next { s with a := s.ps.toWord, pc := s.nextPc 1 }

/-- MOVW PS,A (R138). -/
def execMovwPsA (s : State) : Res State :=
  .next { s.recordMask with ps := Status.ofWord s.a, pc := s.nextPc 1 }

/-- MOVW SP,#d16 (R139). -/
def execMovwSpImm (d16 : Word) (s : State) : Res State :=
  .next { s with sp := d16, pc := s.nextPc 3 }

/-- SWAP (R140). -/
def execSwap (s : State) : Res State :=
  .next { s with a := joinBytes (loByte s.a) (hiByte s.a), pc := s.nextPc 1 }

/-- SETB dir:b (R141). -/
def execSetb (dir : Byte) (b : BitVec 3) (s : State) : Res State :=
  modifyByte (.dir dir) (fun v => v ||| (1#8 <<< b.toNat)) 2 s

/-- CLRB dir:b (R142). -/
def execClrb (dir : Byte) (b : BitVec 3) (s : State) : Res State :=
  modifyByte (.dir dir) (fun v => v &&& ~~~(1#8 <<< b.toNat)) 2 s

/-- XCH A,T (R143). -/
def execXchAT (s : State) : Res State :=
  .next { s with a := withLo s.a (loByte s.t), t := withLo s.t (loByte s.a), pc := s.nextPc 1 }

/-- XCHW A,T (R144). -/
def execXchwAT (s : State) : Res State :=
  .next { s with a := s.t, t := s.a, pc := s.nextPc 1 }

/-- XCHW A,EP (R145). -/
def execXchwAEp (s : State) : Res State :=
  .next { s with a := s.ep, ep := s.a, pc := s.nextPc 1 }

/-- XCHW A,IX (R146). -/
def execXchwAIx (s : State) : Res State :=
  .next { s with a := s.ix, ix := s.a, pc := s.nextPc 1 }

/-- XCHW A,SP (R147). -/
def execXchwASp (s : State) : Res State :=
  .next { s with a := s.sp, sp := s.a, pc := s.nextPc 1 }

/-- MOVW A,PC (R148). -/
def execMovwAPc (s : State) : Res State :=
  .next { s with a := s.nextPc 1, pc := s.nextPc 1 }

end Sys2Proof.Machine
end

