-- ==== Sys2Proof/Machine/Dispatch.lean ====
section
/-! DEFINITION. One arm per instruction, in the op code table's order. -/

namespace Sys2Proof.Machine

def exec (i : Instr) (s : State) : Host.Outcome State Fault Refusal :=
  match i with
  | .movDirA dir => Sys2Proof.Machine.execMovDirA dir s
  | .movAtIxA off => Sys2Proof.Machine.execMovAtIxA off s
  | .movExtA ext => Sys2Proof.Machine.execMovExtA ext s
  | .movAtEpA => Sys2Proof.Machine.execMovAtEpA s
  | .movRiA r => Sys2Proof.Machine.execMovRiA r s
  | .movAImm d8 => Sys2Proof.Machine.execMovAImm d8 s
  | .movADir dir => Sys2Proof.Machine.execMovADir dir s
  | .movAAtIx off => Sys2Proof.Machine.execMovAAtIx off s
  | .movAExt ext => Sys2Proof.Machine.execMovAExt ext s
  | .movAAtA => Sys2Proof.Machine.execMovAAtA s
  | .movAAtEp => Sys2Proof.Machine.execMovAAtEp s
  | .movARi r => Sys2Proof.Machine.execMovARi r s
  | .movDirImm dir d8 => Sys2Proof.Machine.execMovDirImm dir d8 s
  | .movAtIxImm off d8 => Sys2Proof.Machine.execMovAtIxImm off d8 s
  | .movAtEpImm d8 => Sys2Proof.Machine.execMovAtEpImm d8 s
  | .movRiImm r d8 => Sys2Proof.Machine.execMovRiImm r d8 s
  | .movwDirA dir => Sys2Proof.Machine.execMovwDirA dir s
  | .movwAtIxA off => Sys2Proof.Machine.execMovwAtIxA off s
  | .movwExtA ext => Sys2Proof.Machine.execMovwExtA ext s
  | .movwAtEpA => Sys2Proof.Machine.execMovwAtEpA s
  | .movwEpA => Sys2Proof.Machine.execMovwEpA s
  | .movwAImm d16 => Sys2Proof.Machine.execMovwAImm d16 s
  | .movwADir dir => Sys2Proof.Machine.execMovwADir dir s
  | .movwAAtIx off => Sys2Proof.Machine.execMovwAAtIx off s
  | .movwAExt ext => Sys2Proof.Machine.execMovwAExt ext s
  | .movwAAtA => Sys2Proof.Machine.execMovwAAtA s
  | .movwAAtEp => Sys2Proof.Machine.execMovwAAtEp s
  | .movwAEp => Sys2Proof.Machine.execMovwAEp s
  | .movwEpImm d16 => Sys2Proof.Machine.execMovwEpImm d16 s
  | .movwIxA => Sys2Proof.Machine.execMovwIxA s
  | .movwAIx => Sys2Proof.Machine.execMovwAIx s
  | .movwSpA => Sys2Proof.Machine.execMovwSpA s
  | .movwASp => Sys2Proof.Machine.execMovwASp s
  | .movAtAT => Sys2Proof.Machine.execMovAtAT s
  | .movwAtAT => Sys2Proof.Machine.execMovwAtAT s
  | .movwIxImm d16 => Sys2Proof.Machine.execMovwIxImm d16 s
  | .movwAPs => Sys2Proof.Machine.execMovwAPs s
  | .movwPsA => Sys2Proof.Machine.execMovwPsA s
  | .movwSpImm d16 => Sys2Proof.Machine.execMovwSpImm d16 s
  | .swap => Sys2Proof.Machine.execSwap s
  | .setb dir b => Sys2Proof.Machine.execSetb dir b s
  | .clrb dir b => Sys2Proof.Machine.execClrb dir b s
  | .xchAT => Sys2Proof.Machine.execXchAT s
  | .xchwAT => Sys2Proof.Machine.execXchwAT s
  | .xchwAEp => Sys2Proof.Machine.execXchwAEp s
  | .xchwAIx => Sys2Proof.Machine.execXchwAIx s
  | .xchwASp => Sys2Proof.Machine.execXchwASp s
  | .movwAPc => Sys2Proof.Machine.execMovwAPc s
  | .addcARi r => Sys2Proof.Machine.execAddcARi r s
  | .addcAImm d8 => Sys2Proof.Machine.execAddcAImm d8 s
  | .addcADir dir => Sys2Proof.Machine.execAddcADir dir s
  | .addcAAtIx off => Sys2Proof.Machine.execAddcAAtIx off s
  | .addcAAtEp => Sys2Proof.Machine.execAddcAAtEp s
  | .addcwA => Sys2Proof.Machine.execAddcwA s
  | .addcA => Sys2Proof.Machine.execAddcA s
  | .subcARi r => Sys2Proof.Machine.execSubcARi r s
  | .subcAImm d8 => Sys2Proof.Machine.execSubcAImm d8 s
  | .subcADir dir => Sys2Proof.Machine.execSubcADir dir s
  | .subcAAtIx off => Sys2Proof.Machine.execSubcAAtIx off s
  | .subcAAtEp => Sys2Proof.Machine.execSubcAAtEp s
  | .subcwA => Sys2Proof.Machine.execSubcwA s
  | .subcA => Sys2Proof.Machine.execSubcA s
  | .incRi r => Sys2Proof.Machine.execIncRi r s
  | .incwEp => Sys2Proof.Machine.execIncwEp s
  | .incwIx => Sys2Proof.Machine.execIncwIx s
  | .incwA => Sys2Proof.Machine.execIncwA s
  | .decRi r => Sys2Proof.Machine.execDecRi r s
  | .decwEp => Sys2Proof.Machine.execDecwEp s
  | .decwIx => Sys2Proof.Machine.execDecwIx s
  | .decwA => Sys2Proof.Machine.execDecwA s
  | .mulu => Sys2Proof.Machine.execMulu s
  | .divu => Sys2Proof.Machine.execDivu s
  | .andwA => Sys2Proof.Machine.execAndwA s
  | .orwA => Sys2Proof.Machine.execOrwA s
  | .xorwA => Sys2Proof.Machine.execXorwA s
  | .cmpA => Sys2Proof.Machine.execCmpA s
  | .cmpwA => Sys2Proof.Machine.execCmpwA s
  | .rorc => Sys2Proof.Machine.execRorc s
  | .rolc => Sys2Proof.Machine.execRolc s
  | .cmpAImm d8 => Sys2Proof.Machine.execCmpAImm d8 s
  | .cmpADir dir => Sys2Proof.Machine.execCmpADir dir s
  | .cmpAAtEp => Sys2Proof.Machine.execCmpAAtEp s
  | .cmpAAtIx off => Sys2Proof.Machine.execCmpAAtIx off s
  | .cmpARi r => Sys2Proof.Machine.execCmpARi r s
  | .daa => Sys2Proof.Machine.execDaa s
  | .das => Sys2Proof.Machine.execDas s
  | .xorA => Sys2Proof.Machine.execXorA s
  | .xorAImm d8 => Sys2Proof.Machine.execXorAImm d8 s
  | .xorADir dir => Sys2Proof.Machine.execXorADir dir s
  | .xorAAtEp => Sys2Proof.Machine.execXorAAtEp s
  | .xorAAtIx off => Sys2Proof.Machine.execXorAAtIx off s
  | .xorARi r => Sys2Proof.Machine.execXorARi r s
  | .andA => Sys2Proof.Machine.execAndA s
  | .andAImm d8 => Sys2Proof.Machine.execAndAImm d8 s
  | .andADir dir => Sys2Proof.Machine.execAndADir dir s
  | .andAAtEp => Sys2Proof.Machine.execAndAAtEp s
  | .andAAtIx off => Sys2Proof.Machine.execAndAAtIx off s
  | .andARi r => Sys2Proof.Machine.execAndARi r s
  | .orA => Sys2Proof.Machine.execOrA s
  | .orAImm d8 => Sys2Proof.Machine.execOrAImm d8 s
  | .orADir dir => Sys2Proof.Machine.execOrADir dir s
  | .orAAtEp => Sys2Proof.Machine.execOrAAtEp s
  | .orAAtIx off => Sys2Proof.Machine.execOrAAtIx off s
  | .orARi r => Sys2Proof.Machine.execOrARi r s
  | .cmpDirImm dir d8 => Sys2Proof.Machine.execCmpDirImm dir d8 s
  | .cmpAtEpImm d8 => Sys2Proof.Machine.execCmpAtEpImm d8 s
  | .cmpAtIxImm off d8 => Sys2Proof.Machine.execCmpAtIxImm off d8 s
  | .cmpRiImm r d8 => Sys2Proof.Machine.execCmpRiImm r d8 s
  | .incwSp => Sys2Proof.Machine.execIncwSp s
  | .decwSp => Sys2Proof.Machine.execDecwSp s
  | .bz rel => Sys2Proof.Machine.execBz rel s
  | .bnz rel => Sys2Proof.Machine.execBnz rel s
  | .bc rel => Sys2Proof.Machine.execBc rel s
  | .bnc rel => Sys2Proof.Machine.execBnc rel s
  | .bn rel => Sys2Proof.Machine.execBn rel s
  | .bp rel => Sys2Proof.Machine.execBp rel s
  | .blt rel => Sys2Proof.Machine.execBlt rel s
  | .bge rel => Sys2Proof.Machine.execBge rel s
  | .bbc dir b rel => Sys2Proof.Machine.execBbc dir b rel s
  | .bbs dir b rel => Sys2Proof.Machine.execBbs dir b rel s
  | .jmpAtA => Sys2Proof.Machine.execJmpAtA s
  | .jmpExt ext => Sys2Proof.Machine.execJmpExt ext s
  | .callv k => Sys2Proof.Machine.execCallv k s
  | .call ext => Sys2Proof.Machine.execCall ext s
  | .xchwAPc => Sys2Proof.Machine.execXchwAPc s
  | .ret => Sys2Proof.Machine.execRet s
  | .reti => Sys2Proof.Machine.execReti s
  | .pushwA => Sys2Proof.Machine.execPushwA s
  | .popwA => Sys2Proof.Machine.execPopwA s
  | .pushwIx => Sys2Proof.Machine.execPushwIx s
  | .popwIx => Sys2Proof.Machine.execPopwIx s
  | .nop => Sys2Proof.Machine.execNop s
  | .clrc => Sys2Proof.Machine.execClrc s
  | .setc => Sys2Proof.Machine.execSetc s
  | .clri => Sys2Proof.Machine.execClri s
  | .seti => Sys2Proof.Machine.execSeti s
  | .unassigned => Sys2Proof.Machine.execUnassigned s

end Sys2Proof.Machine
end

