-- ==== Sys2Proof/Machine/Fetch.lean ====
section
/-! DEFINITION. Fetching an instruction's bytes (30_encoding.md R70), and placing them for a run that starts elsewhere. -/

namespace Sys2Proof.Machine

/-- Fetch and decode at PC (R70): the op code byte, then as many operand bytes as it asks for and no more, each by
`MemRead` at addresses modulo 2^16 (R95). PC still holds `this_pc` afterwards. -/
def State.fetch (s : State) : Res (Instr × State) :=
  (s.read8 s.pc).andThen fun (op, s1) =>
    match layoutOf op with
    | .one i => .next (i, s1)
    | .two k => (s1.read8 (s.pc + 1#16)).andThen fun (b, s2) => .next (k b, s2)
    | .three k =>
      (s1.read8 (s.pc + 1#16)).andThen fun (b, s2) =>
        (s2.read8 (s.pc + 2#16)).andThen fun (c, s3) => .next (k b c, s3)

/-- Put a byte where a fetch of `addr` finds it: in RP and DP at the mirror, else in memory, where the address is made RAM
unless it already is RAM or ROM. -/
def State.placeByte (s : State) (addr : Word) (v : Byte) : State :=
  match s.siteOf addr with
  | .mirror => { s with ps := s.ps.withUpper v }
  | .mapped .ram => { s with mem := s.mem.write addr.toNat v }
  | .mapped .rom => { s with mem := s.mem.write addr.toNat v }
  | .mapped _ =>
    { s with mem := s.mem.write addr.toNat v
             device := { s.device with memMap := ⟨addr.toNat, addr.toNat, .ram⟩ :: s.device.memMap } }

/-- Bytes placed at rising addresses. -/
def State.placeBytes : List Byte → Word → State → State
  | [], _, s => s
  | v :: vs, addr, s => State.placeBytes vs (addr + 1#16) (s.placeByte addr v)

/-- The next boundary presents nothing and no request is pending, so that the next step is an instruction step; later
boundaries are as they were, one later. -/
def State.quietNext (s : State) : State :=
  match s.inputs, s.pending with
  | [], [] => s
  | _, _ => { s with inputs := .quiet :: s.inputs, pending := [] }

end Sys2Proof.Machine
end

