-- ==== Sys2Proof/Machine/Boundary.lean ====
section
/-! DEFINITION. One step: what the environment presents at the boundary decides between an instruction step, an interrupt entry step
and a reset step (R12, R264, R277). -/

namespace Sys2Proof.Machine

/-- What the environment presents at this boundary (R36). With no input left it goes on presenting the request it presented
last, as long as that one stays pending (R273, log 16). -/
def State.presented (s : State) : BoundaryInput :=
  match s.inputs, s.pending with
  | x :: _, _ => x
  | [], r :: _ => .request r.number r.level
  | [], [] => .quiet

/-- What `IRQ_SOURCE` may present while `r` is pending (R273, R277 E1): `r` itself, or another request of no lower
priority (R265), which displaces it; never nothing, and never the same number at another level, which only software sets (R263).
Reset may be asserted at any boundary. -/
def mayPresentWhile (r : IrqRequest) : BoundaryInput → Bool
  | .quiet => false
  | .request n level => if n = r.number then level == r.level else decide (level.toNat ≤ r.level.toNat)
  | .reset => true

/-- The environment withdraws a request that software has not cleared or disabled (R277 E1). -/
def State.withdraws (s : State) : Bool := s.pending.any fun r => !mayPresentWhile r s.presented

/-- The requests pending after this boundary: a presented one is among them, the latest first (R273). -/
def State.pendingNow (s : State) : List IrqRequest :=
  match s.presented with
  | .request n level => ⟨n, level⟩ :: s.pending.filter fun r => r ≠ ⟨n, level⟩
  | .quiet => s.pending
  | .reset => s.pending

/-- The boundary is over: what it presented is used up and pending, and the I and IL kept for it are dropped (R264). -/
def State.leaveBoundary (s : State) : State :=
  { s with inputs := s.inputs.tail, pending := s.pendingNow, maskBefore := none }

/-- The I and IL the acceptance test reads: those the step that just ended left, or, when `irq_mask_latency` is 1 and
that step was SETI, CLRI, MOVW PS,A or RETI, those from before it (R264, D7). -/
def State.acceptMask (s : State) : IrqMask :=
  match s.device.irqMaskDelay, s.maskBefore with
  | true, some m => m
  | _, _ => ⟨s.ps.i, s.ps.il⟩

/-- The acceptance test for a request of this level (R264): `L < IL` and `I = 1`. -/
def State.accepts (s : State) (level : BitVec 2) : Bool :=
  s.acceptMask.i && decide (level.toNat < s.acceptMask.il.toNat)

/-- The instruction step (R70). -/
def instructionStep (s : State) : Res State :=
  s.fetch.andThen fun (i, s1) => exec i s1

/-- One step of the machine (R12). What the environment may not present is refused (R277 E1). -/
def boundaryStep (s : State) : Res State :=
  match s.presented with
  | .quiet => if s.withdraws then .refused .requestWithdrawn else instructionStep s.leaveBoundary
  | .reset => resetStep s.leaveBoundary
  | .request n level =>
    if BoundaryInput.wellFormed s.device (.request n level) then
      if s.withdraws then .refused .requestWithdrawn
      else if s.accepts level then interruptEntry n level s.leaveBoundary
      else instructionStep s.leaveBoundary
    else .refused (.requestOutOfRange n)

end Sys2Proof.Machine
end

