-- ==== Sys2Proof/Machine/Step.lean ====
section
/-! DEFINITION. The step the host runs, and the state in which it runs one given instruction. -/

namespace Sys2Proof.Machine

/-- One step (R12): `boundaryStep`. -/
def step (s : State) : Host.Outcome State Fault Refusal := boundaryStep s

/-- `s` with the instruction whose bits are `w` (the bits from `nbits` up are zero) where the next step fetches it:
three bytes at PC, and a boundary that presents nothing (log 4). -/
def State.withFetchWord (s : State) (nbits w : Nat) : State :=
  (State.placeBytes (tableBytes nbits w) s.pc s).quietNext

end Sys2Proof.Machine
end

