-- ==== Sys2Proof/Safety.lean ====
section
/-! DEFINITION. The terms claims are stated in: which accesses complete, the bytes an instruction stores to, the invariant, and the
effects the rules give, written out from the rules. -/

namespace Sys2Proof.Machine

/-! ## Accesses that complete -/

/-- A read of this address answers a byte: the mirror, an I/O register, or a RAM or ROM byte that has a value (R21, R40, R60). -/
def State.readable (s : State) (addr : Word) : Bool :=
  match s.siteOf addr with
  | .mirror => true
  | .mapped .io => true
  | .mapped .unimplemented => false
  | .mapped .ram => (s.mem.read addr.toNat).isSome
  | .mapped .rom => (s.mem.read addr.toNat).isSome

/-- A write to this address completes: the mirror, an I/O register, or RAM (R21, R60). -/
def State.writable (s : State) (addr : Word) : Bool :=
  match s.siteOf addr with
  | .mirror => true
  | .mapped .io => true
  | .mapped .ram => true
  | .mapped .rom => false
  | .mapped .unimplemented => false

/-- Both bytes of the word at `addr` can be read. -/
def State.readable16 (s : State) (addr : Word) : Bool := s.readable addr && s.readable (addr + 1#16)

/-- A plain RAM byte. -/
def State.isRam (s : State) (addr : Word) : Bool := decide (s.siteOf addr = .mapped .ram)

/-- A store to `addr` by an instruction that goes on at `next` completes: the address can be written and is outside the prefetch
window (R310). -/
def State.storable (s : State) (next addr : Word) : Bool := s.writable addr && !inPrefetchWindow next addr

end Sys2Proof.Machine

namespace Sys2Proof

open Sys2Proof.Machine

/-! ## What an instruction stores to -/

/-- The addresses an instruction stores to, computed with the operand functions its meaning uses (R49): the address of the
destination operand, the byte after it for a word, the two bytes below SP for a push. -/
def Instr.storedBytes (i : Instr) (s : State) : List Word :=
  match i with
  | .movDirA dir => [s.addrOf (.dir dir)]
  | .movAtIxA off => [s.addrOf (.ix off)]
  | .movExtA ext => [s.addrOf (.ext ext)]
  | .movAtEpA => [s.addrOf .ep]
  | .movRiA r => [s.addrOf (.reg r)]
  | .movDirImm dir _ => [s.addrOf (.dir dir)]
  | .movAtIxImm off _ => [s.addrOf (.ix off)]
  | .movAtEpImm _ => [s.addrOf .ep]
  | .movRiImm r _ => [s.addrOf (.reg r)]
  | .movAtAT => [s.addrOf .atA]
  | .movwDirA dir => [s.addrOf (.dir dir), s.addrOf (.dir dir) + 1#16]
  | .movwAtIxA off => [s.addrOf (.ix off), s.addrOf (.ix off) + 1#16]
  | .movwExtA ext => [s.addrOf (.ext ext), s.addrOf (.ext ext) + 1#16]
  | .movwAtEpA => [s.addrOf .ep, s.addrOf .ep + 1#16]
  | .movwAtAT => [s.addrOf .atA, s.addrOf .atA + 1#16]
  | .setb dir _ => [s.addrOf (.dir dir)]
  | .clrb dir _ => [s.addrOf (.dir dir)]
  | .incRi r => [s.addrOf (.reg r)]
  | .decRi r => [s.addrOf (.reg r)]
  | .callv _ => [s.sp - 1#16, s.sp - 2#16]
  | .call _ => [s.sp - 1#16, s.sp - 2#16]
  | .pushwA => [s.sp - 1#16, s.sp - 2#16]
  | .pushwIx => [s.sp - 1#16, s.sp - 2#16]
  | _ => []

/-- MOVW PS,A and RETI: the only instructions that write all of PS, so also RP and DP (R32, R33). -/
def Instr.loadsPs : Instr → Bool
  | .movwPsA => true
  | .reti => true
  | _ => false

/-- SETI, CLRI, MOVW PS,A and RETI: the only instructions that write I or IL (R24, R25). -/
def Instr.writesMask : Instr → Bool
  | .seti => true
  | .clri => true
  | i => i.loadsPs

/-- CALL and CALLV: the storing instructions that do not go on at `next_pc` (R310). -/
def Instr.isCall : Instr → Bool
  | .call _ => true
  | .callv _ => true
  | _ => false

/-- The instructions that write IX (R18, R39). -/
def Instr.writesIx : Instr → Bool
  | .movwIxA | .movwIxImm _ | .xchwAIx | .incwIx | .decwIx | .popwIx => true
  | _ => false

/-- The instructions that write EP (R19, R39). -/
def Instr.writesEp : Instr → Bool
  | .movwEpA | .movwEpImm _ | .xchwAEp | .incwEp | .decwEp => true
  | _ => false

/-- The instructions that write SP (R16, R39). -/
def Instr.writesSp : Instr → Bool
  | .movwSpA | .movwSpImm _ | .xchwASp | .incwSp | .decwSp => true
  | .pushwA | .pushwIx | .popwA | .popwIx | .call _ | .callv _ | .ret | .reti => true
  | _ => false

/-- ADDC and SUBC of bytes, in every form (R160 to R164, R166 to R171, R173). -/
def Instr.isByteAddSub : Instr → Bool
  | .addcARi _ | .addcAImm _ | .addcADir _ | .addcAAtIx _ | .addcAAtEp | .addcA => true
  | .subcARi _ | .subcAImm _ | .subcADir _ | .subcAAtIx _ | .subcAAtEp | .subcA => true
  | _ => false

/-- The compares, in every form (R187, R188, R191 to R195, R216 to R219). -/
def Instr.isCompare : Instr → Bool
  | .cmpA | .cmpwA | .cmpAImm _ | .cmpADir _ | .cmpAAtEp | .cmpAAtIx _ | .cmpARi _ => true
  | .cmpDirImm _ _ | .cmpAtEpImm _ | .cmpAtIxImm _ _ | .cmpRiImm _ _ => true
  | _ => false

/-- The bitwise instructions of bytes into AL (R198 to R215). -/
def Instr.isByteLogic : Instr → Bool
  | .xorA | .xorAImm _ | .xorADir _ | .xorAAtEp | .xorAAtIx _ | .xorARi _ => true
  | .andA | .andAImm _ | .andADir _ | .andAAtEp | .andAAtIx _ | .andARi _ => true
  | .orA | .orAImm _ | .orADir _ | .orAAtEp | .orAAtIx _ | .orARi _ => true
  | _ => false

/-- The bitwise instructions of words into A (R184 to R186). -/
def Instr.isWordLogic : Instr → Bool
  | .andwA | .orwA | .xorwA => true
  | _ => false

/-- The byte loads into A (R106 to R112). -/
def Instr.isByteLoad : Instr → Bool
  | .movAImm _ | .movADir _ | .movAAtIx _ | .movAExt _ | .movAAtA | .movAAtEp | .movARi _ => true
  | _ => false

/-- The word loads into A (R122 to R127). -/
def Instr.isWordLoad : Instr → Bool
  | .movwAImm _ | .movwADir _ | .movwAAtIx _ | .movwAExt _ | .movwAAtA | .movwAAtEp => true
  | _ => false

/-- The instructions that write T (R17): byte loads, word loads, exchanges with T, DIVU. -/
def Instr.writesT : Instr → Bool
  | .xchAT | .xchwAT | .divu => true
  | i => i.isByteLoad || i.isWordLoad

/-- The instructions that write AL and leave AH (R14, R157). -/
def Instr.writesAlOnly : Instr → Bool
  | .xchAT | .rorc | .rolc | .daa | .das => true
  | i => i.isByteLoad || i.isByteAddSub || i.isByteLogic

/-- The instructions that write all of A (R14, R39). -/
def Instr.writesAllOfA : Instr → Bool
  | .movwAEp | .movwAIx | .movwASp | .movwAPs | .movwAPc | .swap => true
  | .xchwAT | .xchwAEp | .xchwAIx | .xchwASp | .xchwAPc | .popwA => true
  | .addcwA | .subcwA | .incwA | .decwA | .mulu | .divu => true
  | i => i.isWordLoad || i.isWordLogic

/-- The instructions that write H, or leave it unspecified (R23). -/
def Instr.writesH : Instr → Bool
  | .addcwA | .subcwA | .incRi _ | .decRi _ | .incwA | .decwA | .mulu | .divu => true
  | i => i.isByteAddSub || i.isCompare || i.loadsPs

/-- The instructions that write N (R26, R154, R155). -/
def Instr.writesN : Instr → Bool
  | .addcwA | .subcwA | .incRi _ | .decRi _ | .incwA | .decwA | .rorc | .rolc | .daa | .das => true
  | i => i.isByteLoad || i.isWordLoad || i.isByteAddSub || i.isCompare || i.isByteLogic || i.isWordLogic || i.loadsPs

/-- The instructions that write Z: those that write N, and BBC, BBS and DIVU (R27). -/
def Instr.writesZ : Instr → Bool
  | .bbc _ _ _ | .bbs _ _ _ | .divu => true
  | i => i.writesN

/-- The instructions that write V (R28, R155). -/
def Instr.writesV : Instr → Bool
  | .addcwA | .subcwA | .incRi _ | .decRi _ | .daa | .das => true
  | i => i.isByteAddSub || i.isCompare || i.isByteLogic || i.isWordLogic || i.loadsPs

/-- The instructions that write C (R29). -/
def Instr.writesC : Instr → Bool
  | .addcwA | .subcwA | .rorc | .rolc | .daa | .setc | .clrc => true
  | i => i.isByteAddSub || i.isCompare || i.loadsPs

end Sys2Proof

namespace Sys2Proof.Machine

/-! ## The invariant -/

/-- The invariant: memory is in canonical form, and every byte it lists is at an address that is RAM or ROM, so none is at the
mirror, at an I/O register or where nothing is (R21, R41, R60). -/
def State.Inv (s : State) : Prop :=
  s.mem.wf = true ∧
    ∀ addr : Word, s.mem.read addr.toNat ≠ none → s.siteOf addr = .mapped .ram ∨ s.siteOf addr = .mapped .rom

/-! ## Effects, as the rules write them -/

/-- `exec` answers the next state the effect gives, whenever the byte at `addr` can be read: `effect` is given the byte and the
state after its read. -/
def CompletesReading (i : Instr) (s : State) (addr : Word) (effect : Byte → State → State) : Prop :=
  s.readable addr = true → ∃ v s1, s.read8 addr = .next (v, s1) ∧ exec i s = .next (effect v s1)

/-- The same for a word, both bytes of which can be read. -/
def CompletesReadingWord (i : Instr) (s : State) (addr : Word) (effect : Word → State → State) : Prop :=
  s.readable16 addr = true → ∃ v s1, s.read16 addr = .next (v, s1) ∧ exec i s = .next (effect v s1)

/-- `exec` stores the byte at `addr` and goes on at `next_pc`, whenever the store completes. -/
def CompletesStoring (i : Instr) (s : State) (addr : Word) (v : Byte) : Prop :=
  s.storable (s.nextPc i.length) addr = true →
    ∃ s1, s.write8 addr v = .next s1 ∧ exec i s = .next { s1 with pc := s.nextPc i.length }

/-- `exec` stores the word at `addr`, upper byte first, and goes on at `next_pc`, whenever both stores complete. -/
def CompletesStoringWord (i : Instr) (s : State) (addr v : Word) : Prop :=
  s.storable (s.nextPc i.length) addr = true → s.storable (s.nextPc i.length) (addr + 1#16) = true →
    ∃ s1 s2, s.write8 addr (hiByte v) = .next s1 ∧ s1.write8 (addr + 1#16) (loByte v) = .next s2 ∧
      exec i s = .next { s2 with pc := s.nextPc i.length }

/-- `exec` reads the byte at `addr` with the RMW mark, stores `f` of it there, and then has the effect on the other state,
whenever the read and the store complete (R48). -/
def CompletesModifying (i : Instr) (s : State) (addr : Word) (f : Byte → Byte) (effect : Byte → State → State) : Prop :=
  s.readable addr = true → s.storable (s.nextPc i.length) addr = true →
    ∃ v s1 s2, s.readAs true addr = .next (v, s1) ∧ s1.write8 addr (f v) = .next s2 ∧
      exec i s = .next (effect v { s2 with pc := s.nextPc i.length })

/-- A word pushed at the stack pointer, lower byte first (R55): the two writes, SP less 2. -/
def Pushes (s : State) (v : Word) (t : State) : Prop :=
  ∃ s1 s2, s.write8 (s.sp - 1#16) (loByte v) = .next s1 ∧ s1.write8 (s.sp - 2#16) (hiByte v) = .next s2 ∧
    t = { s2 with sp := s.sp - 2#16 }

/-- A byte loaded into A (R106 to R112): TL takes the old AL, AL the byte, N and Z its value. -/
def byteLoaded (len : Nat) (v : Byte) (s : State) : State :=
  { s with a := hiByte s.a ++ v, t := hiByte s.t ++ loByte s.a, ps := { s.ps with n := v.msb, z := decide (v = 0#8) },
           pc := s.nextPc len }

/-- A word loaded into A (R122 to R127): T takes the old A, A the word, N and Z its value. -/
def wordLoaded (len : Nat) (v : Word) (s : State) : State :=
  { s with a := v, t := s.a, ps := { s.ps with n := v.msb, z := decide (v = 0#16) }, pc := s.nextPc len }

/-- The outputs of a byte adder in AL and H, N, Z, V, C (R160 to R173). -/
def byteResult (len : Nat) (o : Alu8) (s : State) : State :=
  { s with a := hiByte s.a ++ o.r, ps := { s.ps with h := o.h, n := o.n, z := o.z, v := o.v, c := o.c }, pc := s.nextPc len }

/-- A two-operand byte instruction "A, source" in its five forms (R156): Ri, #d8, dir, @IX+off, @EP. `effect` is given the length, the source
byte, and the state after its read. -/
def SourceForms (reg : BitVec 3 → Instr) (imm dir ix : Byte → Instr) (ep : Instr) (s : State)
    (effect : Nat → Byte → State → State) : Prop :=
  (∀ r, CompletesReading (reg r) s (s.addrOf (.reg r)) (effect 1)) ∧
  (∀ d8, exec (imm d8) s = .next (effect 2 d8 s)) ∧
  (∀ d, CompletesReading (dir d) s (s.addrOf (.dir d)) (effect 2)) ∧
  (∀ off, CompletesReading (ix off) s (s.addrOf (.ix off)) (effect 2)) ∧
  CompletesReading ep s (s.addrOf .ep) (effect 1)

/-- N, Z, V, C from an adder and a free H, drawn from the counter (R23 (iii)). -/
def flagsFreeH (n z v c : Bool) (s : State) : State :=
  { s with ps := { s.ps with h := Config.freeBit s.draws, n := n, z := z, v := v, c := c }, draws := s.draws + 1 }

/-- A compare of `x` with `y` (R187 to R195, R216 to R219): N, Z, V, C of `Sub8(x, y, 0)`, a free H, nothing else. -/
def compared (len : Nat) (x y : Byte) (s : State) : State :=
  let o := sub8 x y false
  { flagsFreeH o.n o.z o.v o.c s with pc := s.nextPc len }

/-- A word adder's outputs in A and N, Z, V, C, a free H (R165, R172). -/
def wordResult (o : Alu16) (s : State) : State :=
  { flagsFreeH o.n o.z o.v o.c s with a := o.r, pc := s.nextPc 1 }

/-- A bitwise result in all of A (R155): N, Z of it, V 0. -/
def wordLogicResult (r : Word) (s : State) : State :=
  { s with a := r, ps := { s.ps with n := r.msb, z := decide (r = 0#16), v := false }, pc := s.nextPc 1 }

/-- A bitwise result in AL (R155): N, Z of it, V 0. -/
def logicResult (len : Nat) (r : Byte) (s : State) : State :=
  { s with a := hiByte s.a ++ r, ps := { s.ps with n := r.msb, z := decide (r = 0#8), v := false }, pc := s.nextPc len }

/-- The bytes at PC are the bytes of `i` (each in RAM, ROM or the mirror). -/
def State.holdsAtPc (s : State) (i : Instr) : Prop :=
  ∀ k, k < i.length → s.peek (s.pc + BitVec.ofNat 16 k) = (encode i)[k]?

/-- The boundary leads to an instruction step: no pending request is withdrawn (R277 E1), and nothing is presented, or a request the
acceptance test turns away (R264). -/
def State.runsInstruction (s : State) : Prop :=
  s.withdraws = false ∧ (s.presented = .quiet ∨
    ∃ n level, s.presented = .request n level ∧ BoundaryInput.wellFormed s.device (.request n level) = true ∧
      s.accepts level = false)

/-- Both decimal digits of a byte are 0 to 9. -/
def isBcd (x : Byte) : Bool := decide (x.toNat / 16 ≤ 9) && decide (x.toNat % 16 ≤ 9)

/-- The number two decimal digits stand for. -/
def bcdValue (x : Byte) : Nat := x.toNat / 16 * 10 + x.toNat % 16

end Sys2Proof.Machine
end

