-- ==== Sys2Proof/Certificates/Slice0/Obligations.lean ====
section
/-! DEFINITION. What the model states about itself, for the provers: one proposition per statement of OBLIGATIONS.json. -/

open Sys2Proof Sys2Proof.Machine

/-! ## Encoding -/

/-- Every assigned instruction, with every operand value, decodes from its encoding, whatever bytes follow (R70, R72 to R74). -/
def Obligations.DecodeEncodeRoundTrip : Prop :=
  ∀ (i : Instr) (rest : List Byte), i.wellFormed = true → decode (encode i ++ rest) = .ok (i, rest)

/-- Whatever decodes is the encoding of what it decodes to: each byte sequence has one meaning (R70, R77), and the one op code without a
row gives the reserved constructor (R90). -/
def Obligations.DecodedBytesAreTheEncoding : Prop :=
  ∀ (bytes rest : List Byte) (i : Instr), decode bytes = .ok (i, rest) →
    bytes = encode i ++ rest ∧ (i.wellFormed = false → bytes.head? = some 0x44#8)

/-- Every op code byte but 44 belongs to exactly one row of the map, and 44 to none (R70, R77, R90). -/
def Obligations.OpcodeMapIsUnambiguous : Prop :=
  ∀ op : Byte, (opRows.filter fun r => op &&& r.mask == r.pattern).length = if op = 0x44#8 then 0 else 1

/-- R85: 48, 62, 17 and 9 forms; 119 of them have one op code; the other 17 have eight each, which are the register forms, the bit
forms and CALLV; together they take 255 of the 256 op codes. -/
def Obligations.OpcodeMapCounts : Prop :=
  transferRows.length = 48 ∧ operationRows.length = 62 ∧ branchRows.length = 17 ∧ otherRows.length = 9 ∧
  opRows.length = 136 ∧
  (opRows.filter fun r => r.mask == 0xFF#8).length = 119 ∧
  (opRows.filter fun r => r.mask == 0xF8#8).map (·.pattern) =
    [0x48#8, 0x08#8, 0x88#8, 0xA8#8, 0xA0#8, 0x28#8, 0x38#8, 0xC8#8, 0xD8#8, 0x18#8, 0x58#8, 0x68#8, 0x78#8, 0x98#8,
     0xB0#8, 0xB8#8, 0xE8#8] ∧
  ((List.range 256).filter fun n => (rowOf? (BitVec.ofNat 8 n)).isSome).length = 255

/-- Words written out from the encodings decode to their instructions: operand order (R73), upper byte first (R74), the number in the low
three bits (R71). -/
def Obligations.SampleWordsDecode : Prop :=
  decode [0x85#8, 0x78#8, 0x0A#8] = .ok (.movDirImm 0x78#8 0x0A#8, []) ∧
  decode [0x61#8, 0x12#8, 0x80#8] = .ok (.movExtA 0x1280#16, []) ∧
  decode [0xAD#8, 0x90#8] = .ok (.setb 0x90#8 5#3, []) ∧
  decode [0x2B#8] = .ok (.addcARi 3#3, []) ∧
  decode [0x33#8] = .ok (.subcwA, []) ∧
  decode [0xB9#8, 0x80#8, 0xFD#8] = .ok (.bbs 0x80#8 1#3 0xFD#8, []) ∧
  decode [0xEF#8] = .ok (.callv 7#3, []) ∧
  decode [0x41#8] = .ok (.pushwIx, [])

/-! ## Addresses -/

/-- The direct map of R52: 00 to 7F always at 0000 to 007F; 80 to FF in the 128-byte bank that DP selects, from 0080 on; no direct
address is above 047F. -/
def Obligations.DirectAddressMap : Prop :=
  ∀ (s : State) (d : Byte),
    (d.toNat < 0x80 → (s.addrOf (.dir d)).toNat = d.toNat) ∧
    (0x80 ≤ d.toNat → (s.addrOf (.dir d)).toNat = (s.ps.dp.toNat + 1) * 0x80 + (d.toNat - 0x80)) ∧
    (s.addrOf (.dir d)).toNat ≤ 0x47F

/-- The other operand forms: IX plus the signed offset (R53), EP and A (R54), the address itself (R57), and the register's byte in the bank
RP selects (R31). The wrap modulo 2^16 is the spec's decision D6 (log 9), the place of RP its decision D16 (log 6). -/
def Obligations.OperandAddresses : Prop :=
  ∀ (s : State) (off : Byte) (e : Word) (r : BitVec 3),
    (s.addrOf (.ix off)).toNat = (((s.ix.toNat : Int) + off.toInt) % 65536).toNat ∧
    s.addrOf .ep = s.ep ∧ s.addrOf .atA = s.a ∧ s.addrOf (.ext e) = e ∧
    (s.addrOf (.reg r)).toNat = 0x100 + 8 * s.ps.rp.toNat + r.toNat

/-- R61: the CALLV table at FFC0 to FFCF, two bytes a number, the upper byte first, and CALLV goes to the word it finds there. -/
def Obligations.CallvVectorTable : Prop :=
  (∀ k : BitVec 3, (callvVectorAddr k).toNat = 0xFFC0 + 2 * k.toNat) ∧
  callvVectorAddr 0#3 = 0xFFC0#16 ∧ callvVectorAddr 1#3 = 0xFFC2#16 ∧ callvVectorAddr 2#3 = 0xFFC4#16 ∧
  callvVectorAddr 3#3 = 0xFFC6#16 ∧ callvVectorAddr 4#3 = 0xFFC8#16 ∧ callvVectorAddr 5#3 = 0xFFCA#16 ∧
  callvVectorAddr 6#3 = 0xFFCC#16 ∧ callvVectorAddr 7#3 = 0xFFCE#16 ∧
  ∀ (k : BitVec 3) (s t : State), exec (.callv k) s = .next t →
    ∃ hi s1 lo s2, s.read8 (callvVectorAddr k) = .next (hi, s1) ∧ s1.read8 (callvVectorAddr k + 1#16) = .next (lo, s2) ∧
      t.pc = hi ++ lo

/-- Interrupt n has its vector at FFFA - 2n, upper byte first, for n up to 23, and entry goes to the word it finds there; reset goes to the
word at FFFE, upper byte first (R62). That the mode byte at FFFD is read before the reset vector, so that reset needs it readable, is R49
and R300 with the spec's decision D13 (log 20). -/
def Obligations.InterruptVectorTable : Prop :=
  (∀ n : Nat, n < 24 → (irqVectorAddr n).toNat = 0xFFFA - 2 * n) ∧
  (∀ (n : Nat) (level : BitVec 2) (s t : State), n < 24 → interruptEntry n level s = .next t →
    ∃ hi s1 lo s2, s.read8 (irqVectorAddr n) = .next (hi, s1) ∧ s1.read8 (irqVectorAddr n + 1#16) = .next (lo, s2) ∧
      t.pc = hi ++ lo) ∧
  (∀ s t : State, resetStep s = .next t →
    ∃ mode s1 hi s2 lo s3, s.read8 0xFFFD#16 = .next (mode, s1) ∧ s1.read8 0xFFFE#16 = .next (hi, s2) ∧
      s2.read8 0xFFFF#16 = .next (lo, s3) ∧ t.pc = hi ++ lo)

/-! ## Program status -/

/-- PS as a word and by its fields are one register: the fields where R20 and R22 put them (H, I and IL by the spec's decision D15, log 5),
nothing lost either way; and the mirror at 0078 is its upper byte (R21). -/
def Obligations.StatusWordLayout : Prop :=
  (∀ w : Word, (Status.ofWord w).toWord = w) ∧
  (∀ p : Status, Status.ofWord p.toWord = p) ∧
  (∀ p : Status, p.toWord.toNat =
    2048 * p.rp.toNat + 256 * p.dp.toNat + 128 * p.h.toNat + 64 * p.i.toNat + 16 * p.il.toNat + 8 * p.n.toNat +
      4 * p.z.toNat + 2 * p.v.toNat + p.c.toNat) ∧
  (∀ s : State, s.peek 0x0078#16 = some (hiByte s.ps.toWord)) ∧
  (∀ (p : Status) (b : Byte), (p.withUpper b).toWord = b ++ loByte p.toWord)

/-! ## Memory -/

/-- One byte access, at each kind of address: the mirror reads and writes RP and DP (R21), RAM and ROM read what they hold and fault where
nothing was written (R40; D14, log 1), and RAM takes the byte (R41). That a write to ROM and any access where nothing is are refused is the
spec's decision D10 in R60 (log 14). An I/O access goes to the environment (R60); how the model writes that down, a free value by the count
of draws for what a read returns and a log of the accesses, is its own choice (log 15), and that a write may clear or disable every pending
request is its reading of R273 (log 35). -/
def Obligations.ByteAccesses : Prop :=
  ∀ (s : State) (addr : Word) (v : Byte),
    (s.siteOf addr = .mirror →
      s.read8 addr = .next (hiByte s.ps.toWord, s) ∧ s.write8 addr v = .next { s with ps := s.ps.withUpper v }) ∧
    (s.siteOf addr = .mapped .ram →
      s.read8 addr = (match s.mem.read addr.toNat with
        | some b => .next (b, s)
        | none => .fault (.unwrittenRead addr)) ∧
      s.write8 addr v = .next { s with mem := s.mem.write addr.toNat v }) ∧
    (s.siteOf addr = .mapped .rom →
      s.read8 addr = (match s.mem.read addr.toNat with
        | some b => .next (b, s)
        | none => .fault (.unwrittenRead addr)) ∧
      s.write8 addr v = .refused (.writeToRom addr)) ∧
    (s.siteOf addr = .mapped .io →
      s.read8 addr = .next (Config.ioInput s.draws addr,
        { s with ioLog := s.ioLog ++ [⟨addr, .read, false, Config.ioInput s.draws addr⟩], draws := s.draws + 1 }) ∧
      s.write8 addr v = .next { s with ioLog := s.ioLog ++ [⟨addr, .write, false, v⟩], pending := [] }) ∧
    (s.siteOf addr = .mapped .unimplemented →
      s.read8 addr = .refused (.unmapped addr) ∧ s.write8 addr v = .refused (.unmapped addr)) ∧
    (s.readable addr = true ↔ ∃ b s1, s.read8 addr = .next (b, s1)) ∧
    (s.writable addr = true ↔ ∃ s1, s.write8 addr v = .next s1)

/-- A word stored in RAM reads back, its upper byte at the lower address (R42, R45); it may sit at any address (R46), the top of the
space included (the wrap is D6, log 9). -/
def Obligations.StoredWordReadsBack : Prop :=
  ∀ (s : State) (addr w : Word), s.isRam addr = true → s.isRam (addr + 1#16) = true →
    ∃ t, s.store16 none addr w = .next t ∧ t.read16 addr = .next (w, t) ∧
      t.read8 addr = .next (hiByte w, t) ∧ t.read8 (addr + 1#16) = .next (loByte w, t)

/-- A word pushed on a RAM stack is at SP, upper byte at the lower address, and a pop gives it back and restores SP (R55, R56). -/
def Obligations.PushThenPop : Prop :=
  ∀ (s : State) (w : Word), s.isRam (s.sp - 1#16) = true → s.isRam (s.sp - 2#16) = true →
    ∃ t, s.push16 none w = .next t ∧ t.sp = s.sp - 2#16 ∧ t.peek t.sp = some (hiByte w) ∧
      t.peek (t.sp + 1#16) = some (loByte w) ∧ t.pop16 = .next (w, { t with sp := s.sp })

/-- Whatever an instruction does, a byte it does not store to reads as before (R41, R49): `storedBytes` are the addresses of the
destination operand or of the stack slot, computed as the meaning computes them. The byte at 0078, which is RP and DP themselves, also
changes when MOVW PS,A or RETI loads PS (R32, R33). -/
def Obligations.MemoryFrameOfEveryInstruction : Prop :=
  ∀ (i : Instr) (s t : State), exec i s = .next t → ∀ addr : Word, addr ∉ i.storedBytes s →
    (addr = mirrorAddr → i.loadsPs = false) → t.peek addr = s.peek addr

/-- A store by any instruction but CALL and CALLV never reaches the two bytes after the instruction: a byte store there is refused, and no
instruction completes with a store there (R310). The refusal is the spec's decision D12; that it covers a store to 0078 when that is one of
the two bytes is the model's reading of R310 (log 11). -/
def Obligations.PrefetchWindowIsNeverStoredTo : Prop :=
  (∀ (i : Instr) (s t : State), exec i s = .next t → i.isCall = false → ∀ addr ∈ i.storedBytes s,
    addr ≠ s.nextPc i.length ∧ addr ≠ s.nextPc i.length + 1#16) ∧
  (∀ (s : State) (next addr v : Word), inPrefetchWindow next addr = true →
    s.store16 (some next) addr v = .refused .prefetchHazard) ∧
  (∀ (s : State) (next addr : Word) (v : Byte), inPrefetchWindow next addr = true →
    s.store8 (some next) addr v = .refused .prefetchHazard)

/-- No step changes a byte of ROM (R60, R277 E3). -/
def Obligations.RomNeverChanges : Prop :=
  ∀ (s t : State) (addr : Word), step s = .next t → s.siteOf addr = .mapped .rom → t.peek addr = s.peek addr

/-! ## The invariant and what no step changes -/

/-- Every step keeps the invariant: memory stays in canonical form and holds bytes only where RAM or ROM is, never at the mirror (R21, R41,
R60). -/
def Obligations.StepKeepsInvariant : Prop :=
  ∀ s t : State, s.Inv → step s = .next t → t.Inv

/-- The reset state meets the invariant and has the reset values of R38: the registers 0, PS 0030, nothing in memory. Its PC, 8000, is the
model's choice (log 2), as is its device (log 3). -/
def Obligations.ResetMeetsInvariant : Prop :=
  State.reset.Inv ∧ State.reset.a = 0#16 ∧ State.reset.t = 0#16 ∧ State.reset.ix = 0#16 ∧ State.reset.ep = 0#16 ∧
  State.reset.sp = 0#16 ∧ State.reset.ps.toWord = 0x0030#16 ∧ State.reset.ps.i = false ∧ State.reset.ps.il = 3#2 ∧
  State.reset.pc = 0x8000#16 ∧ State.reset.mem = []

/-- No step changes the device parameters (R37). One boundary input is used up (D23, log 19), what was delivered to the environment stays
delivered, and the count of free values drawn never goes down (the model's own fields, log 8, log 15, log 16). A request that is pending or
presented stays pending until a reset step or a CPU write to an I/O register (R273; that any such write may clear it is the model's
reading, log 35), and a reset step leaves none. -/
def Obligations.StepKeepsDeviceAndHistory : Prop :=
  ∀ s t : State, step s = .next t →
    t.device = s.device ∧ t.inputs = s.inputs.tail ∧ s.ioLog <+: t.ioLog ∧ s.draws ≤ t.draws ∧
    (s.presented ≠ .reset → (∀ acc ∈ t.ioLog.drop s.ioLog.length, acc.direction = .read) →
      ∀ r : IrqRequest, r ∈ s.pending ∨ s.presented = .request r.number r.level → r ∈ t.pending) ∧
    (s.presented = .reset → t.pending = [])

/-! ## Who writes what -/

/-- A: AH is changed by the word instructions R39 lists only, AL by those and the byte instructions (R14, R157). -/
def Obligations.AccumulatorWriters : Prop :=
  ∀ (i : Instr) (s t : State), exec i s = .next t → i.writesAllOfA = false →
    hiByte t.a = hiByte s.a ∧ (i.writesAlOnly = false → t.a = s.a)

/-- T is written by the loads into A, the exchanges with T and DIVU, and by nothing else (R17); the byte ones leave TH. -/
def Obligations.TemporaryAccumulatorWriters : Prop :=
  ∀ (i : Instr) (s t : State), exec i s = .next t →
    (i.writesT = false → t.t = s.t) ∧
    (i.isByteLoad = true → t.t = hiByte s.t ++ loByte s.a) ∧
    (i.isWordLoad = true → t.t = s.a)

/-- IX, EP and SP change in the instructions R16, R18, R19 and R39 list only: no addressing mode modifies its base (R51). -/
def Obligations.PointerRegisterWriters : Prop :=
  ∀ (i : Instr) (s t : State), exec i s = .next t →
    (i.writesIx = false → t.ix = s.ix) ∧ (i.writesEp = false → t.ep = s.ep) ∧ (i.writesSp = false → t.sp = s.sp)

/-- I and IL change in SETI, CLRI, MOVW PS,A and RETI only (R24, R25), and SETI and CLRI leave IL. Those four, and no others, also record I
and IL of before in the model's field for `irq_mask_latency` (R264; D7, log 18). -/
def Obligations.InterruptMaskWriters : Prop :=
  ∀ (i : Instr) (s t : State), exec i s = .next t →
    (i.writesMask = false → t.ps.i = s.ps.i ∧ t.maskBefore = s.maskBefore) ∧
    (i.loadsPs = false → t.ps.il = s.ps.il) ∧
    (i.writesMask = true → t.maskBefore = some ⟨s.ps.i, s.ps.il⟩)

/-- RP and DP change in MOVW PS,A, RETI and stores to 0078 only (R32, R33). -/
def Obligations.BankPointerWriters : Prop :=
  ∀ (i : Instr) (s t : State), exec i s = .next t → i.loadsPs = false → 0x0078#16 ∉ i.storedBytes s →
    t.ps.rp = s.ps.rp ∧ t.ps.dp = s.ps.dp

/-- H changes in the instructions the policy of R23 lists only (D3, log 7). -/
def Obligations.HalfCarryWriters : Prop :=
  ∀ (i : Instr) (s t : State), exec i s = .next t → i.writesH = false → t.ps.h = s.ps.h

/-- N, Z, V and C change in the instructions whose rules write them only (R26 to R29, R100 (c)). -/
def Obligations.FlagWriters : Prop :=
  ∀ (i : Instr) (s t : State), exec i s = .next t →
    (i.writesN = false → t.ps.n = s.ps.n) ∧ (i.writesZ = false → t.ps.z = s.ps.z) ∧
    (i.writesV = false → t.ps.v = s.ps.v) ∧ (i.writesC = false → t.ps.c = s.ps.c)

/-! ## The adders -/

/-- The adders in full (R150 to R153): the result modulo the width, with C the carry or the borrow out of it and H the carry or borrow of the
lower four bits; N its top bit, Z whether it is 0; and V from the signs of the operands and the result. The definition of V is the spec's
decision D20 (log 21), that H takes the carry in into account its decision D3 (log 7). -/
def Obligations.OverflowIsTheSignRule : Prop :=
  (∀ (a b : Byte) (cin : Bool),
    (add8 a b cin).r = a + b + BitVec.ofNat 8 cin.toNat ∧
    (add8 a b cin).r.toNat + 256 * (add8 a b cin).c.toNat = a.toNat + b.toNat + cin.toNat ∧
    (add8 a b cin).r.toNat % 16 + 16 * (add8 a b cin).h.toNat = a.toNat % 16 + b.toNat % 16 + cin.toNat ∧
    (add8 a b cin).n = (add8 a b cin).r.msb ∧ ((add8 a b cin).z = true ↔ (add8 a b cin).r = 0#8) ∧
    (add8 a b cin).v = (a.msb == b.msb && (add8 a b cin).r.msb != a.msb) ∧
    (sub8 a b cin).r = a - b - BitVec.ofNat 8 cin.toNat ∧
    (sub8 a b cin).r.toNat + b.toNat + cin.toNat = a.toNat + 256 * (sub8 a b cin).c.toNat ∧
    (sub8 a b cin).r.toNat % 16 + b.toNat % 16 + cin.toNat = a.toNat % 16 + 16 * (sub8 a b cin).h.toNat ∧
    (sub8 a b cin).n = (sub8 a b cin).r.msb ∧ ((sub8 a b cin).z = true ↔ (sub8 a b cin).r = 0#8) ∧
    (sub8 a b cin).v = (a.msb != b.msb && (sub8 a b cin).r.msb != a.msb)) ∧
  (∀ (a b : Word) (cin : Bool),
    (add16 a b cin).r = a + b + BitVec.ofNat 16 cin.toNat ∧
    (add16 a b cin).r.toNat + 65536 * (add16 a b cin).c.toNat = a.toNat + b.toNat + cin.toNat ∧
    (add16 a b cin).n = (add16 a b cin).r.msb ∧ ((add16 a b cin).z = true ↔ (add16 a b cin).r = 0#16) ∧
    (add16 a b cin).v = (a.msb == b.msb && (add16 a b cin).r.msb != a.msb) ∧
    (sub16 a b cin).r = a - b - BitVec.ofNat 16 cin.toNat ∧
    (sub16 a b cin).r.toNat + b.toNat + cin.toNat = a.toNat + 65536 * (sub16 a b cin).c.toNat ∧
    (sub16 a b cin).n = (sub16 a b cin).r.msb ∧ ((sub16 a b cin).z = true ↔ (sub16 a b cin).r = 0#16) ∧
    (sub16 a b cin).v = (a.msb != b.msb && (sub16 a b cin).r.msb != a.msb))

/-- After CMP A,#d8 the branches order the operands: BC is taken when AL is the lower unsigned, BZ when they are equal, BLT when AL is the
less signed (R151, R191, R226, R228, R232; V by D20, log 21). -/
def Obligations.CompareThenBranchOrders : Prop :=
  ∀ (s : State) (d8 rel : Byte), ∃ t, exec (.cmpAImm d8) s = .next t ∧
    exec (.bc rel) t = .next { t with pc := if (loByte s.a).toNat < d8.toNat then t.relTarget 2 rel else t.nextPc 2 } ∧
    exec (.bz rel) t = .next { t with pc := if loByte s.a = d8 then t.relTarget 2 rel else t.nextPc 2 } ∧
    exec (.blt rel) t = .next { t with pc := if (loByte s.a).toInt < d8.toInt then t.relTarget 2 rel else t.nextPc 2 }

/-- Decimal arithmetic comes out right: ADDC A,#d8 then DAA on two decimal bytes gives the two digits of the sum and its carry; SUBC A,#d8
then DAS gives the two digits of the difference and its borrow (R160, R161, R168, R196, R197; H with the carry in is the spec's reading D3, log 7). -/
def Obligations.DecimalArithmeticIsCorrect : Prop :=
  ∀ (s : State) (y : Byte), isBcd (loByte s.a) = true → isBcd y = true →
    (∃ t u, exec (.addcAImm y) s = .next t ∧ exec .daa t = .next u ∧ isBcd (loByte u.a) = true ∧
      bcdValue (loByte u.a) = (bcdValue (loByte s.a) + bcdValue y + s.ps.c.toNat) % 100 ∧
      u.ps.c = decide (100 ≤ bcdValue (loByte s.a) + bcdValue y + s.ps.c.toNat)) ∧
    (∃ t u, exec (.subcAImm y) s = .next t ∧ exec .das t = .next u ∧ isBcd (loByte u.a) = true ∧
      bcdValue (loByte u.a) = (bcdValue (loByte s.a) + 100 - bcdValue y - s.ps.c.toNat) % 100 ∧
      u.ps.c = decide (bcdValue (loByte s.a) < bcdValue y + s.ps.c.toNat))

/-! ## What each instruction does, and when it completes

Each names its instructions and gives the whole next state, so that it is the frame as well. -/

/-- Byte stores: AL, the immediate or TL goes to the operand's address; PC moves on; nothing else changes (R101 to R105, R113 to R116, R134). -/
def Obligations.ByteStores : Prop :=
  ∀ s : State,
    (∀ d, CompletesStoring (.movDirA d) s (s.addrOf (.dir d)) (loByte s.a)) ∧
    (∀ off, CompletesStoring (.movAtIxA off) s (s.addrOf (.ix off)) (loByte s.a)) ∧
    (∀ e, CompletesStoring (.movExtA e) s (s.addrOf (.ext e)) (loByte s.a)) ∧
    CompletesStoring .movAtEpA s (s.addrOf .ep) (loByte s.a) ∧
    (∀ r, CompletesStoring (.movRiA r) s (s.addrOf (.reg r)) (loByte s.a)) ∧
    (∀ d d8, CompletesStoring (.movDirImm d d8) s (s.addrOf (.dir d)) d8) ∧
    (∀ off d8, CompletesStoring (.movAtIxImm off d8) s (s.addrOf (.ix off)) d8) ∧
    (∀ d8, CompletesStoring (.movAtEpImm d8) s (s.addrOf .ep) d8) ∧
    (∀ r d8, CompletesStoring (.movRiImm r d8) s (s.addrOf (.reg r)) d8) ∧
    CompletesStoring .movAtAT s (s.addrOf .atA) (loByte s.t)

/-- Byte loads: AL takes the byte, TL the old AL, N and Z the byte's sign and zero; AH, TH, V, C, H stay (R106 to R112). -/
def Obligations.ByteLoads : Prop :=
  ∀ s : State,
    (∀ d8, exec (.movAImm d8) s = .next (byteLoaded 2 d8 s)) ∧
    (∀ d, CompletesReading (.movADir d) s (s.addrOf (.dir d)) (byteLoaded 2)) ∧
    (∀ off, CompletesReading (.movAAtIx off) s (s.addrOf (.ix off)) (byteLoaded 2)) ∧
    (∀ e, CompletesReading (.movAExt e) s (s.addrOf (.ext e)) (byteLoaded 3)) ∧
    CompletesReading .movAAtA s (s.addrOf .atA) (byteLoaded 1) ∧
    CompletesReading .movAAtEp s (s.addrOf .ep) (byteLoaded 1) ∧
    (∀ r, CompletesReading (.movARi r) s (s.addrOf (.reg r)) (byteLoaded 1))

/-- Word stores: the upper byte at the operand's address, then the lower byte after it (R117 to R120, R135). A direct operand whose
word would cross the edge of a bank, FF, or 7F with DP not 0, is refused (R58; the spec's decision D6, log 13). -/
def Obligations.WordStores : Prop :=
  ∀ s : State,
    (∀ d : Byte, if d = 0xFF#8 ∨ (d = 0x7F#8 ∧ s.ps.dp ≠ 0#3) then
        exec (.movwDirA d) s = .refused .dirWordCrossesBank
      else CompletesStoringWord (.movwDirA d) s (s.addrOf (.dir d)) s.a) ∧
    (∀ off, CompletesStoringWord (.movwAtIxA off) s (s.addrOf (.ix off)) s.a) ∧
    (∀ e, CompletesStoringWord (.movwExtA e) s (s.addrOf (.ext e)) s.a) ∧
    CompletesStoringWord .movwAtEpA s (s.addrOf .ep) s.a ∧
    CompletesStoringWord .movwAtAT s (s.addrOf .atA) s.t

/-- Word loads: A takes the word, T the old A, N and Z the word's sign and zero (R122 to R127). A direct operand at the edge of a bank is
refused (R58; D6, log 13). -/
def Obligations.WordLoads : Prop :=
  ∀ s : State,
    (∀ d16, exec (.movwAImm d16) s = .next (wordLoaded 3 d16 s)) ∧
    (∀ d : Byte, if d = 0xFF#8 ∨ (d = 0x7F#8 ∧ s.ps.dp ≠ 0#3) then
        exec (.movwADir d) s = .refused .dirWordCrossesBank
      else CompletesReadingWord (.movwADir d) s (s.addrOf (.dir d)) (wordLoaded 2)) ∧
    (∀ off, CompletesReadingWord (.movwAAtIx off) s (s.addrOf (.ix off)) (wordLoaded 2)) ∧
    (∀ e, CompletesReadingWord (.movwAExt e) s (s.addrOf (.ext e)) (wordLoaded 3)) ∧
    CompletesReadingWord .movwAAtA s (s.addrOf .atA) (wordLoaded 1) ∧
    CompletesReadingWord .movwAAtEp s (s.addrOf .ep) (wordLoaded 1)

/-- Moves between A, the pointer registers, PC and immediates: no flag changes, and T does not take the old A (R121, R128 to R133, R136, R139,
R148). The next PC is taken modulo 2^16 (D6, log 9). -/
def Obligations.RegisterMoves : Prop :=
  ∀ s : State,
    exec .movwEpA s = .next { s with ep := s.a, pc := s.nextPc 1 } ∧
    exec .movwAEp s = .next { s with a := s.ep, pc := s.nextPc 1 } ∧
    (∀ w, exec (.movwEpImm w) s = .next { s with ep := w, pc := s.nextPc 3 }) ∧
    exec .movwIxA s = .next { s with ix := s.a, pc := s.nextPc 1 } ∧
    exec .movwAIx s = .next { s with a := s.ix, pc := s.nextPc 1 } ∧
    exec .movwSpA s = .next { s with sp := s.a, pc := s.nextPc 1 } ∧
    exec .movwASp s = .next { s with a := s.sp, pc := s.nextPc 1 } ∧
    (∀ w, exec (.movwIxImm w) s = .next { s with ix := w, pc := s.nextPc 3 }) ∧
    (∀ w, exec (.movwSpImm w) s = .next { s with sp := w, pc := s.nextPc 3 }) ∧
    exec .movwAPc s = .next { s with a := s.pc + 1#16, pc := s.pc + 1#16 }

/-- MOVW A,PS copies PS into A; MOVW PS,A copies A into PS, all sixteen bits (R137, R138); the one then the other gives PS back. MOVW PS,A
also records the old I and IL in the model's field for a device whose `irq_mask_latency` is 1 (R264; D7, log 18). -/
def Obligations.StatusMoves : Prop :=
  ∀ s : State,
    exec .movwAPs s = .next { s with a := s.ps.toWord, pc := s.nextPc 1 } ∧
    (∃ p : Status, p.toWord = s.a ∧
      exec .movwPsA s = .next { s with ps := p, pc := s.nextPc 1, maskBefore := some ⟨s.ps.i, s.ps.il⟩ }) ∧
    (∀ t, exec .movwAPs s = .next t → ∃ u, exec .movwPsA t = .next u ∧ u.ps = s.ps)

/-- The exchanges: SWAP of AH and AL; A or AL with T or TL; A with EP, IX, SP. No flag changes (R140, R143 to R147). -/
def Obligations.Exchanges : Prop :=
  ∀ s : State,
    exec .swap s = .next { s with a := loByte s.a ++ hiByte s.a, pc := s.nextPc 1 } ∧
    exec .xchAT s =
      .next { s with a := hiByte s.a ++ loByte s.t, t := hiByte s.t ++ loByte s.a, pc := s.nextPc 1 } ∧
    exec .xchwAT s = .next { s with a := s.t, t := s.a, pc := s.nextPc 1 } ∧
    exec .xchwAEp s = .next { s with a := s.ep, ep := s.a, pc := s.nextPc 1 } ∧
    exec .xchwAIx s = .next { s with a := s.ix, ix := s.a, pc := s.nextPc 1 } ∧
    exec .xchwASp s = .next { s with a := s.sp, sp := s.a, pc := s.nextPc 1 }

/-- SETB and CLRB: the byte is read with the RMW mark, its bit b set or cleared, the other seven written back as read (R48, R141, R142). -/
def Obligations.BitSetAndClear : Prop :=
  ∀ (s : State) (d : Byte) (b : BitVec 3), s.readable (s.addrOf (.dir d)) = true →
    s.storable (s.nextPc 2) (s.addrOf (.dir d)) = true →
    (∃ v s1 w s2, s.readAs true (s.addrOf (.dir d)) = .next (v, s1) ∧
      (∀ k, k < 8 → w.getLsbD k = (decide (k = b.toNat) || v.getLsbD k)) ∧
      s1.write8 (s.addrOf (.dir d)) w = .next s2 ∧ exec (.setb d b) s = .next { s2 with pc := s.nextPc 2 }) ∧
    (∃ v s1 w s2, s.readAs true (s.addrOf (.dir d)) = .next (v, s1) ∧
      (∀ k, k < 8 → w.getLsbD k = (!decide (k = b.toNat) && v.getLsbD k)) ∧
      s1.write8 (s.addrOf (.dir d)) w = .next s2 ∧ exec (.clrb d b) s = .next { s2 with pc := s.nextPc 2 })

/-- ADDC and SUBC of bytes: AL and the source with the carry through Add8 or Sub8 into AL, H, N, Z, V, C; AL is the minuend, but in SUBC A
TL is (R150, R151, R160 to R164, R166 to R171, R173). -/
def Obligations.ByteAddAndSubtract : Prop :=
  ∀ s : State,
    SourceForms .addcARi .addcAImm .addcADir .addcAAtIx .addcAAtEp s
      (fun len v u => byteResult len (add8 (loByte u.a) v u.ps.c) u) ∧
    exec .addcA s = .next (byteResult 1 (add8 (loByte s.a) (loByte s.t) s.ps.c) s) ∧
    SourceForms .subcARi .subcAImm .subcADir .subcAAtIx .subcAAtEp s
      (fun len v u => byteResult len (sub8 (loByte u.a) v u.ps.c) u) ∧
    exec .subcA s = .next (byteResult 1 (sub8 (loByte s.t) (loByte s.a) s.ps.c) s)

/-- ADDCW, SUBCW and CMPW: A and T through Add16 or Sub16, T the minuend; N, Z, V, C written, H free; CMPW writes no register (R152, R153, R165,
R172, R188). -/
def Obligations.WordAddSubtractCompare : Prop :=
  ∀ s : State,
    exec .addcwA s = .next (wordResult (add16 s.a s.t s.ps.c) s) ∧
    exec .subcwA s = .next (wordResult (sub16 s.t s.a s.ps.c) s) ∧
    exec .cmpwA s = .next { wordResult (sub16 s.t s.a false) s with a := s.a }

/-- INC and DEC of a register: the byte is read with the RMW mark and stored one more or one less; N, Z, V of the result, V 1 exactly when 7F
becomes 80 or 80 becomes 7F; C stays, H is free (R48, R174, R178). -/
def Obligations.CountRegister : Prop :=
  ∀ (s : State) (r : BitVec 3), s.readable (s.addrOf (.reg r)) = true →
    s.storable (s.nextPc 1) (s.addrOf (.reg r)) = true →
    (∃ v s1 s2, s.readAs true (s.addrOf (.reg r)) = .next (v, s1) ∧
      s1.write8 (s.addrOf (.reg r)) (v + 1#8) = .next s2 ∧
      exec (.incRi r) s = .next { flagsFreeH (v + 1#8).msb (decide (v = 0xFF#8)) (decide (v = 0x7F#8)) s2.ps.c s2 with
        pc := s.nextPc 1 }) ∧
    (∃ v s1 s2, s.readAs true (s.addrOf (.reg r)) = .next (v, s1) ∧
      s1.write8 (s.addrOf (.reg r)) (v - 1#8) = .next s2 ∧
      exec (.decRi r) s = .next { flagsFreeH (v - 1#8).msb (decide (v = 0x01#8)) (decide (v = 0x80#8)) s2.ps.c s2 with
        pc := s.nextPc 1 })

/-- INCW and DECW of EP, IX and SP change no flag; of A they write N and Z, leave V and C, and H is free (R175 to R177, R179 to R181,
R220, R221). The counts wrap modulo 2^16 (D6, log 9). -/
def Obligations.CountWords : Prop :=
  ∀ s : State,
    exec .incwEp s = .next { s with ep := s.ep + 1#16, pc := s.nextPc 1 } ∧
    exec .incwIx s = .next { s with ix := s.ix + 1#16, pc := s.nextPc 1 } ∧
    exec .incwSp s = .next { s with sp := s.sp + 1#16, pc := s.nextPc 1 } ∧
    exec .decwEp s = .next { s with ep := s.ep - 1#16, pc := s.nextPc 1 } ∧
    exec .decwIx s = .next { s with ix := s.ix - 1#16, pc := s.nextPc 1 } ∧
    exec .decwSp s = .next { s with sp := s.sp - 1#16, pc := s.nextPc 1 } ∧
    exec .incwA s = .next { flagsFreeH (s.a + 1#16).msb (decide (s.a = 0xFFFF#16)) s.ps.v s.ps.c s with
      a := s.a + 1#16, pc := s.nextPc 1 } ∧
    exec .decwA s = .next { flagsFreeH (s.a - 1#16).msb (decide (s.a = 1#16)) s.ps.v s.ps.c s with
      a := s.a - 1#16, pc := s.nextPc 1 }

/-- MULU: A is the exact product of AL and TL; N, Z, V, C stay. DIVU: A and T are the quotient and the remainder of T by A, Z 0; by zero A and T
are free words and Z is 1 (D5, log 23). H is free in both (R182, R183). -/
def Obligations.MultiplyAndDivide : Prop :=
  ∀ s : State,
    (∃ p : Word, p.toNat = (loByte s.a).toNat * (loByte s.t).toNat ∧
      exec .mulu s = .next { flagsFreeH s.ps.n s.ps.z s.ps.v s.ps.c s with a := p, pc := s.nextPc 1 }) ∧
    (s.a ≠ 0#16 → ∃ q m : Word, q.toNat * s.a.toNat + m.toNat = s.t.toNat ∧ m.toNat < s.a.toNat ∧
      exec .divu s = .next { flagsFreeH s.ps.n false s.ps.v s.ps.c s with a := q, t := m, pc := s.nextPc 1 }) ∧
    (s.a = 0#16 → ∃ q m : Word, ∃ u : State, exec .divu s = .next u ∧
      u = { s with a := q, t := m, ps := { s.ps with z := true, h := u.ps.h }, pc := s.nextPc 1, draws := u.draws })

/-- AND, OR and XOR: bytes into AL, words of A and T into A; N and Z of the result, V 0, C and H stay (R155, R184 to R186, R198 to R215). -/
def Obligations.Logic : Prop :=
  ∀ s : State,
    SourceForms .andARi .andAImm .andADir .andAAtIx .andAAtEp s (fun len v u => logicResult len (loByte u.a &&& v) u) ∧
    exec .andA s = .next (logicResult 1 (loByte s.a &&& loByte s.t) s) ∧
    SourceForms .orARi .orAImm .orADir .orAAtIx .orAAtEp s (fun len v u => logicResult len (loByte u.a ||| v) u) ∧
    exec .orA s = .next (logicResult 1 (loByte s.a ||| loByte s.t) s) ∧
    SourceForms .xorARi .xorAImm .xorADir .xorAAtIx .xorAAtEp s (fun len v u => logicResult len (loByte u.a ^^^ v) u) ∧
    exec .xorA s = .next (logicResult 1 (loByte s.a ^^^ loByte s.t) s) ∧
    exec .andwA s = .next (wordLogicResult (s.a &&& s.t) s) ∧
    exec .orwA s = .next (wordLogicResult (s.a ||| s.t) s) ∧
    exec .xorwA s = .next (wordLogicResult (s.a ^^^ s.t) s)

/-- The compares of bytes: N, Z, V, C of the first operand less the second, H free, nothing else written; TL less AL in CMP A, AL less the
source, the memory byte less the immediate (R151, R187, R191 to R195, R216 to R219). -/
def Obligations.ByteCompares : Prop :=
  ∀ s : State,
    exec .cmpA s = .next (compared 1 (loByte s.t) (loByte s.a) s) ∧
    SourceForms .cmpARi .cmpAImm .cmpADir .cmpAAtIx .cmpAAtEp s (fun len v u => compared len (loByte u.a) v u) ∧
    (∀ d d8, CompletesReading (.cmpDirImm d d8) s (s.addrOf (.dir d)) (fun v u => compared 3 v d8 u)) ∧
    (∀ d8, CompletesReading (.cmpAtEpImm d8) s (s.addrOf .ep) (fun v u => compared 2 v d8 u)) ∧
    (∀ off d8, CompletesReading (.cmpAtIxImm off d8) s (s.addrOf (.ix off)) (fun v u => compared 3 v d8 u)) ∧
    (∀ r d8, CompletesReading (.cmpRiImm r d8) s (s.addrOf (.reg r)) (fun v u => compared 2 v d8 u))

/-- RORC and ROLC turn the nine bits of C and AL by one place: N and Z of the new AL, AH, V and H stay (R189, R190). -/
def Obligations.Rotates : Prop :=
  ∀ s : State,
    (∃ r : Byte, 2 * r.toNat + (loByte s.a).toNat % 2 = 256 * s.ps.c.toNat + (loByte s.a).toNat ∧
      exec .rorc s = .next { s with
          a := hiByte s.a ++ r, pc := s.nextPc 1,
          ps := { s.ps with n := r.msb, z := decide (r = 0#8), c := decide ((loByte s.a).toNat % 2 = 1) } }) ∧
    (∃ r : Byte, r.toNat + 256 * ((loByte s.a).toNat / 128) = 2 * (loByte s.a).toNat + s.ps.c.toNat ∧
      exec .rolc s = .next { s with
          a := hiByte s.a ++ r, pc := s.nextPc 1,
          ps := { s.ps with n := r.msb, z := decide (r = 0#8), c := decide (128 ≤ (loByte s.a).toNat) } })

/-- DAA adds the correction of its row of Table 6-12, whose nine rows are written out here, and takes C from it; where no row matches, which
is H = 1 with a lower digit above 3, C = 1 and H = 0 with an upper digit above 2, or C = 1 and H = 1 with one above 3, AL and N, Z, V, C are free
(D4, log 22). DAS subtracts the correction of Table 6-14 and keeps C. H stays in both; V is that of the correction (D21, log 21) (R196,
R197). -/
def Obligations.DecimalAdjusts : Prop :=
  ∀ s : State,
    (∀ (hi lo : Nat) (corr : Byte) (after : Bool), hi = (loByte s.a).toNat / 16 → lo = (loByte s.a).toNat % 16 →
      (s.ps.c = false ∧ hi ≤ 0x9 ∧ s.ps.h = false ∧ lo ≤ 0x9 ∧ corr = 0x00#8 ∧ after = false ∨
       s.ps.c = false ∧ hi ≤ 0x8 ∧ s.ps.h = false ∧ 0xA ≤ lo ∧ corr = 0x06#8 ∧ after = false ∨
       s.ps.c = false ∧ hi ≤ 0x9 ∧ s.ps.h = true ∧ lo ≤ 0x3 ∧ corr = 0x06#8 ∧ after = false ∨
       s.ps.c = false ∧ 0xA ≤ hi ∧ s.ps.h = false ∧ lo ≤ 0x9 ∧ corr = 0x60#8 ∧ after = true ∨
       s.ps.c = false ∧ 0x9 ≤ hi ∧ s.ps.h = false ∧ 0xA ≤ lo ∧ corr = 0x66#8 ∧ after = true ∨
       s.ps.c = false ∧ 0xA ≤ hi ∧ s.ps.h = true ∧ lo ≤ 0x3 ∧ corr = 0x66#8 ∧ after = true ∨
       s.ps.c = true ∧ hi ≤ 0x2 ∧ s.ps.h = false ∧ lo ≤ 0x9 ∧ corr = 0x60#8 ∧ after = true ∨
       s.ps.c = true ∧ hi ≤ 0x2 ∧ s.ps.h = false ∧ 0xA ≤ lo ∧ corr = 0x66#8 ∧ after = true ∨
       s.ps.c = true ∧ hi ≤ 0x3 ∧ s.ps.h = true ∧ lo ≤ 0x3 ∧ corr = 0x66#8 ∧ after = true) →
      ∃ o, o = add8 (loByte s.a) corr false ∧
      exec .daa s = .next { s with
          a := hiByte s.a ++ o.r, pc := s.nextPc 1,
          ps := { s.ps with n := o.n, z := o.z, v := o.v, c := after } }) ∧
    (∀ hi lo : Nat, hi = (loByte s.a).toNat / 16 → lo = (loByte s.a).toNat % 16 →
      (s.ps.h = true ∧ 0x4 ≤ lo ∨ s.ps.c = true ∧ s.ps.h = false ∧ 0x3 ≤ hi ∨ s.ps.c = true ∧ s.ps.h = true ∧ 0x4 ≤ hi) →
      ∃ r : Byte, ∃ u : State, exec .daa s = .next u ∧
      u = { s with
          a := hiByte s.a ++ r, pc := s.nextPc 1, draws := u.draws,
          ps := { s.ps with n := u.ps.n, z := u.ps.z, v := u.ps.v, c := u.ps.c } }) ∧
    (∃ o, o = sub8 (loByte s.a)
        ((if s.ps.c then 0x60#8 else 0x00#8) + (if s.ps.h then 0x06#8 else 0x00#8)) false ∧
      exec .das s = .next { s with
          a := hiByte s.a ++ o.r, pc := s.nextPc 1,
          ps := { s.ps with n := o.n, z := o.z, v := o.v } })

/-- The conditional branches: PC goes to the address after the branch plus the signed operand when the condition on Z, C, N or on V and N
holds, else to the address after; no flag changes (R225 to R233). Addresses wrap modulo 2^16 (D6, log 9). -/
def Obligations.ConditionalBranches : Prop :=
  ∀ (s : State) (rel : Byte),
    exec (.bz rel) s = .next { s with pc := if s.ps.z = true then s.pc + 2#16 + rel.signExtend 16 else s.pc + 2#16 } ∧
    exec (.bnz rel) s = .next { s with pc := if s.ps.z = false then s.pc + 2#16 + rel.signExtend 16 else s.pc + 2#16 } ∧
    exec (.bc rel) s = .next { s with pc := if s.ps.c = true then s.pc + 2#16 + rel.signExtend 16 else s.pc + 2#16 } ∧
    exec (.bnc rel) s = .next { s with pc := if s.ps.c = false then s.pc + 2#16 + rel.signExtend 16 else s.pc + 2#16 } ∧
    exec (.bn rel) s = .next { s with pc := if s.ps.n = true then s.pc + 2#16 + rel.signExtend 16 else s.pc + 2#16 } ∧
    exec (.bp rel) s = .next { s with pc := if s.ps.n = false then s.pc + 2#16 + rel.signExtend 16 else s.pc + 2#16 } ∧
    exec (.blt rel) s = .next { s with pc := if s.ps.v ≠ s.ps.n then s.pc + 2#16 + rel.signExtend 16 else s.pc + 2#16 } ∧
    exec (.bge rel) s = .next { s with pc := if s.ps.v = s.ps.n then s.pc + 2#16 + rel.signExtend 16 else s.pc + 2#16 }

/-- BBC and BBS: Z becomes the complement of bit b of the direct byte; BBC branches when the bit is 0, BBS when it is 1 (R234, R235). -/
def Obligations.BitBranches : Prop :=
  ∀ (s : State) (d : Byte) (b : BitVec 3) (rel : Byte),
    CompletesReading (.bbc d b rel) s (s.addrOf (.dir d)) (fun v u =>
      { u with ps := { u.ps with z := !v.getLsbD b.toNat },
               pc := if v.getLsbD b.toNat = false then s.pc + 3#16 + rel.signExtend 16 else s.pc + 3#16 }) ∧
    CompletesReading (.bbs d b rel) s (s.addrOf (.dir d)) (fun v u =>
      { u with ps := { u.ps with z := !v.getLsbD b.toNat },
               pc := if v.getLsbD b.toNat = true then s.pc + 3#16 + rel.signExtend 16 else s.pc + 3#16 })

/-- R236 and R237: JMP @A, encoded E0, puts A into PC; JMP ext, encoded 21 with the upper byte first, puts ext into PC; nothing else
changes. -/
def Obligations.JumpsGoToTheirTarget : Prop :=
  ∀ (s : State) (e : Word),
    encode .jmpAtA = [0xE0#8] ∧ exec .jmpAtA s = .next { s with pc := s.a } ∧
    encode (.jmpExt e) = [0x21#8, hiByte e, loByte e] ∧ exec (.jmpExt e) s = .next { s with pc := e }

/-- CALL and CALLV push the address of the next instruction and go to ext or to the vector's word, which is read before the push; their push
is in no prefetch window. XCHW A,PC exchanges A with the address of the next instruction (R55, R238 to R240, R310). -/
def Obligations.Calls : Prop :=
  ∀ s : State,
    (∀ e, s.writable (s.sp - 1#16) = true → s.writable (s.sp - 2#16) = true →
      ∃ t, Pushes s (s.pc + 3#16) t ∧ exec (.call e) s = .next { t with pc := e }) ∧
    (∀ k, s.readable16 (callvVectorAddr k) = true → s.writable (s.sp - 1#16) = true → s.writable (s.sp - 2#16) = true →
      ∃ target s1 t, s.read16 (callvVectorAddr k) = .next (target, s1) ∧ Pushes s1 (s.pc + 1#16) t ∧
        exec (.callv k) s = .next { t with pc := target }) ∧
    exec .xchwAPc s = .next { s with a := s.pc + 1#16, pc := s.a }

/-- RET takes PC from the word at SP, SP plus 2. RETI takes PS from the word at SP and PC from the word at SP + 2, SP plus 4 (R56, R241, R242,
R268). All four bytes of RETI are read with the PS of before it (D18, log 25), and it records the old I and IL in the model's field for a
device whose `irq_mask_latency` is 1 (R264; D7, log 18). -/
def Obligations.Returns : Prop :=
  ∀ s : State,
    (s.readable16 s.sp = true → ∃ target s1, s.read16 s.sp = .next (target, s1) ∧
      exec .ret s = .next { s1 with pc := target, sp := s.sp + 2#16 }) ∧
    (s.readable16 s.sp = true → s.readable16 (s.sp + 2#16) = true →
      ∃ (p : Status) (s1 : State) (target : Word) (s2 : State), s.read16 s.sp = .next (p.toWord, s1) ∧
        s1.read16 (s.sp + 2#16) = .next (target, s2) ∧
        exec .reti s = .next { s2 with ps := p, pc := target, sp := s.sp + 4#16, maskBefore := some ⟨s.ps.i, s.ps.il⟩ })

/-- PUSHW and POPW of A and IX: the word, lower byte first, below SP, or the word at SP; SP moves by 2; no flag changes, and POPW A
leaves T (R55, R56, R245 to R248). -/
def Obligations.PushesAndPops : Prop :=
  ∀ s : State,
    (s.storable (s.nextPc 1) (s.sp - 1#16) = true → s.storable (s.nextPc 1) (s.sp - 2#16) = true →
      (∃ t, Pushes s s.a t ∧ exec .pushwA s = .next { t with pc := s.nextPc 1 }) ∧
      (∃ t, Pushes s s.ix t ∧ exec .pushwIx s = .next { t with pc := s.nextPc 1 })) ∧
    (s.readable16 s.sp = true → ∃ v s1, s.read16 s.sp = .next (v, s1) ∧
      exec .popwA s = .next { s1 with a := v, sp := s.sp + 2#16, pc := s.nextPc 1 } ∧
      exec .popwIx s = .next { s1 with ix := v, sp := s.sp + 2#16, pc := s.nextPc 1 })

/-- NOP, CLRC, SETC, CLRI and SETI: PC moves on; C or I is cleared or set; nothing else changes (R249 to R253). CLRI and SETI also keep the
old I and IL for the acceptance test of a device whose `irq_mask_latency` is 1 (R264, D7, log 18). -/
def Obligations.FlagInstructions : Prop :=
  ∀ s : State,
    exec .nop s = .next { s with pc := s.nextPc 1 } ∧
    exec .clrc s = .next { s with ps := { s.ps with c := false }, pc := s.nextPc 1 } ∧
    exec .setc s = .next { s with ps := { s.ps with c := true }, pc := s.nextPc 1 } ∧
    exec .clri s = .next { s with ps := { s.ps with i := false }, pc := s.nextPc 1, maskBefore := some ⟨s.ps.i, s.ps.il⟩ } ∧
    exec .seti s = .next { s with ps := { s.ps with i := true }, pc := s.nextPc 1, maskBefore := some ⟨s.ps.i, s.ps.il⟩ }

/-- The byte 44 as an op code is refused: it decodes to the reserved constructor, which has no next state from any state (R90; the spec's
decision D2, log 10). -/
def Obligations.ReservedOpcodeIsRefused : Prop :=
  (∀ rest : List Byte, decode (0x44#8 :: rest) = .ok (.unassigned, rest)) ∧
  ∀ s : State, exec .unassigned s = .refused .unassignedOpcode44

/-! ## Steps -/

/-- A step runs the instruction whose bytes are at PC, from the state with the boundary's input used up; `exec` moves PC itself. In
general a step that takes no interrupt and no reset is the fetch of R70 followed by `exec`. -/
def Obligations.StepRunsDecodedInstruction : Prop :=
  ∀ s : State, s.runsInstruction →
    (∀ i : Instr, s.holdsAtPc i → step s = exec i s.leaveBoundary) ∧
    step s = s.leaveBoundary.fetch.andThen (fun f => exec f.1 f.2)

/-- The acceptance test (R264, R25): a level below the IL it reads is accepted while the I it reads is 1, a level at or above that IL never is,
so level 3 never and nothing while IL is 0, and nothing is while I is 0; with `irq_mask_latency` 0 it reads the PS of now, with 1 that from
before a SETI, CLRI, MOVW PS,A or RETI just ended (D7, log 18). Right after an entry at a level only a lower one is accepted (R269), and that
only if I was 1, because entry leaves I (D17, log 24). What the environment may not present is refused (R277 E1): a request number the device
does not have (log 17), and, while a request is pending, nothing, a request of lower priority (R265), or its own number at another level,
each of which would withdraw it (R273, log 35). With no input left the environment goes on presenting the request it presented last
(log 16). -/
def Obligations.AcceptanceTest : Prop :=
  (∀ (s : State) (level : BitVec 2),
    s.accepts 3#2 = false ∧
    (s.acceptMask.il.toNat ≤ level.toNat → s.accepts level = false) ∧
    (s.acceptMask.il = 0#2 → s.accepts level = false) ∧
    (s.acceptMask.i = false → s.accepts level = false) ∧
    (s.acceptMask.i = true → level.toNat < s.acceptMask.il.toNat → s.accepts level = true) ∧
    (s.device.irqMaskDelay = false → s.acceptMask = ⟨s.ps.i, s.ps.il⟩) ∧
    (s.maskBefore = none → s.acceptMask = ⟨s.ps.i, s.ps.il⟩) ∧
    (∀ m, s.device.irqMaskDelay = true → s.maskBefore = some m → s.acceptMask = m)) ∧
  (∀ (s t : State) (n : Nat) (level later : BitVec 2), s.maskBefore = none → interruptEntry n level s = .next t →
    t.accepts later = (s.ps.i && decide (later.toNat < level.toNat))) ∧
  (∀ (s : State) (n : Nat) (level : BitVec 2), s.presented = .request n level → s.device.nIrq ≤ n →
    step s = .refused (.requestOutOfRange n)) ∧
  (∀ (s : State) (r : IrqRequest), r ∈ s.pending →
    (s.presented = .quiet → step s = .refused .requestWithdrawn) ∧
    (∀ (n : Nat) (level : BitVec 2), s.presented = .request n level →
      BoundaryInput.wellFormed s.device (.request n level) = true →
      (r.level.toNat < level.toNat ∨ (n = r.number ∧ level ≠ r.level)) → step s = .refused .requestWithdrawn)) ∧
  (∀ (s : State) (r : IrqRequest) (rest : List IrqRequest), s.inputs = [] → s.pending = r :: rest →
    s.presented = .request r.number r.level)

/-- An accepted request is entered: the vector's word is read, PC and then the old PS are pushed, IL becomes the level, PC the vector's word; I
and everything else stay (R266; I by the spec's decision D17, log 24). It completes wherever the vector can be read and the stack
written, and no pending request is withdrawn (R277 E1). -/
def Obligations.AcceptedRequestIsEntered : Prop :=
  ∀ (s : State) (n : Nat) (level : BitVec 2), s.presented = .request n level →
    BoundaryInput.wellFormed s.device (.request n level) = true → s.withdraws = false → s.accepts level = true →
    s.readable16 (irqVectorAddr n) = true → s.writable (s.sp - 1#16) = true → s.writable (s.sp - 2#16) = true →
    s.writable (s.sp - 3#16) = true → s.writable (s.sp - 4#16) = true →
    ∃ target s1 s2 s3, s.leaveBoundary.read16 (irqVectorAddr n) = .next (target, s1) ∧ Pushes s1 s.pc s2 ∧
      Pushes s2 s.ps.toWord s3 ∧ s3.sp = s.sp - 4#16 ∧
      step s = .next { s3 with ps := { s3.ps with il := level }, pc := target }

/-- Entry then RETI on a RAM stack: the frame holds PSH, PSL and the return address from SP up (R266), every other register stays, I among
them (D17, log 24), and RETI gives back PS, PC and SP as they were (R268); it also records I and IL of the handler for a device whose
`irq_mask_latency` is 1 (D7, log 18). Neither clears a pending request, and with `irq_mask_latency` 0 the acceptance test after the RETI
answers for every level as before the entry, so that a request nobody cleared is entered again at once (R273). -/
def Obligations.RetiUndoesInterruptEntry : Prop :=
  ∀ (s t : State) (n : Nat) (level : BitVec 2), s.isRam (s.sp - 1#16) = true → s.isRam (s.sp - 2#16) = true →
    s.isRam (s.sp - 3#16) = true → s.isRam (s.sp - 4#16) = true → interruptEntry n level s = .next t →
    t.sp = s.sp - 4#16 ∧ t.peek t.sp = some s.ps.upper ∧ t.peek (t.sp + 1#16) = some s.ps.ccr ∧
      t.peek (t.sp + 2#16) = some (hiByte s.pc) ∧ t.peek (t.sp + 3#16) = some (loByte s.pc) ∧
      t.a = s.a ∧ t.t = s.t ∧ t.ix = s.ix ∧ t.ep = s.ep ∧ t.ps = { s.ps with il := level } ∧
      (∀ addr : Word, addr ≠ s.sp - 1#16 → addr ≠ s.sp - 2#16 → addr ≠ s.sp - 3#16 → addr ≠ s.sp - 4#16 →
        t.peek addr = s.peek addr) ∧
      ∃ u, u = { t with ps := s.ps, pc := s.pc, sp := s.sp, maskBefore := some ⟨s.ps.i, level⟩ } ∧
        exec .reti t = .next u ∧ u.pending = s.pending ∧
        (s.device.irqMaskDelay = false → ∀ later, u.accepts later = s.accepts later)

/-- A called subroutine that returns at once on a RAM stack comes back to the instruction after the CALL with SP as it was (R239, R241). -/
def Obligations.CallThenReturn : Prop :=
  ∀ (s : State) (e : Word), s.isRam (s.sp - 1#16) = true → s.isRam (s.sp - 2#16) = true →
    ∃ t, exec (.call e) s = .next t ∧ t.pc = e ∧ t.sp = s.sp - 2#16 ∧
      exec .ret t = .next { t with pc := s.pc + 3#16, sp := s.sp }

/-- The reset step: A, T, IX, EP, SP 0, PS 0030, PC the word at FFFE, memory kept, the mode byte at FFFD read and ignored (R38, R300; D13,
log 20). It completes wherever those three bytes can be read, no request is accepted after it (R301), and none stays pending (R273). -/
def Obligations.ResetStepEffect : Prop :=
  ∀ s : State, s.presented = .reset → s.readable 0xFFFD#16 = true → s.readable16 0xFFFE#16 = true →
    ∃ mode s1 start s2 t, s.leaveBoundary.read8 0xFFFD#16 = .next (mode, s1) ∧
      s1.read16 0xFFFE#16 = .next (start, s2) ∧ step s = .next t ∧
      t.a = 0#16 ∧ t.t = 0#16 ∧ t.ix = 0#16 ∧ t.ep = 0#16 ∧ t.sp = 0#16 ∧ t.ps.toWord = 0x0030#16 ∧ t.pc = start ∧
      t.mem = s.mem ∧ t.pending = [] ∧ ∀ level, t.accepts level = false
end

