-- ==== Sys2Proof/Laws/Memory.lean ====
section
/-! SUPPORT. The laws of memory: a read after a write, and the canonical form every operation keeps. -/

namespace Sys2Proof.Machine

/-- What was written is read back. -/
theorem Memory.read_write_same (m : Memory) (a : Nat) (v : Byte) : (m.write a v).read a = some v := by
  induction m with
  | nil => simp [Memory.write, Memory.read]
  | cons c m ih =>
    obtain ⟨k, w⟩ := c
    unfold Memory.write
    split
    · simp [Memory.read]
    · split
      · simp [Memory.read]
      · simp_all [Memory.read]

/-- A write leaves every other address as it was. -/
theorem Memory.read_write_other (m : Memory) {a b : Nat} (v : Byte) (h : b ≠ a) : (m.write a v).read b = m.read b := by
  induction m with
  | nil => simp [Memory.write, Memory.read, Ne.symm h]
  | cons c m ih =>
    obtain ⟨k, w⟩ := c
    unfold Memory.write
    split
    · simp [Memory.read, Ne.symm h]
    · split
      · rename_i hk
        subst hk
        simp [Memory.read, Ne.symm h]
      · simp_all [Memory.read]

/-- Both in one: what a read gives after a write. -/
theorem Memory.read_write (m : Memory) (a b : Nat) (v : Byte) :
    (m.write a v).read b = if b = a then some v else m.read b := by
  split
  · subst_vars
    exact Memory.read_write_same ..
  · exact Memory.read_write_other _ _ ‹_›

/-- A write of an address in range keeps addresses rising from any lower bound it respects. -/
theorem Memory.write_risingFrom (m : Memory) (a : Nat) (v : Byte) (lo : Nat) (hlo : lo ≤ a) (ha : a < 65536)
    (h : Memory.risingFrom lo m = true) : Memory.risingFrom lo (m.write a v) = true := by
  induction m generalizing lo with
  | nil => simp [Memory.write, Memory.risingFrom, hlo, ha]
  | cons c m ih =>
    obtain ⟨k, w⟩ := c
    simp only [Memory.risingFrom, Bool.and_eq_true, decide_eq_true_eq] at h
    obtain ⟨⟨h1, h2⟩, h3⟩ := h
    unfold Memory.write
    split
    · simp only [Memory.risingFrom, Bool.and_eq_true, decide_eq_true_eq]
      exact ⟨⟨hlo, ha⟩, ⟨by omega, h2⟩, h3⟩
    · split
      · rename_i hk
        subst hk
        simp only [Memory.risingFrom, Bool.and_eq_true, decide_eq_true_eq]
        exact ⟨⟨hlo, ha⟩, h3⟩
      · simp only [Memory.risingFrom, Bool.and_eq_true, decide_eq_true_eq]
        exact ⟨⟨h1, h2⟩, ih (k + 1) (by omega) h3⟩

/-- A write keeps the canonical form. -/
theorem Memory.write_wf (m : Memory) (addr : Word) (v : Byte) (h : m.wf = true) :
    (m.write addr.toNat v).wf = true :=
  Memory.write_risingFrom m addr.toNat v 0 (Nat.zero_le _) addr.isLt h

/-- The memory of the reset state has the form. -/
theorem State.reset_mem_wf : State.reset.mem.wf = true := rfl

/-- The form makes equal memories equal data: two memories in it that read alike at every address are one list. -/
theorem Memory.ext_of_risingFrom (m1 m2 : Memory) (lo : Nat) (h1 : Memory.risingFrom lo m1 = true)
    (h2 : Memory.risingFrom lo m2 = true) (h : ∀ a, m1.read a = m2.read a) : m1 = m2 := by
  have below : ∀ (m : Memory) (lo a : Nat), Memory.risingFrom lo m = true → a < lo → m.read a = none := by
    intro m
    induction m with
    | nil => intros; rfl
    | cons c m ih =>
      obtain ⟨k, w⟩ := c
      intro lo a hm ha
      simp only [Memory.risingFrom, Bool.and_eq_true, decide_eq_true_eq] at hm
      simp only [Memory.read]
      rw [if_neg (by omega)]
      exact ih (k + 1) a hm.2 (by omega)
  induction m1 generalizing m2 lo with
  | nil =>
    cases m2 with
    | nil => rfl
    | cons c m2 =>
      obtain ⟨k, w⟩ := c
      have := h k
      simp [Memory.read] at this
  | cons c m1 ih =>
    obtain ⟨k, w⟩ := c
    cases m2 with
    | nil =>
      have := h k
      simp [Memory.read] at this
    | cons c2 m2 =>
      obtain ⟨k2, w2⟩ := c2
      simp only [Memory.risingFrom, Bool.and_eq_true, decide_eq_true_eq] at h1 h2
      have hk : k = k2 := by
        by_contra hne
        rcases Nat.lt_or_gt_of_ne hne with hlt | hgt
        · have := h k
          simp only [Memory.read, if_true, if_neg (Ne.symm hne)] at this
          rw [below m2 (k2 + 1) k h2.2 (by omega)] at this
          cases this
        · have := h k2
          simp only [Memory.read, if_true, if_neg hne] at this
          rw [below m1 (k + 1) k2 h1.2 (by omega)] at this
          cases this
      subst hk
      have hw : w = w2 := by
        have := h k
        simpa [Memory.read] using this
      subst hw
      congr 1
      refine ih m2 (k + 1) h1.2 h2.2 fun a => ?_
      by_cases ha : k = a
      · subst ha
        rw [below m1 _ _ h1.2 (by omega), below m2 _ _ h2.2 (by omega)]
      · have := h a
        simpa [Memory.read, if_neg ha] using this

end Sys2Proof.Machine
end

