-- ==== Sys2Proof/Laws/State.lean ====
section
/-! SUPPORT. One lemma per field per update of the state and of PS, so that no proof unfolds a record update. -/

namespace Sys2Proof.Machine

/-! ## Updates of PS -/

@[simp] theorem Status.setNZ_rp (p : Status) (n z : Bool) : (p.setNZ n z).rp = p.rp := rfl
@[simp] theorem Status.setNZ_dp (p : Status) (n z : Bool) : (p.setNZ n z).dp = p.dp := rfl
@[simp] theorem Status.setNZ_h (p : Status) (n z : Bool) : (p.setNZ n z).h = p.h := rfl
@[simp] theorem Status.setNZ_i (p : Status) (n z : Bool) : (p.setNZ n z).i = p.i := rfl
@[simp] theorem Status.setNZ_il (p : Status) (n z : Bool) : (p.setNZ n z).il = p.il := rfl
@[simp] theorem Status.setNZ_n (p : Status) (n z : Bool) : (p.setNZ n z).n = n := rfl
@[simp] theorem Status.setNZ_z (p : Status) (n z : Bool) : (p.setNZ n z).z = z := rfl
@[simp] theorem Status.setNZ_v (p : Status) (n z : Bool) : (p.setNZ n z).v = p.v := rfl
@[simp] theorem Status.setNZ_c (p : Status) (n z : Bool) : (p.setNZ n z).c = p.c := rfl

@[simp] theorem Status.nz8_rp (p : Status) (r : Byte) : (p.nz8 r).rp = p.rp := rfl
@[simp] theorem Status.nz8_dp (p : Status) (r : Byte) : (p.nz8 r).dp = p.dp := rfl
@[simp] theorem Status.nz8_h (p : Status) (r : Byte) : (p.nz8 r).h = p.h := rfl
@[simp] theorem Status.nz8_i (p : Status) (r : Byte) : (p.nz8 r).i = p.i := rfl
@[simp] theorem Status.nz8_il (p : Status) (r : Byte) : (p.nz8 r).il = p.il := rfl
@[simp] theorem Status.nz8_n (p : Status) (r : Byte) : (p.nz8 r).n = r.msb := rfl
@[simp] theorem Status.nz8_z (p : Status) (r : Byte) : (p.nz8 r).z = decide (r = 0#8) := rfl
@[simp] theorem Status.nz8_v (p : Status) (r : Byte) : (p.nz8 r).v = p.v := rfl
@[simp] theorem Status.nz8_c (p : Status) (r : Byte) : (p.nz8 r).c = p.c := rfl

@[simp] theorem Status.nz16_rp (p : Status) (r : Word) : (p.nz16 r).rp = p.rp := rfl
@[simp] theorem Status.nz16_dp (p : Status) (r : Word) : (p.nz16 r).dp = p.dp := rfl
@[simp] theorem Status.nz16_h (p : Status) (r : Word) : (p.nz16 r).h = p.h := rfl
@[simp] theorem Status.nz16_i (p : Status) (r : Word) : (p.nz16 r).i = p.i := rfl
@[simp] theorem Status.nz16_il (p : Status) (r : Word) : (p.nz16 r).il = p.il := rfl
@[simp] theorem Status.nz16_n (p : Status) (r : Word) : (p.nz16 r).n = r.msb := rfl
@[simp] theorem Status.nz16_z (p : Status) (r : Word) : (p.nz16 r).z = decide (r = 0#16) := rfl
@[simp] theorem Status.nz16_v (p : Status) (r : Word) : (p.nz16 r).v = p.v := rfl
@[simp] theorem Status.nz16_c (p : Status) (r : Word) : (p.nz16 r).c = p.c := rfl

@[simp] theorem Status.logic8_rp (p : Status) (r : Byte) : (p.logic8 r).rp = p.rp := rfl
@[simp] theorem Status.logic8_dp (p : Status) (r : Byte) : (p.logic8 r).dp = p.dp := rfl
@[simp] theorem Status.logic8_h (p : Status) (r : Byte) : (p.logic8 r).h = p.h := rfl
@[simp] theorem Status.logic8_i (p : Status) (r : Byte) : (p.logic8 r).i = p.i := rfl
@[simp] theorem Status.logic8_il (p : Status) (r : Byte) : (p.logic8 r).il = p.il := rfl
@[simp] theorem Status.logic8_n (p : Status) (r : Byte) : (p.logic8 r).n = r.msb := rfl
@[simp] theorem Status.logic8_z (p : Status) (r : Byte) : (p.logic8 r).z = decide (r = 0#8) := rfl
@[simp] theorem Status.logic8_v (p : Status) (r : Byte) : (p.logic8 r).v = false := rfl
@[simp] theorem Status.logic8_c (p : Status) (r : Byte) : (p.logic8 r).c = p.c := rfl

@[simp] theorem Status.logic16_rp (p : Status) (r : Word) : (p.logic16 r).rp = p.rp := rfl
@[simp] theorem Status.logic16_dp (p : Status) (r : Word) : (p.logic16 r).dp = p.dp := rfl
@[simp] theorem Status.logic16_h (p : Status) (r : Word) : (p.logic16 r).h = p.h := rfl
@[simp] theorem Status.logic16_i (p : Status) (r : Word) : (p.logic16 r).i = p.i := rfl
@[simp] theorem Status.logic16_il (p : Status) (r : Word) : (p.logic16 r).il = p.il := rfl
@[simp] theorem Status.logic16_n (p : Status) (r : Word) : (p.logic16 r).n = r.msb := rfl
@[simp] theorem Status.logic16_z (p : Status) (r : Word) : (p.logic16 r).z = decide (r = 0#16) := rfl
@[simp] theorem Status.logic16_v (p : Status) (r : Word) : (p.logic16 r).v = false := rfl
@[simp] theorem Status.logic16_c (p : Status) (r : Word) : (p.logic16 r).c = p.c := rfl

@[simp] theorem Status.setNZVC_rp (p : Status) (n z v c : Bool) : (p.setNZVC n z v c).rp = p.rp := rfl
@[simp] theorem Status.setNZVC_dp (p : Status) (n z v c : Bool) : (p.setNZVC n z v c).dp = p.dp := rfl
@[simp] theorem Status.setNZVC_h (p : Status) (n z v c : Bool) : (p.setNZVC n z v c).h = p.h := rfl
@[simp] theorem Status.setNZVC_i (p : Status) (n z v c : Bool) : (p.setNZVC n z v c).i = p.i := rfl
@[simp] theorem Status.setNZVC_il (p : Status) (n z v c : Bool) : (p.setNZVC n z v c).il = p.il := rfl
@[simp] theorem Status.setNZVC_n (p : Status) (n z v c : Bool) : (p.setNZVC n z v c).n = n := rfl
@[simp] theorem Status.setNZVC_z (p : Status) (n z v c : Bool) : (p.setNZVC n z v c).z = z := rfl
@[simp] theorem Status.setNZVC_v (p : Status) (n z v c : Bool) : (p.setNZVC n z v c).v = v := rfl
@[simp] theorem Status.setNZVC_c (p : Status) (n z v c : Bool) : (p.setNZVC n z v c).c = c := rfl

@[simp] theorem Status.setHNZVC_rp (p : Status) (o : Alu8) : (p.setHNZVC o).rp = p.rp := rfl
@[simp] theorem Status.setHNZVC_dp (p : Status) (o : Alu8) : (p.setHNZVC o).dp = p.dp := rfl
@[simp] theorem Status.setHNZVC_h (p : Status) (o : Alu8) : (p.setHNZVC o).h = o.h := rfl
@[simp] theorem Status.setHNZVC_i (p : Status) (o : Alu8) : (p.setHNZVC o).i = p.i := rfl
@[simp] theorem Status.setHNZVC_il (p : Status) (o : Alu8) : (p.setHNZVC o).il = p.il := rfl
@[simp] theorem Status.setHNZVC_n (p : Status) (o : Alu8) : (p.setHNZVC o).n = o.n := rfl
@[simp] theorem Status.setHNZVC_z (p : Status) (o : Alu8) : (p.setHNZVC o).z = o.z := rfl
@[simp] theorem Status.setHNZVC_v (p : Status) (o : Alu8) : (p.setHNZVC o).v = o.v := rfl
@[simp] theorem Status.setHNZVC_c (p : Status) (o : Alu8) : (p.setHNZVC o).c = o.c := rfl

@[simp] theorem Status.withUpper_rp (p : Status) (b : Byte) : (p.withUpper b).rp = b.extractLsb' 3 5 := rfl
@[simp] theorem Status.withUpper_dp (p : Status) (b : Byte) : (p.withUpper b).dp = b.extractLsb' 0 3 := rfl
@[simp] theorem Status.withUpper_h (p : Status) (b : Byte) : (p.withUpper b).h = p.h := rfl
@[simp] theorem Status.withUpper_i (p : Status) (b : Byte) : (p.withUpper b).i = p.i := rfl
@[simp] theorem Status.withUpper_il (p : Status) (b : Byte) : (p.withUpper b).il = p.il := rfl
@[simp] theorem Status.withUpper_n (p : Status) (b : Byte) : (p.withUpper b).n = p.n := rfl
@[simp] theorem Status.withUpper_z (p : Status) (b : Byte) : (p.withUpper b).z = p.z := rfl
@[simp] theorem Status.withUpper_v (p : Status) (b : Byte) : (p.withUpper b).v = p.v := rfl
@[simp] theorem Status.withUpper_c (p : Status) (b : Byte) : (p.withUpper b).c = p.c := rfl

/-! ## Updates of the state -/

@[simp] theorem State.logIo_pc (s : State) (acc : IoAccess) : (s.logIo acc).pc = s.pc := rfl
@[simp] theorem State.logIo_a (s : State) (acc : IoAccess) : (s.logIo acc).a = s.a := rfl
@[simp] theorem State.logIo_t (s : State) (acc : IoAccess) : (s.logIo acc).t = s.t := rfl
@[simp] theorem State.logIo_ix (s : State) (acc : IoAccess) : (s.logIo acc).ix = s.ix := rfl
@[simp] theorem State.logIo_ep (s : State) (acc : IoAccess) : (s.logIo acc).ep = s.ep := rfl
@[simp] theorem State.logIo_sp (s : State) (acc : IoAccess) : (s.logIo acc).sp = s.sp := rfl
@[simp] theorem State.logIo_ps (s : State) (acc : IoAccess) : (s.logIo acc).ps = s.ps := rfl
@[simp] theorem State.logIo_mem (s : State) (acc : IoAccess) : (s.logIo acc).mem = s.mem := rfl
@[simp] theorem State.logIo_device (s : State) (acc : IoAccess) : (s.logIo acc).device = s.device := rfl
@[simp] theorem State.logIo_inputs (s : State) (acc : IoAccess) : (s.logIo acc).inputs = s.inputs := rfl
@[simp] theorem State.logIo_pending (s : State) (acc : IoAccess) : (s.logIo acc).pending = s.pending := rfl
@[simp] theorem State.logIo_maskBefore (s : State) (acc : IoAccess) : (s.logIo acc).maskBefore = s.maskBefore := rfl
@[simp] theorem State.logIo_ioLog (s : State) (acc : IoAccess) : (s.logIo acc).ioLog = s.ioLog ++ [acc] := rfl
@[simp] theorem State.logIo_draws (s : State) (acc : IoAccess) : (s.logIo acc).draws = s.draws := rfl

@[simp] theorem State.writeIo_pc (s : State) (addr : Word) (v : Byte) : (s.writeIo addr v).pc = s.pc := rfl
@[simp] theorem State.writeIo_a (s : State) (addr : Word) (v : Byte) : (s.writeIo addr v).a = s.a := rfl
@[simp] theorem State.writeIo_t (s : State) (addr : Word) (v : Byte) : (s.writeIo addr v).t = s.t := rfl
@[simp] theorem State.writeIo_ix (s : State) (addr : Word) (v : Byte) : (s.writeIo addr v).ix = s.ix := rfl
@[simp] theorem State.writeIo_ep (s : State) (addr : Word) (v : Byte) : (s.writeIo addr v).ep = s.ep := rfl
@[simp] theorem State.writeIo_sp (s : State) (addr : Word) (v : Byte) : (s.writeIo addr v).sp = s.sp := rfl
@[simp] theorem State.writeIo_ps (s : State) (addr : Word) (v : Byte) : (s.writeIo addr v).ps = s.ps := rfl
@[simp] theorem State.writeIo_mem (s : State) (addr : Word) (v : Byte) : (s.writeIo addr v).mem = s.mem := rfl
@[simp] theorem State.writeIo_device (s : State) (addr : Word) (v : Byte) : (s.writeIo addr v).device = s.device := rfl
@[simp] theorem State.writeIo_inputs (s : State) (addr : Word) (v : Byte) : (s.writeIo addr v).inputs = s.inputs := rfl
@[simp] theorem State.writeIo_maskBefore (s : State) (addr : Word) (v : Byte) : (s.writeIo addr v).maskBefore = s.maskBefore := rfl
@[simp] theorem State.writeIo_draws (s : State) (addr : Word) (v : Byte) : (s.writeIo addr v).draws = s.draws := rfl
@[simp] theorem State.writeIo_pending (s : State) (addr : Word) (v : Byte) : (s.writeIo addr v).pending = [] := rfl
@[simp] theorem State.writeIo_ioLog (s : State) (addr : Word) (v : Byte) :
    (s.writeIo addr v).ioLog = s.ioLog ++ [⟨addr, .write, false, v⟩] := rfl

@[simp] theorem State.advance_pc (s : State) (len : Nat) : (s.advance len).pc = s.nextPc len := rfl
@[simp] theorem State.advance_a (s : State) (len : Nat) : (s.advance len).a = s.a := rfl
@[simp] theorem State.advance_t (s : State) (len : Nat) : (s.advance len).t = s.t := rfl
@[simp] theorem State.advance_ix (s : State) (len : Nat) : (s.advance len).ix = s.ix := rfl
@[simp] theorem State.advance_ep (s : State) (len : Nat) : (s.advance len).ep = s.ep := rfl
@[simp] theorem State.advance_sp (s : State) (len : Nat) : (s.advance len).sp = s.sp := rfl
@[simp] theorem State.advance_ps (s : State) (len : Nat) : (s.advance len).ps = s.ps := rfl
@[simp] theorem State.advance_mem (s : State) (len : Nat) : (s.advance len).mem = s.mem := rfl
@[simp] theorem State.advance_device (s : State) (len : Nat) : (s.advance len).device = s.device := rfl
@[simp] theorem State.advance_inputs (s : State) (len : Nat) : (s.advance len).inputs = s.inputs := rfl
@[simp] theorem State.advance_pending (s : State) (len : Nat) : (s.advance len).pending = s.pending := rfl
@[simp] theorem State.advance_maskBefore (s : State) (len : Nat) : (s.advance len).maskBefore = s.maskBefore := rfl
@[simp] theorem State.advance_ioLog (s : State) (len : Nat) : (s.advance len).ioLog = s.ioLog := rfl
@[simp] theorem State.advance_draws (s : State) (len : Nat) : (s.advance len).draws = s.draws := rfl

@[simp] theorem State.freeH_pc (s : State) : s.freeH.pc = s.pc := rfl
@[simp] theorem State.freeH_a (s : State) : s.freeH.a = s.a := rfl
@[simp] theorem State.freeH_t (s : State) : s.freeH.t = s.t := rfl
@[simp] theorem State.freeH_ix (s : State) : s.freeH.ix = s.ix := rfl
@[simp] theorem State.freeH_ep (s : State) : s.freeH.ep = s.ep := rfl
@[simp] theorem State.freeH_sp (s : State) : s.freeH.sp = s.sp := rfl
@[simp] theorem State.freeH_ps (s : State) : s.freeH.ps = { s.ps with h := Config.freeBit s.draws } := rfl
@[simp] theorem State.freeH_mem (s : State) : s.freeH.mem = s.mem := rfl
@[simp] theorem State.freeH_device (s : State) : s.freeH.device = s.device := rfl
@[simp] theorem State.freeH_inputs (s : State) : s.freeH.inputs = s.inputs := rfl
@[simp] theorem State.freeH_pending (s : State) : s.freeH.pending = s.pending := rfl
@[simp] theorem State.freeH_maskBefore (s : State) : s.freeH.maskBefore = s.maskBefore := rfl
@[simp] theorem State.freeH_ioLog (s : State) : s.freeH.ioLog = s.ioLog := rfl
@[simp] theorem State.freeH_draws (s : State) : s.freeH.draws = s.draws + 1 := rfl

@[simp] theorem State.recordMask_pc (s : State) : s.recordMask.pc = s.pc := rfl
@[simp] theorem State.recordMask_a (s : State) : s.recordMask.a = s.a := rfl
@[simp] theorem State.recordMask_t (s : State) : s.recordMask.t = s.t := rfl
@[simp] theorem State.recordMask_ix (s : State) : s.recordMask.ix = s.ix := rfl
@[simp] theorem State.recordMask_ep (s : State) : s.recordMask.ep = s.ep := rfl
@[simp] theorem State.recordMask_sp (s : State) : s.recordMask.sp = s.sp := rfl
@[simp] theorem State.recordMask_ps (s : State) : s.recordMask.ps = s.ps := rfl
@[simp] theorem State.recordMask_mem (s : State) : s.recordMask.mem = s.mem := rfl
@[simp] theorem State.recordMask_device (s : State) : s.recordMask.device = s.device := rfl
@[simp] theorem State.recordMask_inputs (s : State) : s.recordMask.inputs = s.inputs := rfl
@[simp] theorem State.recordMask_pending (s : State) : s.recordMask.pending = s.pending := rfl
@[simp] theorem State.recordMask_maskBefore (s : State) : s.recordMask.maskBefore = some ⟨s.ps.i, s.ps.il⟩ := rfl
@[simp] theorem State.recordMask_ioLog (s : State) : s.recordMask.ioLog = s.ioLog := rfl
@[simp] theorem State.recordMask_draws (s : State) : s.recordMask.draws = s.draws := rfl

@[simp] theorem State.leaveBoundary_pc (s : State) : s.leaveBoundary.pc = s.pc := rfl
@[simp] theorem State.leaveBoundary_a (s : State) : s.leaveBoundary.a = s.a := rfl
@[simp] theorem State.leaveBoundary_t (s : State) : s.leaveBoundary.t = s.t := rfl
@[simp] theorem State.leaveBoundary_ix (s : State) : s.leaveBoundary.ix = s.ix := rfl
@[simp] theorem State.leaveBoundary_ep (s : State) : s.leaveBoundary.ep = s.ep := rfl
@[simp] theorem State.leaveBoundary_sp (s : State) : s.leaveBoundary.sp = s.sp := rfl
@[simp] theorem State.leaveBoundary_ps (s : State) : s.leaveBoundary.ps = s.ps := rfl
@[simp] theorem State.leaveBoundary_mem (s : State) : s.leaveBoundary.mem = s.mem := rfl
@[simp] theorem State.leaveBoundary_device (s : State) : s.leaveBoundary.device = s.device := rfl
@[simp] theorem State.leaveBoundary_inputs (s : State) : s.leaveBoundary.inputs = s.inputs.tail := rfl
@[simp] theorem State.leaveBoundary_pending (s : State) : s.leaveBoundary.pending = s.pendingNow := rfl
@[simp] theorem State.leaveBoundary_maskBefore (s : State) : s.leaveBoundary.maskBefore = none := rfl
@[simp] theorem State.leaveBoundary_ioLog (s : State) : s.leaveBoundary.ioLog = s.ioLog := rfl
@[simp] theorem State.leaveBoundary_draws (s : State) : s.leaveBoundary.draws = s.draws := rfl
@[simp] theorem State.leaveBoundary_siteOf (s : State) (addr : Word) : s.leaveBoundary.siteOf addr = s.siteOf addr := rfl
@[simp] theorem State.leaveBoundary_peek (s : State) (addr : Word) : s.leaveBoundary.peek addr = s.peek addr := rfl

end Sys2Proof.Machine
end

