-- ==== Sys2Proof/Laws/Ops.lean ====
section
/-! SUPPORT. One lemma per shared operation, saying once everything it can do when it answers a next state. -/

namespace Sys2Proof.Machine

/-! ## Sequencing -/

@[simp] theorem Res.andThen_next {α β : Type} (a : α) (f : α → Res β) :
    Res.andThen (.next a : Res α) f = f a := rfl

@[simp] theorem Res.andThen_fault {α β : Type} (r : Fault) (f : α → Res β) :
    Res.andThen (.fault r : Res α) f = .fault r := rfl

@[simp] theorem Res.andThen_refused {α β : Type} (r : Refusal) (f : α → Res β) :
    Res.andThen (.refused r : Res α) f = .refused r := rfl

/-- A sequence answers next exactly when both parts do. -/
theorem Res.andThen_eq_next {α β : Type} {x : Res α} {f : α → Res β} {b : β} :
    x.andThen f = .next b ↔ ∃ a, x = .next a ∧ f a = .next b := by
  cases x <;> simp [Res.andThen]

/-! ## Reads -/

/-- A state that differs from `s` in the I/O log and the count of draws at most: all that reads can change. -/
def State.SameButIo (s s1 : State) : Prop := ∃ log n, s1 = { s with ioLog := log, draws := n }

theorem State.SameButIo_refl (s : State) : s.SameButIo s := ⟨s.ioLog, s.draws, rfl⟩

theorem State.SameButIo_trans {s s1 s2 : State} (h1 : s.SameButIo s1) (h2 : s1.SameButIo s2) : s.SameButIo s2 := by
  obtain ⟨l1, n1, rfl⟩ := h1
  obtain ⟨l2, n2, rfl⟩ := h2
  exact ⟨l2, n2, rfl⟩

/-- Where an address leads depends on the device alone. -/
theorem State.siteOf_congr {s s1 : State} (h : s1.device = s.device) (addr : Word) : s1.siteOf addr = s.siteOf addr := by
  simp [State.siteOf, h]

/-- Reads leave every byte `peek` sees. -/
theorem State.SameButIo_peek {s s1 : State} (h : s.SameButIo s1) (addr : Word) : s1.peek addr = s.peek addr := by
  obtain ⟨l, n, rfl⟩ := h
  rfl

/-- A read that answers: the byte the address holds, nothing changed; or an I/O byte, logged and drawn. -/
theorem State.readAs_next {s s1 : State} {rmw : Bool} {addr : Word} {v : Byte} (h : s.readAs rmw addr = .next (v, s1)) :
    (s.peek addr = some v ∧ s1 = s) ∨
    (s.siteOf addr = .mapped .io ∧ v = Config.ioInput s.draws addr ∧
      s1 = { s with ioLog := s.ioLog ++ [⟨addr, .read, rmw, v⟩], draws := s.draws + 1 }) := by
  unfold State.readAs at h
  unfold State.peek
  split at h
  · cases h
    simp_all
  · cases h
    simp_all
  · cases h
  · split at h
    · cases h
      simp_all
    · cases h
  · split at h
    · cases h
      simp_all
    · cases h

/-- A read changes the I/O log and the count of draws at most. -/
theorem State.readAs_same {s s1 : State} {rmw : Bool} {addr : Word} {v : Byte} (h : s.readAs rmw addr = .next (v, s1)) :
    s.SameButIo s1 := by
  rcases State.readAs_next h with ⟨_, rfl⟩ | ⟨_, _, rfl⟩
  · exact State.SameButIo_refl s1
  · exact ⟨_, _, rfl⟩

/-- A byte that `peek` sees is read, with nothing changed. -/
theorem State.readAs_of_peek {s : State} {rmw : Bool} {addr : Word} {v : Byte} (h : s.peek addr = some v) :
    s.readAs rmw addr = .next (v, s) := by
  unfold State.peek at h
  unfold State.readAs
  split at h <;> simp_all

theorem State.read8_same {s s1 : State} {addr : Word} {v : Byte} (h : s.read8 addr = .next (v, s1)) :
    s.SameButIo s1 := State.readAs_same h

/-- A word read: the upper byte at the address, then the lower byte after it. -/
theorem State.read16_next {s t : State} {addr w : Word} :
    s.read16 addr = .next (w, t) ↔
      ∃ hi s1 lo, s.read8 addr = .next (hi, s1) ∧ s1.read8 (addr + 1#16) = .next (lo, t) ∧ w = joinBytes hi lo := by
  simp only [State.read16, Res.andThen_eq_next, Prod.exists]
  constructor
  · rintro ⟨hi, s1, h1, lo, s2, h2, h3⟩
    cases h3
    exact ⟨hi, s1, lo, h1, h2, rfl⟩
  · rintro ⟨hi, s1, lo, h1, h2, rfl⟩
    exact ⟨hi, s1, h1, lo, t, h2, rfl⟩

theorem State.read16_same {s t : State} {addr w : Word} (h : s.read16 addr = .next (w, t)) : s.SameButIo t := by
  obtain ⟨_, _, _, h1, h2, _⟩ := State.read16_next.1 h
  exact State.SameButIo_trans (State.read8_same h1) (State.read8_same h2)

/-- A byte source changes what a read can change at most. -/
theorem State.readByteSrc_same {s t : State} {src : ByteSrc} {v : Byte} (h : s.readByteSrc src = .next (v, t)) :
    s.SameButIo t := by
  cases src with
  | value w =>
    simp only [State.readByteSrc] at h
    cases h
    exact State.SameButIo_refl s
  | mem e => exact State.read8_same h

/-- A word operand that is read is not at the edge of a bank. -/
theorem State.readWordAt_next {s t : State} {e : Ea} {v : Word} :
    s.readWordAt e = .next (v, t) ↔ s.crossesBank e = false ∧ s.read16 (s.addrOf e) = .next (v, t) := by
  unfold State.readWordAt
  split <;> simp_all

/-- A word source changes what a read can change at most. -/
theorem State.readWordSrc_same {s t : State} {src : WordSrc} {v : Word} (h : s.readWordSrc src = .next (v, t)) :
    s.SameButIo t := by
  cases src with
  | value w =>
    simp only [State.readWordSrc] at h
    cases h
    exact State.SameButIo_refl s
  | mem e => exact State.read16_same (State.readWordAt_next.1 h).2

/-! ## Writes -/

/-- A write that answers: RP and DP at the mirror, a RAM byte, or an I/O access delivered. -/
theorem State.write8_next {s t : State} {addr : Word} {v : Byte} (h : s.write8 addr v = .next t) :
    (s.siteOf addr = .mirror ∧ t = { s with ps := s.ps.withUpper v }) ∨
    (s.siteOf addr = .mapped .ram ∧ t = { s with mem := s.mem.write addr.toNat v }) ∨
    (s.siteOf addr = .mapped .io ∧ t = s.writeIo addr v) := by
  unfold State.write8 at h
  split at h <;> cases h <;> simp_all

/-- A write leaves every register, the inputs and the device; of PS it can change RP and DP only, and a request can stop being pending only
by a write to an I/O register. -/
theorem State.write8_frame {s t : State} {addr : Word} {v : Byte} (h : s.write8 addr v = .next t) :
    ∃ ps mem log pend, t = { s with ps := ps, mem := mem, ioLog := log, pending := pend } ∧
      (ps = s.ps ∨ ps = s.ps.withUpper v) ∧ (pend = s.pending ∨ s.siteOf addr = .mapped .io) := by
  rcases State.write8_next h with ⟨_, rfl⟩ | ⟨_, rfl⟩ | ⟨hio, rfl⟩
  · exact ⟨_, _, _, _, rfl, .inr rfl, .inl rfl⟩
  · exact ⟨_, _, _, _, rfl, .inl rfl, .inl rfl⟩
  · exact ⟨_, _, _, _, rfl, .inl rfl, .inr hio⟩

/-- A write of one address leaves what memory lists at every other. -/
theorem State.write8_mem_other {s t : State} {addr other : Word} {v : Byte} (h : s.write8 addr v = .next t)
    (ho : other ≠ addr) : t.mem.read other.toNat = s.mem.read other.toNat := by
  rcases State.write8_next h with ⟨_, rfl⟩ | ⟨_, rfl⟩ | ⟨_, rfl⟩
  · rfl
  · exact Memory.read_write_other _ _ fun hn => ho (BitVec.eq_of_toNat_eq hn)
  · rfl

/-- A store that answers is outside the prefetch window, and is the write. -/
theorem State.store8_next {s t : State} {window : Option Word} {addr : Word} {v : Byte} :
    s.store8 window addr v = .next t ↔
      (∀ next, window = some next → inPrefetchWindow next addr = false) ∧ s.write8 addr v = .next t := by
  unfold State.store8
  split
  · split <;> simp_all
  · simp

/-- A word store: the upper byte at the address, then the lower byte after it. -/
theorem State.store16_next {s t : State} {window : Option Word} {addr v : Word} :
    s.store16 window addr v = .next t ↔
      ∃ s1, s.store8 window addr (hiByte v) = .next s1 ∧ s1.store8 window (addr + 1#16) (loByte v) = .next t := by
  simp [State.store16, Res.andThen_eq_next]

/-- A push: the lower byte below SP, then the upper byte below that, then SP. -/
theorem State.push16_next {s t : State} {window : Option Word} {v : Word} :
    s.push16 window v = .next t ↔
      ∃ s1 s2, s.store8 window (s.sp - 1#16) (loByte v) = .next s1 ∧
        s1.store8 window (s.sp - 2#16) (hiByte v) = .next s2 ∧ t = { s2 with sp := s.sp - 2#16 } := by
  simp only [State.push16, Res.andThen_eq_next]
  constructor
  · rintro ⟨s1, h1, s2, h2, h3⟩
    cases h3
    exact ⟨s1, s2, h1, h2, rfl⟩
  · rintro ⟨s1, s2, h1, h2, rfl⟩
    exact ⟨s1, h1, s2, h2, rfl⟩

/-- A pop: the word at SP, then SP. -/
theorem State.pop16_next {s t : State} {v : Word} :
    s.pop16 = .next (v, t) ↔ ∃ s1, s.read16 s.sp = .next (v, s1) ∧ t = { s1 with sp := s.sp + 2#16 } := by
  simp only [State.pop16, Res.andThen_eq_next, Prod.exists]
  constructor
  · rintro ⟨w, s1, h1, h2⟩
    cases h2
    exact ⟨s1, h1, rfl⟩
  · rintro ⟨s1, h1, rfl⟩
    exact ⟨v, s1, h1, rfl⟩

/-! ## The shapes the families share -/

theorem storeByte_next {e : Ea} {v : Byte} {len : Nat} {s t : State} :
    storeByte e v len s = .next t ↔
      ∃ s1, s.store8 (some (s.nextPc len)) (s.addrOf e) v = .next s1 ∧ s1.advance len = t := by
  simp [storeByte, Res.andThen_eq_next]

theorem storeWord_next {e : Ea} {v : Word} {len : Nat} {s t : State} :
    storeWord e v len s = .next t ↔ s.crossesBank e = false ∧
      ∃ s1, s.store16 (some (s.nextPc len)) (s.addrOf e) v = .next s1 ∧ s1.advance len = t := by
  unfold storeWord
  split <;> simp_all [Res.andThen_eq_next]

theorem loadByte_next {src : ByteSrc} {len : Nat} {s t : State} :
    loadByte src len s = .next t ↔ ∃ v s1, s.readByteSrc src = .next (v, s1) ∧
      { s1 with a := withLo s1.a v, t := withLo s1.t (loByte s1.a), ps := s1.ps.nz8 v, pc := s1.nextPc len } = t := by
  simp [loadByte, Res.andThen_eq_next]

theorem loadWord_next {src : WordSrc} {len : Nat} {s t : State} :
    loadWord src len s = .next t ↔ ∃ v s1, s.readWordSrc src = .next (v, s1) ∧
      { s1 with a := v, t := s1.a, ps := s1.ps.nz16 v, pc := s1.nextPc len } = t := by
  simp [loadWord, Res.andThen_eq_next]

theorem modifyByte_next {e : Ea} {f : Byte → Byte} {len : Nat} {s t : State} :
    modifyByte e f len s = .next t ↔ ∃ v s1, s.readAs true (s.addrOf e) = .next (v, s1) ∧
      ∃ s2, s1.store8 (some (s.nextPc len)) (s.addrOf e) (f v) = .next s2 ∧ s2.advance len = t := by
  simp [modifyByte, Res.andThen_eq_next]

theorem countByte_next {r : BitVec 3} {f : Byte → Alu8} {s t : State} :
    countByte r f s = .next t ↔ ∃ v s1, s.readAs true (s.addrOf (.reg r)) = .next (v, s1) ∧
      ∃ s2, s1.store8 (some (s.nextPc 1)) (s.addrOf (.reg r)) (f v).r = .next s2 ∧
        { s2 with ps := s2.ps.setNZVC (f v).n (f v).z (f v).v s2.ps.c }.freeH.advance 1 = t := by
  simp [countByte, Res.andThen_eq_next]

theorem arithByte_next {f : Byte → Byte → Bool → Alu8} {src : ByteSrc} {len : Nat} {s t : State} :
    arithByte f src len s = .next t ↔ ∃ v s1, s.readByteSrc src = .next (v, s1) ∧
      { s1 with a := withLo s1.a (f (loByte s1.a) v s1.ps.c).r, ps := s1.ps.setHNZVC (f (loByte s1.a) v s1.ps.c),
                pc := s1.nextPc len } = t := by
  simp [arithByte, Res.andThen_eq_next]

theorem compareAL_next {src : ByteSrc} {len : Nat} {s t : State} :
    compareAL src len s = .next t ↔
      ∃ v s1, s.readByteSrc src = .next (v, s1) ∧ compareBytes (loByte s1.a) v len s1 = t := by
  simp [compareAL, Res.andThen_eq_next]

theorem compareMem_next {e : Ea} {d8 : Byte} {len : Nat} {s t : State} :
    compareMem e d8 len s = .next t ↔
      ∃ v s1, s.read8 (s.addrOf e) = .next (v, s1) ∧ compareBytes v d8 len s1 = t := by
  simp [compareMem, Res.andThen_eq_next]

theorem logicByte_next {f : Byte → Byte → Byte} {src : ByteSrc} {len : Nat} {s t : State} :
    logicByte f src len s = .next t ↔ ∃ v s1, s.readByteSrc src = .next (v, s1) ∧
      { s1 with a := withLo s1.a (f (loByte s1.a) v), ps := s1.ps.logic8 (f (loByte s1.a) v), pc := s1.nextPc len } = t := by
  simp [logicByte, Res.andThen_eq_next]

theorem branchOnBit_next {want : Bool} {dir : Byte} {b : BitVec 3} {rel : Byte} {s t : State} :
    branchOnBit want dir b rel s = .next t ↔ ∃ v s1, s.read8 (s.addrOf (.dir dir)) = .next (v, s1) ∧
      { s1 with ps := { s1.ps with z := !v.getLsbD b.toNat }
                pc := if v.getLsbD b.toNat == want then s1.relTarget 3 rel else s1.nextPc 3 } = t := by
  simp [branchOnBit, Res.andThen_eq_next]

/-! ## Interrupt entry, return, reset -/

/-- Interrupt entry: the vector's word, PC pushed, the old PS pushed, IL and PC written. -/
theorem interruptEntry_next {n : Nat} {level : BitVec 2} {s t : State} :
    interruptEntry n level s = .next t ↔
      ∃ target s1, s.read16 (irqVectorAddr n) = .next (target, s1) ∧ ∃ s2, s1.push16 none s.pc = .next s2 ∧
        ∃ s3, s2.push16 none s.ps.toWord = .next s3 ∧ { s3 with ps := { s3.ps with il := level }, pc := target } = t := by
  simp [interruptEntry, Res.andThen_eq_next]

/-- The return: PS and PC from the four bytes at SP. -/
theorem returnFromInterrupt_next {s t : State} :
    returnFromInterrupt s = .next t ↔ ∃ w s1, s.read16 s.sp = .next (w, s1) ∧
      ∃ target s2, s1.read16 (s.sp + 2#16) = .next (target, s2) ∧
        { s2 with ps := Status.ofWord w, pc := target, sp := s.sp + 4#16 } = t := by
  simp [returnFromInterrupt, Res.andThen_eq_next]

/-- Reset: the mode byte read, PC from the reset vector, the registers at their reset values. -/
theorem resetStep_next {s t : State} :
    resetStep s = .next t ↔ ∃ mode s1, s.read8 0xFFFD#16 = .next (mode, s1) ∧
      ∃ start s2, s1.read16 0xFFFE#16 = .next (start, s2) ∧
        { s2 with pc := start, a := 0#16, t := 0#16, ix := 0#16, ep := 0#16, sp := 0#16, ps := Status.afterReset,
                  pending := [], maskBefore := none } = t := by
  simp [resetStep, Res.andThen_eq_next]

/-! ## Fetch and step -/

/-- A fetch only reads: registers, memory and the environment stay. -/
theorem State.fetch_same {s t : State} {i : Instr} (h : s.fetch = .next (i, t)) : s.SameButIo t := by
  obtain ⟨⟨op, s1⟩, h1, h2⟩ := Res.andThen_eq_next.1 h
  have e1 := State.read8_same h1
  dsimp only at h2
  split at h2
  · cases h2
    exact e1
  · obtain ⟨⟨b, s2⟩, h3, h4⟩ := Res.andThen_eq_next.1 h2
    cases h4
    exact State.SameButIo_trans e1 (State.read8_same h3)
  · obtain ⟨⟨b, s2⟩, h3, h4⟩ := Res.andThen_eq_next.1 h2
    obtain ⟨⟨c, s3⟩, h5, h6⟩ := Res.andThen_eq_next.1 h4
    cases h6
    exact State.SameButIo_trans (State.SameButIo_trans e1 (State.read8_same h3)) (State.read8_same h5)

/-- A step that answers next is a reset step, an interrupt entry step for an accepted request, or an instruction step. -/
theorem boundaryStep_next {s t : State} (h : boundaryStep s = .next t) :
    (s.presented = .reset ∧ resetStep s.leaveBoundary = .next t) ∨
    (s.withdraws = false ∧ ∃ n level, s.presented = .request n level ∧
      BoundaryInput.wellFormed s.device (.request n level) = true ∧ s.accepts level = true ∧
      interruptEntry n level s.leaveBoundary = .next t) ∨
    (s.withdraws = false ∧ s.presented ≠ .reset ∧ ∃ i s1, s.leaveBoundary.fetch = .next (i, s1) ∧ exec i s1 = .next t) := by
  have run : ∀ u : State, instructionStep u = .next t → ∃ i s1, u.fetch = .next (i, s1) ∧ exec i s1 = .next t := by
    intro u hu
    obtain ⟨⟨i, s1⟩, h1, h2⟩ := Res.andThen_eq_next.1 hu
    exact ⟨i, s1, h1, h2⟩
  unfold boundaryStep at h
  split at h
  · rename_i hp
    split at h
    · cases h
    · rename_i hw
      exact .inr (.inr ⟨by simpa using hw, by simp [hp], run _ h⟩)
  · rename_i hp
    exact .inl ⟨hp, h⟩
  · rename_i n level hp
    split at h
    · rename_i hf
      split at h
      · cases h
      · rename_i hw
        split at h
        · rename_i ha
          exact .inr (.inl ⟨by simpa using hw, n, level, hp, hf, ha, h⟩)
        · exact .inr (.inr ⟨by simpa using hw, by simp [hp], run _ h⟩)
    · cases h

/-- Nothing is withdrawn exactly when each pending request allows what is presented (R273). -/
theorem State.withdraws_eq_false {s : State} :
    s.withdraws = false ↔ ∀ r ∈ s.pending, mayPresentWhile r s.presented = true := by
  simp [State.withdraws]

/-- The requests pending after the boundary: those before it, and the one presented (R273). -/
theorem State.mem_pendingNow {s : State} {r : IrqRequest} :
    r ∈ s.pendingNow ↔ r ∈ s.pending ∨ s.presented = .request r.number r.level := by
  unfold State.pendingNow
  split
  · rename_i n level hp
    rw [hp]
    simp only [List.mem_cons, List.mem_filter, BoundaryInput.request.injEq]
    constructor
    · rintro (rfl | ⟨h, _⟩)
      · exact .inr ⟨rfl, rfl⟩
      · exact .inl h
    · rintro (h | ⟨rfl, rfl⟩)
      · by_cases e : r = ⟨n, level⟩
        · exact .inl e
        · exact .inr ⟨h, by simpa using e⟩
      · exact .inl rfl
  · rename_i hp
    simp [hp]
  · rename_i hp
    simp [hp]

end Sys2Proof.Machine
end

