-- ==== Sys2Proof/Laws/Frames.lean ====
section
/-! SUPPORT. One relation for everything reads and writes can do to a state, and one lemma per operation that has it. -/

namespace Sys2Proof.Machine

/-- `t` is `s` after reads and after writes to `addrs` only: RP and DP are as before unless the mirror is among them, every other byte reads as
before, ROM and the invariant are kept, the I/O log and the draws only grow, and requests stay pending but for a write to an I/O register. -/
structure State.StoresOnly (s t : State) (addrs : List Word) : Prop where
  same : ∃ rp dp mem pend log n,
    t = { s with ps := { s.ps with rp := rp, dp := dp }, mem := mem, pending := pend, ioLog := log, draws := n }
  banks : mirrorAddr ∉ addrs → t.ps = s.ps
  bytes : ∀ a : Word, a ∉ addrs → t.peek a = s.peek a
  rom : ∀ a : Word, s.siteOf a = .mapped .rom → t.peek a = s.peek a
  inv : s.Inv → t.Inv
  log : ∃ new, t.ioLog = s.ioLog ++ new ∧ (t.pending = s.pending ∨ ∃ acc ∈ new, acc.direction = .write)
  draws : s.draws ≤ t.draws

/-- What can be read and written is the same after the boundary. -/
@[simp] theorem State.leaveBoundary_readable (s : State) (addr : Word) : s.leaveBoundary.readable addr = s.readable addr := rfl
@[simp] theorem State.leaveBoundary_readable16 (s : State) (addr : Word) :
    s.leaveBoundary.readable16 addr = s.readable16 addr := rfl
@[simp] theorem State.leaveBoundary_writable (s : State) (addr : Word) : s.leaveBoundary.writable addr = s.writable addr := rfl

theorem State.StoresOnly.refl (s : State) : s.StoresOnly s [] where
  same := ⟨s.ps.rp, s.ps.dp, s.mem, s.pending, s.ioLog, s.draws, rfl⟩
  banks _ := rfl
  bytes _ _ := rfl
  rom _ _ := rfl
  inv h := h
  log := ⟨[], by simp, .inl rfl⟩
  draws := Nat.le_refl _

theorem State.StoresOnly.trans {s t u : State} {as bs : List Word} (h1 : s.StoresOnly t as) (h2 : t.StoresOnly u bs) :
    s.StoresOnly u (as ++ bs) where
  same := by
    obtain ⟨rp, dp, m, p, l, n, rfl⟩ := h1.same
    obtain ⟨rp2, dp2, m2, p2, l2, n2, rfl⟩ := h2.same
    exact ⟨rp2, dp2, m2, p2, l2, n2, rfl⟩
  banks h := by
    rw [List.mem_append, not_or] at h
    rw [h2.banks h.2, h1.banks h.1]
  bytes a h := by
    rw [List.mem_append, not_or] at h
    rw [h2.bytes a h.2, h1.bytes a h.1]
  rom a h := by
    obtain ⟨rp, dp, m, p, l, n, rfl⟩ := h1.same
    rw [h2.rom a h, h1.rom a h]
  inv h := h2.inv (h1.inv h)
  log := by
    obtain ⟨l, e, p⟩ := h1.log
    obtain ⟨l2, e2, p2⟩ := h2.log
    refine ⟨l ++ l2, by rw [e2, e, List.append_assoc], ?_⟩
    rcases p with p | ⟨acc, ha, hw⟩
    · rcases p2 with p2 | ⟨acc, ha, hw⟩
      · exact .inl (p2.trans p)
      · exact .inr ⟨acc, List.mem_append.2 (.inr ha), hw⟩
    · exact .inr ⟨acc, List.mem_append.2 (.inl ha), hw⟩
  draws := h1.draws.trans h2.draws

/-- The device is kept. -/
theorem State.StoresOnly.device_eq {s t : State} {as : List Word} (h : s.StoresOnly t as) : t.device = s.device := by
  obtain ⟨rp, dp, m, p, l, n, rfl⟩ := h.same
  rfl

/-- What was delivered to the environment stays delivered. -/
theorem State.StoresOnly.log_prefix {s t : State} {as : List Word} (h : s.StoresOnly t as) : s.ioLog <+: t.ioLog := by
  obtain ⟨l, e, _⟩ := h.log
  exact ⟨l, e.symm⟩

theorem State.readAs_storesOnly {s t : State} {rmw : Bool} {addr : Word} {v : Byte}
    (h : s.readAs rmw addr = .next (v, t)) : s.StoresOnly t [] := by
  rcases State.readAs_next h with ⟨_, rfl⟩ | ⟨_, _, rfl⟩
  · exact State.StoresOnly.refl t
  · exact { same := ⟨s.ps.rp, s.ps.dp, s.mem, s.pending, _, _, rfl⟩
            banks := fun _ => rfl
            bytes := fun _ _ => rfl
            rom := fun _ _ => rfl
            inv := fun h => h
            log := ⟨_, rfl, .inl rfl⟩
            draws := Nat.le_succ _ }

theorem State.read8_storesOnly {s t : State} {addr : Word} {v : Byte} (h : s.read8 addr = .next (v, t)) :
    s.StoresOnly t [] := State.readAs_storesOnly h

theorem State.read16_storesOnly {s t : State} {addr w : Word} (h : s.read16 addr = .next (w, t)) :
    s.StoresOnly t [] := by
  obtain ⟨_, _, _, h1, h2, _⟩ := State.read16_next.1 h
  exact (State.read8_storesOnly h1).trans (State.read8_storesOnly h2)

/-- A fetch reads. -/
theorem State.fetch_storesOnly {s t : State} {i : Instr} (h : s.fetch = .next (i, t)) : s.StoresOnly t [] := by
  obtain ⟨⟨op, s1⟩, h1, h2⟩ := Res.andThen_eq_next.1 h
  have e1 := State.read8_storesOnly h1
  dsimp only at h2
  split at h2
  · cases h2
    exact e1
  · obtain ⟨⟨b, s2⟩, h3, h4⟩ := Res.andThen_eq_next.1 h2
    cases h4
    exact e1.trans (State.read8_storesOnly h3)
  · obtain ⟨⟨b, s2⟩, h3, h4⟩ := Res.andThen_eq_next.1 h2
    obtain ⟨⟨c, s3⟩, h5, h6⟩ := Res.andThen_eq_next.1 h4
    cases h6
    exact (e1.trans (State.read8_storesOnly h3)).trans (State.read8_storesOnly h5)

theorem State.readByteSrc_storesOnly {s t : State} {src : ByteSrc} {v : Byte} (h : s.readByteSrc src = .next (v, t)) :
    s.StoresOnly t [] := by
  cases src with
  | value w =>
    simp only [State.readByteSrc] at h
    cases h
    exact State.StoresOnly.refl s
  | mem e => exact State.read8_storesOnly h

theorem State.readWordSrc_storesOnly {s t : State} {src : WordSrc} {v : Word} (h : s.readWordSrc src = .next (v, t)) :
    s.StoresOnly t [] := by
  cases src with
  | value w =>
    simp only [State.readWordSrc] at h
    cases h
    exact State.StoresOnly.refl s
  | mem e => exact State.read16_storesOnly (State.readWordAt_next.1 h).2

theorem State.write8_storesOnly {s t : State} {addr : Word} {v : Byte} (h : s.write8 addr v = .next t) :
    s.StoresOnly t [addr] := by
  rcases State.write8_next h with ⟨hs, rfl⟩ | ⟨hs, rfl⟩ | ⟨hs, rfl⟩
  · have ha : addr = mirrorAddr := by
      unfold State.siteOf at hs
      split at hs
      · assumption
      · cases hs
    subst ha
    have keep : ∀ a : Word, a ≠ mirrorAddr → State.peek { s with ps := s.ps.withUpper v } a = s.peek a := by
      intro a hne
      simp only [State.peek, State.siteOf, if_neg hne]
      cases memKindOf s.device.memMap a.toNat <;> rfl
    exact { same := ⟨_, _, s.mem, s.pending, s.ioLog, s.draws, rfl⟩
            banks := fun hm => absurd (List.mem_singleton.2 rfl) hm
            bytes := fun a hne => keep a fun e => hne (List.mem_singleton.2 e)
            rom := fun a hr => keep a fun e => by
              rw [e, hs] at hr
              cases hr
            inv := fun hi => hi
            log := ⟨[], by simp, .inl rfl⟩
            draws := Nat.le_refl _ }
  · have keep : ∀ a : Word, a ≠ addr → State.peek { s with mem := s.mem.write addr.toNat v } a = s.peek a := by
      intro a hne
      have : (s.mem.write addr.toNat v).read a.toNat = s.mem.read a.toNat :=
        Memory.read_write_other _ _ fun hn => hne (BitVec.eq_of_toNat_eq hn)
      simp only [State.peek, State.siteOf, this]
    exact { same := ⟨s.ps.rp, s.ps.dp, _, s.pending, s.ioLog, s.draws, rfl⟩
            banks := fun _ => rfl
            bytes := fun a hne => keep a fun e => hne (List.mem_singleton.2 e)
            rom := fun a hr => keep a fun e => by
              rw [e, hs] at hr
              cases hr
            inv := fun hi => ⟨Memory.write_wf _ _ _ hi.1, fun a ha => by
              by_cases e : a = addr
              · subst e
                exact .inl hs
              · refine hi.2 a ?_
                rwa [← Memory.read_write_other s.mem v fun hn => e (BitVec.eq_of_toNat_eq hn)]⟩
            log := ⟨[], by simp, .inl rfl⟩
            draws := Nat.le_refl _ }
  · exact { same := ⟨s.ps.rp, s.ps.dp, s.mem, [], _, s.draws, rfl⟩
            banks := fun _ => rfl
            bytes := fun _ _ => rfl
            rom := fun _ _ => rfl
            inv := fun h => h
            log := ⟨_, rfl, .inr ⟨_, List.mem_singleton.2 rfl, rfl⟩⟩
            draws := Nat.le_refl _ }

theorem State.store8_storesOnly {s t : State} {window : Option Word} {addr : Word} {v : Byte}
    (h : s.store8 window addr v = .next t) : s.StoresOnly t [addr] :=
  State.write8_storesOnly (State.store8_next.1 h).2

theorem State.store16_storesOnly {s t : State} {window : Option Word} {addr v : Word}
    (h : s.store16 window addr v = .next t) : s.StoresOnly t [addr, addr + 1#16] := by
  obtain ⟨s1, h1, h2⟩ := State.store16_next.1 h
  exact (State.store8_storesOnly h1).trans (State.store8_storesOnly h2)

/-- A push stores below SP, and then moves SP. -/
theorem State.push16_storesOnly {s t : State} {window : Option Word} {v : Word} (h : s.push16 window v = .next t) :
    ∃ u, s.StoresOnly u [s.sp - 1#16, s.sp - 2#16] ∧ t = { u with sp := s.sp - 2#16 } := by
  obtain ⟨s1, s2, h1, h2, rfl⟩ := State.push16_next.1 h
  exact ⟨s2, (State.store8_storesOnly h1).trans (State.store8_storesOnly h2), rfl⟩

/-- A pop reads, and then moves SP. -/
theorem State.pop16_storesOnly {s t : State} {v : Word} (h : s.pop16 = .next (v, t)) :
    ∃ u, s.StoresOnly u [] ∧ t = { u with sp := s.sp + 2#16 } := by
  obtain ⟨s1, h1, rfl⟩ := State.pop16_next.1 h
  exact ⟨s1, State.read16_storesOnly h1, rfl⟩

end Sys2Proof.Machine
end

