-- ==== Sys2Proof/Laws/PerInstr.lean ====
section
/-! SUPPORT. Laws stated per instruction: the op code byte alone gives the number of bytes an instruction is encoded in. -/

/-- The encoding begins with an op code byte whose layout has the encoding's length: the first byte alone selects the
length (R70, R72). -/
def Sys2Proof.Laws.OpcodeGivesLength.Statement (i : Sys2Proof.Instr) : Prop :=
  ∃ op rest, Sys2Proof.encode i = op :: rest ∧ (Sys2Proof.layoutOf op).length = i.length

namespace Sys2Proof.Laws.OpcodeGivesLength

theorem movDirA (dir : Sys2Proof.Byte) : Statement (.movDirA dir) := ⟨_, _, rfl, rfl⟩

theorem movAtIxA (off : Sys2Proof.Byte) : Statement (.movAtIxA off) := ⟨_, _, rfl, rfl⟩

theorem movExtA (ext : Sys2Proof.Word) : Statement (.movExtA ext) := ⟨_, _, rfl, rfl⟩

theorem movAtEpA : Statement (.movAtEpA) := ⟨_, _, rfl, rfl⟩

theorem movRiA (r : BitVec 3) : Statement (.movRiA r) := by
  match r with
  | 0 | 1 | 2 | 3 | 4 | 5 | 6 | 7 => exact ⟨_, _, rfl, rfl⟩

theorem movAImm (d8 : Sys2Proof.Byte) : Statement (.movAImm d8) := ⟨_, _, rfl, rfl⟩

theorem movADir (dir : Sys2Proof.Byte) : Statement (.movADir dir) := ⟨_, _, rfl, rfl⟩

theorem movAAtIx (off : Sys2Proof.Byte) : Statement (.movAAtIx off) := ⟨_, _, rfl, rfl⟩

theorem movAExt (ext : Sys2Proof.Word) : Statement (.movAExt ext) := ⟨_, _, rfl, rfl⟩

theorem movAAtA : Statement (.movAAtA) := ⟨_, _, rfl, rfl⟩

theorem movAAtEp : Statement (.movAAtEp) := ⟨_, _, rfl, rfl⟩

theorem movARi (r : BitVec 3) : Statement (.movARi r) := by
  match r with
  | 0 | 1 | 2 | 3 | 4 | 5 | 6 | 7 => exact ⟨_, _, rfl, rfl⟩

theorem movDirImm (dir : Sys2Proof.Byte) (d8 : Sys2Proof.Byte) : Statement (.movDirImm dir d8) := ⟨_, _, rfl, rfl⟩

theorem movAtIxImm (off : Sys2Proof.Byte) (d8 : Sys2Proof.Byte) : Statement (.movAtIxImm off d8) := ⟨_, _, rfl, rfl⟩

theorem movAtEpImm (d8 : Sys2Proof.Byte) : Statement (.movAtEpImm d8) := ⟨_, _, rfl, rfl⟩

theorem movRiImm (r : BitVec 3) (d8 : Sys2Proof.Byte) : Statement (.movRiImm r d8) := by
  match r with
  | 0 | 1 | 2 | 3 | 4 | 5 | 6 | 7 => exact ⟨_, _, rfl, rfl⟩

theorem movwDirA (dir : Sys2Proof.Byte) : Statement (.movwDirA dir) := ⟨_, _, rfl, rfl⟩

theorem movwAtIxA (off : Sys2Proof.Byte) : Statement (.movwAtIxA off) := ⟨_, _, rfl, rfl⟩

theorem movwExtA (ext : Sys2Proof.Word) : Statement (.movwExtA ext) := ⟨_, _, rfl, rfl⟩

theorem movwAtEpA : Statement (.movwAtEpA) := ⟨_, _, rfl, rfl⟩

theorem movwEpA : Statement (.movwEpA) := ⟨_, _, rfl, rfl⟩

theorem movwAImm (d16 : Sys2Proof.Word) : Statement (.movwAImm d16) := ⟨_, _, rfl, rfl⟩

theorem movwADir (dir : Sys2Proof.Byte) : Statement (.movwADir dir) := ⟨_, _, rfl, rfl⟩

theorem movwAAtIx (off : Sys2Proof.Byte) : Statement (.movwAAtIx off) := ⟨_, _, rfl, rfl⟩

theorem movwAExt (ext : Sys2Proof.Word) : Statement (.movwAExt ext) := ⟨_, _, rfl, rfl⟩

theorem movwAAtA : Statement (.movwAAtA) := ⟨_, _, rfl, rfl⟩

theorem movwAAtEp : Statement (.movwAAtEp) := ⟨_, _, rfl, rfl⟩

theorem movwAEp : Statement (.movwAEp) := ⟨_, _, rfl, rfl⟩

theorem movwEpImm (d16 : Sys2Proof.Word) : Statement (.movwEpImm d16) := ⟨_, _, rfl, rfl⟩

theorem movwIxA : Statement (.movwIxA) := ⟨_, _, rfl, rfl⟩

theorem movwAIx : Statement (.movwAIx) := ⟨_, _, rfl, rfl⟩

theorem movwSpA : Statement (.movwSpA) := ⟨_, _, rfl, rfl⟩

theorem movwASp : Statement (.movwASp) := ⟨_, _, rfl, rfl⟩

theorem movAtAT : Statement (.movAtAT) := ⟨_, _, rfl, rfl⟩

theorem movwAtAT : Statement (.movwAtAT) := ⟨_, _, rfl, rfl⟩

theorem movwIxImm (d16 : Sys2Proof.Word) : Statement (.movwIxImm d16) := ⟨_, _, rfl, rfl⟩

theorem movwAPs : Statement (.movwAPs) := ⟨_, _, rfl, rfl⟩

theorem movwPsA : Statement (.movwPsA) := ⟨_, _, rfl, rfl⟩

theorem movwSpImm (d16 : Sys2Proof.Word) : Statement (.movwSpImm d16) := ⟨_, _, rfl, rfl⟩

theorem swap : Statement (.swap) := ⟨_, _, rfl, rfl⟩

theorem setb (dir : Sys2Proof.Byte) (b : BitVec 3) : Statement (.setb dir b) := by
  match b with
  | 0 | 1 | 2 | 3 | 4 | 5 | 6 | 7 => exact ⟨_, _, rfl, rfl⟩

theorem clrb (dir : Sys2Proof.Byte) (b : BitVec 3) : Statement (.clrb dir b) := by
  match b with
  | 0 | 1 | 2 | 3 | 4 | 5 | 6 | 7 => exact ⟨_, _, rfl, rfl⟩

theorem xchAT : Statement (.xchAT) := ⟨_, _, rfl, rfl⟩

theorem xchwAT : Statement (.xchwAT) := ⟨_, _, rfl, rfl⟩

theorem xchwAEp : Statement (.xchwAEp) := ⟨_, _, rfl, rfl⟩

theorem xchwAIx : Statement (.xchwAIx) := ⟨_, _, rfl, rfl⟩

theorem xchwASp : Statement (.xchwASp) := ⟨_, _, rfl, rfl⟩

theorem movwAPc : Statement (.movwAPc) := ⟨_, _, rfl, rfl⟩

theorem addcARi (r : BitVec 3) : Statement (.addcARi r) := by
  match r with
  | 0 | 1 | 2 | 3 | 4 | 5 | 6 | 7 => exact ⟨_, _, rfl, rfl⟩

theorem addcAImm (d8 : Sys2Proof.Byte) : Statement (.addcAImm d8) := ⟨_, _, rfl, rfl⟩

theorem addcADir (dir : Sys2Proof.Byte) : Statement (.addcADir dir) := ⟨_, _, rfl, rfl⟩

theorem addcAAtIx (off : Sys2Proof.Byte) : Statement (.addcAAtIx off) := ⟨_, _, rfl, rfl⟩

theorem addcAAtEp : Statement (.addcAAtEp) := ⟨_, _, rfl, rfl⟩

theorem addcwA : Statement (.addcwA) := ⟨_, _, rfl, rfl⟩

theorem addcA : Statement (.addcA) := ⟨_, _, rfl, rfl⟩

theorem subcARi (r : BitVec 3) : Statement (.subcARi r) := by
  match r with
  | 0 | 1 | 2 | 3 | 4 | 5 | 6 | 7 => exact ⟨_, _, rfl, rfl⟩

theorem subcAImm (d8 : Sys2Proof.Byte) : Statement (.subcAImm d8) := ⟨_, _, rfl, rfl⟩

theorem subcADir (dir : Sys2Proof.Byte) : Statement (.subcADir dir) := ⟨_, _, rfl, rfl⟩

theorem subcAAtIx (off : Sys2Proof.Byte) : Statement (.subcAAtIx off) := ⟨_, _, rfl, rfl⟩

theorem subcAAtEp : Statement (.subcAAtEp) := ⟨_, _, rfl, rfl⟩

theorem subcwA : Statement (.subcwA) := ⟨_, _, rfl, rfl⟩

theorem subcA : Statement (.subcA) := ⟨_, _, rfl, rfl⟩

theorem incRi (r : BitVec 3) : Statement (.incRi r) := by
  match r with
  | 0 | 1 | 2 | 3 | 4 | 5 | 6 | 7 => exact ⟨_, _, rfl, rfl⟩

theorem incwEp : Statement (.incwEp) := ⟨_, _, rfl, rfl⟩

theorem incwIx : Statement (.incwIx) := ⟨_, _, rfl, rfl⟩

theorem incwA : Statement (.incwA) := ⟨_, _, rfl, rfl⟩

theorem decRi (r : BitVec 3) : Statement (.decRi r) := by
  match r with
  | 0 | 1 | 2 | 3 | 4 | 5 | 6 | 7 => exact ⟨_, _, rfl, rfl⟩

theorem decwEp : Statement (.decwEp) := ⟨_, _, rfl, rfl⟩

theorem decwIx : Statement (.decwIx) := ⟨_, _, rfl, rfl⟩

theorem decwA : Statement (.decwA) := ⟨_, _, rfl, rfl⟩

theorem mulu : Statement (.mulu) := ⟨_, _, rfl, rfl⟩

theorem divu : Statement (.divu) := ⟨_, _, rfl, rfl⟩

theorem andwA : Statement (.andwA) := ⟨_, _, rfl, rfl⟩

theorem orwA : Statement (.orwA) := ⟨_, _, rfl, rfl⟩

theorem xorwA : Statement (.xorwA) := ⟨_, _, rfl, rfl⟩

theorem cmpA : Statement (.cmpA) := ⟨_, _, rfl, rfl⟩

theorem cmpwA : Statement (.cmpwA) := ⟨_, _, rfl, rfl⟩

theorem rorc : Statement (.rorc) := ⟨_, _, rfl, rfl⟩

theorem rolc : Statement (.rolc) := ⟨_, _, rfl, rfl⟩

theorem cmpAImm (d8 : Sys2Proof.Byte) : Statement (.cmpAImm d8) := ⟨_, _, rfl, rfl⟩

theorem cmpADir (dir : Sys2Proof.Byte) : Statement (.cmpADir dir) := ⟨_, _, rfl, rfl⟩

theorem cmpAAtEp : Statement (.cmpAAtEp) := ⟨_, _, rfl, rfl⟩

theorem cmpAAtIx (off : Sys2Proof.Byte) : Statement (.cmpAAtIx off) := ⟨_, _, rfl, rfl⟩

theorem cmpARi (r : BitVec 3) : Statement (.cmpARi r) := by
  match r with
  | 0 | 1 | 2 | 3 | 4 | 5 | 6 | 7 => exact ⟨_, _, rfl, rfl⟩

theorem daa : Statement (.daa) := ⟨_, _, rfl, rfl⟩

theorem das : Statement (.das) := ⟨_, _, rfl, rfl⟩

theorem xorA : Statement (.xorA) := ⟨_, _, rfl, rfl⟩

theorem xorAImm (d8 : Sys2Proof.Byte) : Statement (.xorAImm d8) := ⟨_, _, rfl, rfl⟩

theorem xorADir (dir : Sys2Proof.Byte) : Statement (.xorADir dir) := ⟨_, _, rfl, rfl⟩

theorem xorAAtEp : Statement (.xorAAtEp) := ⟨_, _, rfl, rfl⟩

theorem xorAAtIx (off : Sys2Proof.Byte) : Statement (.xorAAtIx off) := ⟨_, _, rfl, rfl⟩

theorem xorARi (r : BitVec 3) : Statement (.xorARi r) := by
  match r with
  | 0 | 1 | 2 | 3 | 4 | 5 | 6 | 7 => exact ⟨_, _, rfl, rfl⟩

theorem andA : Statement (.andA) := ⟨_, _, rfl, rfl⟩

theorem andAImm (d8 : Sys2Proof.Byte) : Statement (.andAImm d8) := ⟨_, _, rfl, rfl⟩

theorem andADir (dir : Sys2Proof.Byte) : Statement (.andADir dir) := ⟨_, _, rfl, rfl⟩

theorem andAAtEp : Statement (.andAAtEp) := ⟨_, _, rfl, rfl⟩

theorem andAAtIx (off : Sys2Proof.Byte) : Statement (.andAAtIx off) := ⟨_, _, rfl, rfl⟩

theorem andARi (r : BitVec 3) : Statement (.andARi r) := by
  match r with
  | 0 | 1 | 2 | 3 | 4 | 5 | 6 | 7 => exact ⟨_, _, rfl, rfl⟩

theorem orA : Statement (.orA) := ⟨_, _, rfl, rfl⟩

theorem orAImm (d8 : Sys2Proof.Byte) : Statement (.orAImm d8) := ⟨_, _, rfl, rfl⟩

theorem orADir (dir : Sys2Proof.Byte) : Statement (.orADir dir) := ⟨_, _, rfl, rfl⟩

theorem orAAtEp : Statement (.orAAtEp) := ⟨_, _, rfl, rfl⟩

theorem orAAtIx (off : Sys2Proof.Byte) : Statement (.orAAtIx off) := ⟨_, _, rfl, rfl⟩

theorem orARi (r : BitVec 3) : Statement (.orARi r) := by
  match r with
  | 0 | 1 | 2 | 3 | 4 | 5 | 6 | 7 => exact ⟨_, _, rfl, rfl⟩

theorem cmpDirImm (dir : Sys2Proof.Byte) (d8 : Sys2Proof.Byte) : Statement (.cmpDirImm dir d8) := ⟨_, _, rfl, rfl⟩

theorem cmpAtEpImm (d8 : Sys2Proof.Byte) : Statement (.cmpAtEpImm d8) := ⟨_, _, rfl, rfl⟩

theorem cmpAtIxImm (off : Sys2Proof.Byte) (d8 : Sys2Proof.Byte) : Statement (.cmpAtIxImm off d8) := ⟨_, _, rfl, rfl⟩

theorem cmpRiImm (r : BitVec 3) (d8 : Sys2Proof.Byte) : Statement (.cmpRiImm r d8) := by
  match r with
  | 0 | 1 | 2 | 3 | 4 | 5 | 6 | 7 => exact ⟨_, _, rfl, rfl⟩

theorem incwSp : Statement (.incwSp) := ⟨_, _, rfl, rfl⟩

theorem decwSp : Statement (.decwSp) := ⟨_, _, rfl, rfl⟩

theorem bz (rel : Sys2Proof.Byte) : Statement (.bz rel) := ⟨_, _, rfl, rfl⟩

theorem bnz (rel : Sys2Proof.Byte) : Statement (.bnz rel) := ⟨_, _, rfl, rfl⟩

theorem bc (rel : Sys2Proof.Byte) : Statement (.bc rel) := ⟨_, _, rfl, rfl⟩

theorem bnc (rel : Sys2Proof.Byte) : Statement (.bnc rel) := ⟨_, _, rfl, rfl⟩

theorem bn (rel : Sys2Proof.Byte) : Statement (.bn rel) := ⟨_, _, rfl, rfl⟩

theorem bp (rel : Sys2Proof.Byte) : Statement (.bp rel) := ⟨_, _, rfl, rfl⟩

theorem blt (rel : Sys2Proof.Byte) : Statement (.blt rel) := ⟨_, _, rfl, rfl⟩

theorem bge (rel : Sys2Proof.Byte) : Statement (.bge rel) := ⟨_, _, rfl, rfl⟩

theorem bbc (dir : Sys2Proof.Byte) (b : BitVec 3) (rel : Sys2Proof.Byte) : Statement (.bbc dir b rel) := by
  match b with
  | 0 | 1 | 2 | 3 | 4 | 5 | 6 | 7 => exact ⟨_, _, rfl, rfl⟩

theorem bbs (dir : Sys2Proof.Byte) (b : BitVec 3) (rel : Sys2Proof.Byte) : Statement (.bbs dir b rel) := by
  match b with
  | 0 | 1 | 2 | 3 | 4 | 5 | 6 | 7 => exact ⟨_, _, rfl, rfl⟩

theorem jmpAtA : Statement (.jmpAtA) := ⟨_, _, rfl, rfl⟩

theorem jmpExt (ext : Sys2Proof.Word) : Statement (.jmpExt ext) := ⟨_, _, rfl, rfl⟩

theorem callv (k : BitVec 3) : Statement (.callv k) := by
  match k with
  | 0 | 1 | 2 | 3 | 4 | 5 | 6 | 7 => exact ⟨_, _, rfl, rfl⟩

theorem call (ext : Sys2Proof.Word) : Statement (.call ext) := ⟨_, _, rfl, rfl⟩

theorem xchwAPc : Statement (.xchwAPc) := ⟨_, _, rfl, rfl⟩

theorem ret : Statement (.ret) := ⟨_, _, rfl, rfl⟩

theorem reti : Statement (.reti) := ⟨_, _, rfl, rfl⟩

theorem pushwA : Statement (.pushwA) := ⟨_, _, rfl, rfl⟩

theorem popwA : Statement (.popwA) := ⟨_, _, rfl, rfl⟩

theorem pushwIx : Statement (.pushwIx) := ⟨_, _, rfl, rfl⟩

theorem popwIx : Statement (.popwIx) := ⟨_, _, rfl, rfl⟩

theorem nop : Statement (.nop) := ⟨_, _, rfl, rfl⟩

theorem clrc : Statement (.clrc) := ⟨_, _, rfl, rfl⟩

theorem setc : Statement (.setc) := ⟨_, _, rfl, rfl⟩

theorem clri : Statement (.clri) := ⟨_, _, rfl, rfl⟩

theorem seti : Statement (.seti) := ⟨_, _, rfl, rfl⟩

theorem unassigned : Statement (.unassigned) := ⟨_, _, rfl, rfl⟩

end Sys2Proof.Laws.OpcodeGivesLength
end

