-- ==== Sys2Proof/Tests/Slice0.lean ====
section
/-! SUPPORT. Tests: the checks of WellFormed, one word of every constructor, one step of every instruction on the numbers of its rule's own
example, the events of 95_test_vectors.md, and one witness for the hypotheses of every obligation that has any. -/

set_option maxRecDepth 8000

namespace Sys2Proof.Tests

open Sys2Proof Sys2Proof.Machine

/-! ## WellFormed refuses ill-formed terms -/

theorem test_wf_reserved_opcode : Instr.unassigned.wellFormed = false := by decide

theorem test_wf_assigned_opcode : (Instr.bbs 0xFF#8 7#3 0x80#8).wellFormed = true := by decide

theorem test_wf_region_upside_down : Region.wellFormed ⟨5, 4, .ram⟩ = false := by decide

theorem test_wf_region_past_the_top : Region.wellFormed ⟨0, 65536, .ram⟩ = false := by decide

theorem test_wf_device_bad_region : Device.wellFormed ⟨[⟨0, 65536, .ram⟩], 24, false⟩ = false := by decide

theorem test_wf_device_too_many_requests : Device.wellFormed ⟨[], 25, false⟩ = false := by decide

theorem test_wf_device : Device.wellFormed Device.allRam = true := by decide

theorem test_wf_request_not_on_device : BoundaryInput.wellFormed ⟨[], 3, false⟩ (.request 3 0#2) = false := by decide

theorem test_wf_request_past_23 : BoundaryInput.wellFormed ⟨[], 30, false⟩ (.request 24 0#2) = false := by decide

/-! ## Decoding: one word of every constructor, from its "Encoding" line -/

/-- The bytes are one instruction, and it is this one. -/
def reads (bytes : List Byte) (i : Instr) : Bool :=
  match decode bytes with
  | .ok (j, []) => j == i
  | _ => false

/-- All of a list of words. -/
def readsAll (words : List (List Byte × Instr)) : Bool := words.all fun w => reads w.1 w.2

theorem test_decode_transfer1 : readsAll [
    ([0x45#8, 0x9A#8], .movDirA 0x9A#8),
    ([0x46#8, 0xF3#8], .movAtIxA 0xF3#8),
    ([0x61#8, 0x12#8, 0x34#8], .movExtA 0x1234#16),
    ([0x47#8], .movAtEpA),
    ([0x4D#8], .movRiA 5#3),
    ([0x04#8, 0x5C#8], .movAImm 0x5C#8),
    ([0x05#8, 0x9A#8], .movADir 0x9A#8),
    ([0x06#8, 0xF3#8], .movAAtIx 0xF3#8),
    ([0x60#8, 0x12#8, 0x34#8], .movAExt 0x1234#16),
    ([0x92#8], .movAAtA),
    ([0x07#8], .movAAtEp),
    ([0x0D#8], .movARi 5#3),
    ([0x85#8, 0x9A#8, 0x5C#8], .movDirImm 0x9A#8 0x5C#8),
    ([0x86#8, 0xF3#8, 0x5C#8], .movAtIxImm 0xF3#8 0x5C#8),
    ([0x87#8, 0x5C#8], .movAtEpImm 0x5C#8),
    ([0x8D#8, 0x5C#8], .movRiImm 5#3 0x5C#8),
    ([0xD5#8, 0x9A#8], .movwDirA 0x9A#8),
    ([0xD6#8, 0xF3#8], .movwAtIxA 0xF3#8),
    ([0xD4#8, 0x12#8, 0x34#8], .movwExtA 0x1234#16),
    ([0xD7#8], .movwAtEpA),
    ([0xE3#8], .movwEpA),
    ([0xE4#8, 0x12#8, 0x34#8], .movwAImm 0x1234#16),
    ([0xC5#8, 0x9A#8], .movwADir 0x9A#8),
    ([0xC6#8, 0xF3#8], .movwAAtIx 0xF3#8)] = true := by decide

theorem test_decode_transfer2 : readsAll [
    ([0xC4#8, 0x12#8, 0x34#8], .movwAExt 0x1234#16),
    ([0x93#8], .movwAAtA),
    ([0xC7#8], .movwAAtEp),
    ([0xF3#8], .movwAEp),
    ([0xE7#8, 0x12#8, 0x34#8], .movwEpImm 0x1234#16),
    ([0xE2#8], .movwIxA),
    ([0xF2#8], .movwAIx),
    ([0xE1#8], .movwSpA),
    ([0xF1#8], .movwASp),
    ([0x82#8], .movAtAT),
    ([0x83#8], .movwAtAT),
    ([0xE6#8, 0x12#8, 0x34#8], .movwIxImm 0x1234#16),
    ([0x70#8], .movwAPs),
    ([0x71#8], .movwPsA),
    ([0xE5#8, 0x12#8, 0x34#8], .movwSpImm 0x1234#16),
    ([0x10#8], .swap),
    ([0xAB#8, 0x9A#8], .setb 0x9A#8 3#3),
    ([0xA3#8, 0x9A#8], .clrb 0x9A#8 3#3),
    ([0x42#8], .xchAT),
    ([0x43#8], .xchwAT),
    ([0xF7#8], .xchwAEp),
    ([0xF6#8], .xchwAIx),
    ([0xF5#8], .xchwASp),
    ([0xF0#8], .movwAPc)] = true := by decide

theorem test_decode_operation1 : readsAll [
    ([0x2D#8], .addcARi 5#3),
    ([0x24#8, 0x5C#8], .addcAImm 0x5C#8),
    ([0x25#8, 0x9A#8], .addcADir 0x9A#8),
    ([0x26#8, 0xF3#8], .addcAAtIx 0xF3#8),
    ([0x27#8], .addcAAtEp),
    ([0x23#8], .addcwA),
    ([0x22#8], .addcA),
    ([0x3D#8], .subcARi 5#3),
    ([0x34#8, 0x5C#8], .subcAImm 0x5C#8),
    ([0x35#8, 0x9A#8], .subcADir 0x9A#8),
    ([0x36#8, 0xF3#8], .subcAAtIx 0xF3#8),
    ([0x37#8], .subcAAtEp),
    ([0x33#8], .subcwA),
    ([0x32#8], .subcA),
    ([0xCD#8], .incRi 5#3),
    ([0xC3#8], .incwEp),
    ([0xC2#8], .incwIx),
    ([0xC0#8], .incwA),
    ([0xDD#8], .decRi 5#3),
    ([0xD3#8], .decwEp),
    ([0xD2#8], .decwIx),
    ([0xD0#8], .decwA)] = true := by decide

theorem test_decode_operation2 : readsAll [
    ([0x01#8], .mulu),
    ([0x11#8], .divu),
    ([0x63#8], .andwA),
    ([0x73#8], .orwA),
    ([0x53#8], .xorwA),
    ([0x12#8], .cmpA),
    ([0x13#8], .cmpwA),
    ([0x03#8], .rorc),
    ([0x02#8], .rolc),
    ([0x14#8, 0x5C#8], .cmpAImm 0x5C#8),
    ([0x15#8, 0x9A#8], .cmpADir 0x9A#8),
    ([0x17#8], .cmpAAtEp),
    ([0x16#8, 0xF3#8], .cmpAAtIx 0xF3#8),
    ([0x1D#8], .cmpARi 5#3),
    ([0x84#8], .daa),
    ([0x94#8], .das),
    ([0x52#8], .xorA),
    ([0x54#8, 0x5C#8], .xorAImm 0x5C#8),
    ([0x55#8, 0x9A#8], .xorADir 0x9A#8),
    ([0x57#8], .xorAAtEp)] = true := by decide

theorem test_decode_operation3 : readsAll [
    ([0x56#8, 0xF3#8], .xorAAtIx 0xF3#8),
    ([0x5D#8], .xorARi 5#3),
    ([0x62#8], .andA),
    ([0x64#8, 0x5C#8], .andAImm 0x5C#8),
    ([0x65#8, 0x9A#8], .andADir 0x9A#8),
    ([0x67#8], .andAAtEp),
    ([0x66#8, 0xF3#8], .andAAtIx 0xF3#8),
    ([0x6D#8], .andARi 5#3),
    ([0x72#8], .orA),
    ([0x74#8, 0x5C#8], .orAImm 0x5C#8),
    ([0x75#8, 0x9A#8], .orADir 0x9A#8),
    ([0x77#8], .orAAtEp),
    ([0x76#8, 0xF3#8], .orAAtIx 0xF3#8),
    ([0x7D#8], .orARi 5#3),
    ([0x95#8, 0x9A#8, 0x5C#8], .cmpDirImm 0x9A#8 0x5C#8),
    ([0x97#8, 0x5C#8], .cmpAtEpImm 0x5C#8),
    ([0x96#8, 0xF3#8, 0x5C#8], .cmpAtIxImm 0xF3#8 0x5C#8),
    ([0x9D#8, 0x5C#8], .cmpRiImm 5#3 0x5C#8),
    ([0xC1#8], .incwSp),
    ([0xD1#8], .decwSp)] = true := by decide

theorem test_decode_branch : readsAll [
    ([0xFD#8, 0xFD#8], .bz 0xFD#8),
    ([0xFC#8, 0xFD#8], .bnz 0xFD#8),
    ([0xF9#8, 0xFD#8], .bc 0xFD#8),
    ([0xF8#8, 0xFD#8], .bnc 0xFD#8),
    ([0xFB#8, 0xFD#8], .bn 0xFD#8),
    ([0xFA#8, 0xFD#8], .bp 0xFD#8),
    ([0xFF#8, 0xFD#8], .blt 0xFD#8),
    ([0xFE#8, 0xFD#8], .bge 0xFD#8),
    ([0xB3#8, 0x9A#8, 0xFD#8], .bbc 0x9A#8 3#3 0xFD#8),
    ([0xBB#8, 0x9A#8, 0xFD#8], .bbs 0x9A#8 3#3 0xFD#8),
    ([0xE0#8], .jmpAtA),
    ([0x21#8, 0x12#8, 0x34#8], .jmpExt 0x1234#16),
    ([0xEE#8], .callv 6#3),
    ([0x31#8, 0x12#8, 0x34#8], .call 0x1234#16),
    ([0xF4#8], .xchwAPc),
    ([0x20#8], .ret),
    ([0x30#8], .reti)] = true := by decide

theorem test_decode_other : readsAll [
    ([0x40#8], .pushwA),
    ([0x50#8], .popwA),
    ([0x41#8], .pushwIx),
    ([0x51#8], .popwIx),
    ([0x00#8], .nop),
    ([0x81#8], .clrc),
    ([0x91#8], .setc),
    ([0x80#8], .clri),
    ([0x90#8], .seti),
    ([0x44#8], .unassigned)] = true := by decide

/-- The table's numbering: the first byte is bits 7 to 0 (MOV ext,A with ext = 1280). -/
theorem test_decode_table_numbering : decodeTableWord 24 0x801261 = some (.movExtA 0x1280#16) := by decide

/-- Bits the table gives no row are zero. -/
theorem test_decode_table_short : decodeTableWord 8 0x85 = some (.movDirImm 0x00#8 0x00#8) := by decide

theorem test_decode_no_bytes : decode [] = .error .noOpcode := rfl

theorem test_decode_too_few_bytes : decode [0x31#8, 0x90#8] = .error (.operandMissing 0x31#8) := rfl

/-! ## One step of every instruction: the "Example (hex)" line of its rule -/

/-- The reset state with PC at `pc`, `code` there, `cells` in memory besides, and registers set. -/
def setUp (pc : Word) (code : List Byte) (cells : Memory) (set : State → State) : State :=
  set (State.placeBytes code pc { State.reset with pc := pc, mem := cells })

/-- The outcome is a next state with this property. -/
def ends (r : Res State) (p : State → Bool) : Bool :=
  match r with
  | .next t => p t
  | _ => false

theorem test_step_movDirA :
    ends (step (setUp 0x8000#16 [0x45#8, 0x90#8] [] (fun s => { s with a := 0x1234#16, ps := { s.ps with dp := 0x1#3 } })))
      (fun t => t.peek 0x0110#16 == some 0x34#8 && t.pc == 0x8002#16) = true := by decide

theorem test_step_movAtIxA :
    ends (step (setUp 0x8000#16 [0x46#8, 0xFE#8] [] (fun s => { s with a := 0x00AB#16, ix := 0x0200#16 })))
      (fun t => t.peek 0x01FE#16 == some 0xAB#8 && t.pc == 0x8002#16) = true := by decide

theorem test_step_movExtA :
    ends (step (setUp 0x8000#16 [0x61#8, 0x12#8, 0x80#8] [] (fun s => { s with a := 0xFF5A#16 })))
      (fun t => t.peek 0x1280#16 == some 0x5A#8 && t.pc == 0x8003#16) = true := by decide

theorem test_step_movAtEpA :
    ends (step (setUp 0x8000#16 [0x47#8] [] (fun s => { s with a := 0x0077#16, ep := 0x0300#16 })))
      (fun t => t.peek 0x0300#16 == some 0x77#8 && t.pc == 0x8001#16) = true := by decide

theorem test_step_movRiA :
    ends (step (setUp 0x8000#16 [0x4B#8] [] (fun s => { s with a := 0x00C3#16, ps := { s.ps with rp := 0x02#5 } })))
      (fun t => t.peek 0x0113#16 == some 0xC3#8 && t.pc == 0x8001#16) = true := by decide

theorem test_step_movAImm :
    ends (step (setUp 0x8000#16 [0x04#8, 0x80#8] [] (fun s => { s with a := 0x1234#16, t := 0x5678#16 })))
      (fun t => t.a == 0x1280#16 && t.t == 0x5634#16 && t.ps.n == true && t.ps.z == false && t.pc == 0x8002#16) = true := by decide

theorem test_step_movADir :
    ends (step (setUp 0x8000#16 [0x05#8, 0x80#8] [(0x0080, 0x00#8)] (fun s => { s with a := 0x11FF#16, t := 0x0000#16, ps := { s.ps with dp := 0x0#3 } })))
      (fun t => t.a == 0x1100#16 && t.t == 0x00FF#16 && t.ps.n == false && t.ps.z == true && t.pc == 0x8002#16) = true := by decide

theorem test_step_movAAtIx :
    ends (step (setUp 0x8000#16 [0x06#8, 0x05#8] [(0x0285, 0x7F#8)] (fun s => { s with a := 0x0001#16, ix := 0x0280#16 })))
      (fun t => t.a == 0x007F#16 && t.t == 0x0001#16 && t.ps.n == false && t.ps.z == false && t.pc == 0x8002#16) = true := by decide

theorem test_step_movAExt :
    ends (step (setUp 0x8000#16 [0x60#8, 0xE0#8, 0x10#8] [(0xE010, 0x9C#8)] (fun s => { s with a := 0x0000#16 })))
      (fun t => t.a == 0x009C#16 && t.ps.n == true && t.ps.z == false && t.pc == 0x8003#16) = true := by decide

theorem test_step_movAAtA :
    ends (step (setUp 0x8000#16 [0x92#8] [(0x0290, 0x42#8)] (fun s => { s with a := 0x0290#16, t := 0xAAAA#16 })))
      (fun t => t.a == 0x0242#16 && t.t == 0xAA90#16 && t.ps.n == false && t.ps.z == false && t.pc == 0x8001#16) = true := by decide

theorem test_step_movAAtEp :
    ends (step (setUp 0x8000#16 [0x07#8] [(0x0301, 0xF0#8)] (fun s => { s with a := 0x00EE#16, ep := 0x0301#16 })))
      (fun t => t.a == 0x00F0#16 && t.t == 0x00EE#16 && t.ps.n == true && t.ps.z == false && t.pc == 0x8001#16) = true := by decide

theorem test_step_movARi :
    ends (step (setUp 0x8000#16 [0x0A#8] [(0x01FA, 0x01#8)] (fun s => { s with a := 0x0055#16, ps := { s.ps with rp := 0x1F#5 } })))
      (fun t => t.a == 0x0001#16 && t.t == 0x0055#16 && t.ps.n == false && t.ps.z == false && t.pc == 0x8001#16) = true := by decide

theorem test_step_movDirImm :
    ends (step (setUp 0x8000#16 [0x85#8, 0x78#8, 0x0A#8] [] id))
      (fun t => t.ps.rp == 0x01#5 && t.ps.dp == 0x2#3 && t.peek 0x0078#16 == some 0x0A#8 && t.pc == 0x8003#16) = true := by decide

theorem test_step_movAtIxImm :
    ends (step (setUp 0x8000#16 [0x86#8, 0x80#8, 0x5A#8] [] (fun s => { s with ix := 0x0300#16 })))
      (fun t => t.peek 0x0280#16 == some 0x5A#8 && t.pc == 0x8003#16) = true := by decide

theorem test_step_movAtEpImm :
    ends (step (setUp 0x8000#16 [0x87#8, 0xFF#8] [] (fun s => { s with ep := 0x0100#16 })))
      (fun t => t.peek 0x0100#16 == some 0xFF#8 && t.pc == 0x8002#16) = true := by decide

theorem test_step_movRiImm :
    ends (step (setUp 0x8000#16 [0x8F#8, 0x33#8] [] (fun s => { s with ps := { s.ps with rp := 0x01#5 } })))
      (fun t => t.peek 0x010F#16 == some 0x33#8 && t.pc == 0x8002#16) = true := by decide

theorem test_step_movwDirA :
    ends (step (setUp 0x8000#16 [0xD5#8, 0x93#8] [] (fun s => { s with a := 0x1234#16, ps := { s.ps with dp := 0x0#3 } })))
      (fun t => t.peek 0x0093#16 == some 0x12#8 && t.peek 0x0094#16 == some 0x34#8 && t.pc == 0x8002#16) = true := by decide

theorem test_step_movwAtIxA :
    ends (step (setUp 0x8000#16 [0xD6#8, 0x02#8] [] (fun s => { s with a := 0xBEEF#16, ix := 0x0400#16 })))
      (fun t => t.peek 0x0402#16 == some 0xBE#8 && t.peek 0x0403#16 == some 0xEF#8 && t.pc == 0x8002#16) = true := by decide

theorem test_step_movwExtA :
    ends (step (setUp 0x8000#16 [0xD4#8, 0x02#8, 0x81#8] [] (fun s => { s with a := 0x00FF#16 })))
      (fun t => t.peek 0x0281#16 == some 0x00#8 && t.peek 0x0282#16 == some 0xFF#8 && t.pc == 0x8003#16) = true := by decide

theorem test_step_movwAtEpA :
    ends (step (setUp 0x8000#16 [0xD7#8] [] (fun s => { s with a := 0xA55A#16, ep := 0x02FE#16 })))
      (fun t => t.peek 0x02FE#16 == some 0xA5#8 && t.peek 0x02FF#16 == some 0x5A#8 && t.pc == 0x8001#16) = true := by decide

theorem test_step_movwEpA :
    ends (step (setUp 0x8000#16 [0xE3#8] [] (fun s => { s with a := 0x0312#16, ep := 0x0000#16 })))
      (fun t => t.ep == 0x0312#16 && t.pc == 0x8001#16) = true := by decide

theorem test_step_movwAImm :
    ends (step (setUp 0x8000#16 [0xE4#8, 0x12#8, 0x34#8] [] (fun s => { s with a := 0xABCD#16, t := 0x0000#16 })))
      (fun t => t.a == 0x1234#16 && t.t == 0xABCD#16 && t.ps.n == false && t.ps.z == false && t.pc == 0x8003#16) = true := by decide

theorem test_step_movwADir :
    ends (step (setUp 0x8000#16 [0xC5#8, 0x80#8] [(0x0180, 0x80#8), (0x0181, 0x00#8)] (fun s => { s with a := 0x0001#16, ps := { s.ps with dp := 0x2#3 } })))
      (fun t => t.a == 0x8000#16 && t.t == 0x0001#16 && t.ps.n == true && t.ps.z == false && t.pc == 0x8002#16) = true := by decide

theorem test_step_movwAAtIx :
    ends (step (setUp 0x8000#16 [0xC6#8, 0xFF#8] [(0x0280, 0x00#8), (0x0281, 0x00#8)] (fun s => { s with a := 0x1111#16, ix := 0x0281#16 })))
      (fun t => t.a == 0x0000#16 && t.t == 0x1111#16 && t.ps.n == false && t.ps.z == true && t.pc == 0x8002#16) = true := by decide

theorem test_step_movwAExt :
    ends (step (setUp 0x8000#16 [0xC4#8, 0xFF#8, 0xFE#8] [(0xFFFE, 0x80#8), (0xFFFF, 0x00#8)] (fun s => { s with a := 0x0000#16 })))
      (fun t => t.a == 0x8000#16 && t.ps.n == true && t.ps.z == false && t.pc == 0x8003#16) = true := by decide

theorem test_step_movwAAtA :
    ends (step (setUp 0x8000#16 [0x93#8] [(0xE000, 0x81#8), (0xE001, 0x23#8)] (fun s => { s with a := 0xE000#16, t := 0x0000#16 })))
      (fun t => t.a == 0x8123#16 && t.t == 0xE000#16 && t.ps.n == true && t.ps.z == false && t.pc == 0x8001#16) = true := by decide

theorem test_step_movwAAtEp :
    ends (step (setUp 0x8000#16 [0xC7#8] [(0x0290, 0x7F#8), (0x0291, 0xFF#8)] (fun s => { s with a := 0x0005#16, ep := 0x0290#16 })))
      (fun t => t.a == 0x7FFF#16 && t.t == 0x0005#16 && t.ps.n == false && t.ps.z == false && t.pc == 0x8001#16) = true := by decide

theorem test_step_movwAEp :
    ends (step (setUp 0x8000#16 [0xF3#8] [] (fun s => { s with a := 0x1111#16, t := 0x2222#16, ep := 0x8000#16, ps := { s.ps with n := false, z := true } })))
      (fun t => t.a == 0x8000#16 && t.ps.n == false && t.ps.z == true && t.pc == 0x8001#16) = true := by decide

theorem test_step_movwEpImm :
    ends (step (setUp 0x8000#16 [0xE7#8, 0x02#8, 0x80#8] [] id))
      (fun t => t.ep == 0x0280#16 && t.pc == 0x8003#16) = true := by decide

theorem test_step_movwIxA :
    ends (step (setUp 0x8000#16 [0xE2#8] [] (fun s => { s with a := 0x0456#16 })))
      (fun t => t.ix == 0x0456#16 && t.pc == 0x8001#16) = true := by decide

theorem test_step_movwAIx :
    ends (step (setUp 0x8000#16 [0xF2#8] [] (fun s => { s with a := 0x0000#16, ix := 0xFFFF#16, ps := { s.ps with n := false, z := false } })))
      (fun t => t.a == 0xFFFF#16 && t.ps.n == false && t.ps.z == false && t.pc == 0x8001#16) = true := by decide

theorem test_step_movwSpA :
    ends (step (setUp 0x8000#16 [0xE1#8] [] (fun s => { s with a := 0x0280#16 })))
      (fun t => t.sp == 0x0280#16 && t.pc == 0x8001#16) = true := by decide

theorem test_step_movwASp :
    ends (step (setUp 0x8000#16 [0xF1#8] [] (fun s => { s with a := 0x0000#16, sp := 0x027C#16 })))
      (fun t => t.a == 0x027C#16 && t.pc == 0x8001#16) = true := by decide

theorem test_step_movAtAT :
    ends (step (setUp 0x8000#16 [0x82#8] [] (fun s => { s with a := 0x0290#16, t := 0x12CD#16 })))
      (fun t => t.peek 0x0290#16 == some 0xCD#8 && t.pc == 0x8001#16) = true := by decide

theorem test_step_movwAtAT :
    ends (step (setUp 0x8000#16 [0x83#8] [] (fun s => { s with a := 0x0290#16, t := 0x12CD#16 })))
      (fun t => t.peek 0x0290#16 == some 0x12#8 && t.peek 0x0291#16 == some 0xCD#8 && t.pc == 0x8001#16) = true := by decide

theorem test_step_movwIxImm :
    ends (step (setUp 0x8000#16 [0xE6#8, 0xFF#8, 0xF0#8] [] id))
      (fun t => t.ix == 0xFFF0#16 && t.pc == 0x8003#16) = true := by decide

theorem test_step_movwAPs :
    ends (step (setUp 0x8000#16 [0x70#8] [] (fun s => { s with a := 0x0000#16, ps := { s.ps with rp := 0x03#5, dp := 0x1#3, h := false, i := true, il := 2#2, n := true, z := false, v := false, c := true } })))
      (fun t => t.a == 0x1969#16 && t.pc == 0x8001#16) = true := by decide

theorem test_step_movwPsA :
    ends (step (setUp 0x8000#16 [0x71#8] [] (fun s => { s with a := 0x0AE5#16 })))
      (fun t => t.ps.rp == 0x01#5 && t.ps.dp == 0x2#3 && t.ps.h == true && t.ps.i == true && t.ps.il == 2#2 && t.ps.n == false && t.ps.z == true && t.ps.v == false && t.ps.c == true && t.pc == 0x8001#16) = true := by decide

theorem test_step_movwSpImm :
    ends (step (setUp 0x8000#16 [0xE5#8, 0x02#8, 0x80#8] [] id))
      (fun t => t.sp == 0x0280#16 && t.pc == 0x8003#16) = true := by decide

theorem test_step_swap :
    ends (step (setUp 0x8000#16 [0x10#8] [] (fun s => { s with a := 0x12EF#16 })))
      (fun t => t.a == 0xEF12#16 && t.pc == 0x8001#16) = true := by decide

theorem test_step_setb :
    ends (step (setUp 0x8000#16 [0xAB#8, 0x00#8] [(0x0000, 0x01#8)] id))
      (fun t => t.peek 0x0000#16 == some 0x09#8 && t.pc == 0x8002#16) = true := by decide

theorem test_step_clrb :
    ends (step (setUp 0x8000#16 [0xA7#8, 0x85#8] [(0x0085, 0xFF#8)] (fun s => { s with ps := { s.ps with dp := 0x0#3 } })))
      (fun t => t.peek 0x0085#16 == some 0x7F#8 && t.pc == 0x8002#16) = true := by decide

theorem test_step_xchAT :
    ends (step (setUp 0x8000#16 [0x42#8] [] (fun s => { s with a := 0x11AA#16, t := 0x22BB#16 })))
      (fun t => t.a == 0x11BB#16 && t.t == 0x22AA#16 && t.pc == 0x8001#16) = true := by decide

theorem test_step_xchwAT :
    ends (step (setUp 0x8000#16 [0x43#8] [] (fun s => { s with a := 0x11AA#16, t := 0x22BB#16 })))
      (fun t => t.a == 0x22BB#16 && t.t == 0x11AA#16 && t.pc == 0x8001#16) = true := by decide

theorem test_step_xchwAEp :
    ends (step (setUp 0x8000#16 [0xF7#8] [] (fun s => { s with a := 0x0001#16, ep := 0x0300#16 })))
      (fun t => t.a == 0x0300#16 && t.ep == 0x0001#16 && t.pc == 0x8001#16) = true := by decide

theorem test_step_xchwAIx :
    ends (step (setUp 0x8000#16 [0xF6#8] [] (fun s => { s with a := 0x0001#16, ix := 0x0300#16 })))
      (fun t => t.a == 0x0300#16 && t.ix == 0x0001#16 && t.pc == 0x8001#16) = true := by decide

theorem test_step_xchwASp :
    ends (step (setUp 0x8000#16 [0xF5#8] [] (fun s => { s with a := 0x0280#16, sp := 0x0000#16 })))
      (fun t => t.a == 0x0000#16 && t.sp == 0x0280#16 && t.pc == 0x8001#16) = true := by decide

theorem test_step_movwAPc :
    ends (step (setUp 0x1233#16 [0xF0#8] [] (fun s => { s with a := 0x0000#16 })))
      (fun t => t.a == 0x1234#16 && t.pc == 0x1234#16) = true := by decide

theorem test_step_addcARi :
    ends (step (setUp 0x8000#16 [0x2B#8] [(0x0103, 0x01#8)] (fun s => { s with a := 0x12FF#16, ps := { s.ps with c := false, rp := 0x00#5 } })))
      (fun t => t.a == 0x1200#16 && t.ps.h == true && t.ps.n == false && t.ps.z == true && t.ps.v == false && t.ps.c == true && t.pc == 0x8001#16) = true := by decide

theorem test_step_addcAImm :
    ends (step (setUp 0x8000#16 [0x24#8, 0x25#8] [] (fun s => { s with a := 0x1275#16, ps := { s.ps with c := false } })))
      (fun t => t.a == 0x129A#16 && t.ps.h == false && t.ps.n == true && t.ps.z == false && t.ps.v == true && t.ps.c == false && t.pc == 0x8002#16) = true := by decide

theorem test_step_addcADir :
    ends (step (setUp 0x8000#16 [0x25#8, 0x82#8] [(0x0082, 0x01#8)] (fun s => { s with a := 0x127F#16, ps := { s.ps with c := false, dp := 0x0#3 } })))
      (fun t => t.a == 0x1280#16 && t.ps.h == true && t.ps.n == true && t.ps.z == false && t.ps.v == true && t.ps.c == false && t.pc == 0x8002#16) = true := by decide

theorem test_step_addcAAtIx :
    ends (step (setUp 0x8000#16 [0x26#8, 0xFF#8] [(0x0200, 0x80#8)] (fun s => { s with a := 0x1280#16, ix := 0x0201#16, ps := { s.ps with c := true } })))
      (fun t => t.a == 0x1201#16 && t.ps.h == false && t.ps.n == false && t.ps.z == false && t.ps.v == true && t.ps.c == true && t.pc == 0x8002#16) = true := by decide

theorem test_step_addcAAtEp :
    ends (step (setUp 0x8000#16 [0x27#8] [(0x0300, 0x00#8)] (fun s => { s with a := 0x120F#16, ep := 0x0300#16, ps := { s.ps with c := true } })))
      (fun t => t.a == 0x1210#16 && t.ps.h == true && t.ps.n == false && t.ps.z == false && t.ps.v == false && t.ps.c == false && t.pc == 0x8001#16) = true := by decide

theorem test_step_addcwA :
    ends (step (setUp 0x8000#16 [0x23#8] [] (fun s => { s with a := 0x7FFF#16, t := 0x0001#16, ps := { s.ps with c := false } })))
      (fun t => t.a == 0x8000#16 && t.ps.n == true && t.ps.z == false && t.ps.v == true && t.ps.c == false && t.pc == 0x8001#16) = true := by decide

theorem test_step_addcA :
    ends (step (setUp 0x8000#16 [0x22#8] [] (fun s => { s with a := 0x0138#16, t := 0xFF49#16, ps := { s.ps with c := true } })))
      (fun t => t.a == 0x0182#16 && t.ps.h == true && t.ps.n == true && t.ps.z == false && t.ps.v == true && t.ps.c == false && t.pc == 0x8001#16) = true := by decide

theorem test_step_subcARi :
    ends (step (setUp 0x8000#16 [0x3B#8] [(0x0103, 0x01#8)] (fun s => { s with a := 0x1200#16, ps := { s.ps with c := false, rp := 0x00#5 } })))
      (fun t => t.a == 0x12FF#16 && t.ps.h == true && t.ps.n == true && t.ps.z == false && t.ps.v == false && t.ps.c == true && t.pc == 0x8001#16) = true := by decide

theorem test_step_subcAImm :
    ends (step (setUp 0x8000#16 [0x34#8, 0x25#8] [] (fun s => { s with a := 0x1270#16, ps := { s.ps with c := false } })))
      (fun t => t.a == 0x124B#16 && t.ps.h == true && t.ps.n == false && t.ps.z == false && t.ps.v == false && t.ps.c == false && t.pc == 0x8002#16) = true := by decide

theorem test_step_subcADir :
    ends (step (setUp 0x8000#16 [0x35#8, 0x82#8] [(0x0082, 0x01#8)] (fun s => { s with a := 0x1280#16, ps := { s.ps with c := false, dp := 0x0#3 } })))
      (fun t => t.a == 0x127F#16 && t.ps.h == true && t.ps.n == false && t.ps.z == false && t.ps.v == true && t.ps.c == false && t.pc == 0x8002#16) = true := by decide

theorem test_step_subcAAtIx :
    ends (step (setUp 0x8000#16 [0x36#8, 0xFF#8] [(0x0200, 0x50#8)] (fun s => { s with a := 0x1250#16, ix := 0x0201#16, ps := { s.ps with c := false } })))
      (fun t => t.a == 0x1200#16 && t.ps.h == false && t.ps.n == false && t.ps.z == true && t.ps.v == false && t.ps.c == false && t.pc == 0x8002#16) = true := by decide

theorem test_step_subcAAtEp :
    ends (step (setUp 0x8000#16 [0x37#8] [(0x0300, 0x0F#8)] (fun s => { s with a := 0x1210#16, ep := 0x0300#16, ps := { s.ps with c := true } })))
      (fun t => t.a == 0x1200#16 && t.ps.h == true && t.ps.n == false && t.ps.z == true && t.ps.v == false && t.ps.c == false && t.pc == 0x8001#16) = true := by decide

theorem test_step_subcwA :
    ends (step (setUp 0x8000#16 [0x33#8] [] (fun s => { s with a := 0x0001#16, t := 0x8000#16, ps := { s.ps with c := false } })))
      (fun t => t.a == 0x7FFF#16 && t.ps.n == false && t.ps.z == false && t.ps.v == true && t.ps.c == false && t.pc == 0x8001#16) = true := by decide

theorem test_step_subcA :
    ends (step (setUp 0x8000#16 [0x32#8] [] (fun s => { s with a := 0x0025#16, t := 0x0070#16, ps := { s.ps with c := false } })))
      (fun t => t.a == 0x004B#16 && t.ps.h == true && t.ps.n == false && t.ps.z == false && t.ps.v == false && t.ps.c == false && t.pc == 0x8001#16) = true := by decide

theorem test_step_incRi :
    ends (step (setUp 0x8000#16 [0xCA#8] [(0x0102, 0x7F#8)] (fun s => { s with ps := { s.ps with rp := 0x00#5, c := true } })))
      (fun t => t.peek 0x0102#16 == some 0x80#8 && t.ps.n == true && t.ps.z == false && t.ps.v == true && t.ps.c == true && t.pc == 0x8001#16) = true := by decide

theorem test_step_incwEp :
    ends (step (setUp 0x8000#16 [0xC3#8] [] (fun s => { s with ep := 0xFFFF#16, ps := { s.ps with z := false, c := false } })))
      (fun t => t.ep == 0x0000#16 && t.ps.z == false && t.ps.c == false && t.pc == 0x8001#16) = true := by decide

theorem test_step_incwIx :
    ends (step (setUp 0x8000#16 [0xC2#8] [] (fun s => { s with ix := 0xFFFF#16, ps := { s.ps with z := false, c := false } })))
      (fun t => t.ix == 0x0000#16 && t.ps.z == false && t.ps.c == false && t.pc == 0x8001#16) = true := by decide

theorem test_step_incwA :
    ends (step (setUp 0x8000#16 [0xC0#8] [] (fun s => { s with a := 0xFFFF#16, ps := { s.ps with v := false, c := false } })))
      (fun t => t.a == 0x0000#16 && t.ps.n == false && t.ps.z == true && t.ps.v == false && t.ps.c == false && t.pc == 0x8001#16) = true := by decide

theorem test_step_decRi :
    ends (step (setUp 0x8000#16 [0xDF#8] [(0x010F, 0x01#8)] (fun s => { s with ps := { s.ps with rp := 0x01#5, c := false } })))
      (fun t => t.peek 0x010F#16 == some 0x00#8 && t.ps.n == false && t.ps.z == true && t.ps.v == false && t.ps.c == false && t.pc == 0x8001#16) = true := by decide

theorem test_step_decwEp :
    ends (step (setUp 0x8000#16 [0xD3#8] [] (fun s => { s with ep := 0x0000#16, ps := { s.ps with n := false, c := false } })))
      (fun t => t.ep == 0xFFFF#16 && t.ps.n == false && t.ps.c == false && t.pc == 0x8001#16) = true := by decide

theorem test_step_decwIx :
    ends (step (setUp 0x8000#16 [0xD2#8] [] (fun s => { s with ix := 0x0000#16, ps := { s.ps with n := false, c := false } })))
      (fun t => t.ix == 0xFFFF#16 && t.ps.n == false && t.ps.c == false && t.pc == 0x8001#16) = true := by decide

theorem test_step_decwA :
    ends (step (setUp 0x8000#16 [0xD0#8] [] (fun s => { s with a := 0x0001#16, ps := { s.ps with v := true, c := true } })))
      (fun t => t.a == 0x0000#16 && t.ps.n == false && t.ps.z == true && t.ps.v == true && t.ps.c == true && t.pc == 0x8001#16) = true := by decide

theorem test_step_mulu :
    ends (step (setUp 0x8000#16 [0x01#8] [] (fun s => { s with a := 0x55FF#16, t := 0xAAFF#16, ps := { s.ps with n := true, z := false, v := true, c := true } })))
      (fun t => t.a == 0xFE01#16 && t.ps.n == true && t.ps.z == false && t.ps.v == true && t.ps.c == true && t.pc == 0x8001#16) = true := by decide

theorem test_step_divu :
    ends (step (setUp 0x8000#16 [0x11#8] [] (fun s => { s with a := 0x0007#16, t := 0x0064#16, ps := { s.ps with n := true, z := true, v := true, c := true } })))
      (fun t => t.a == 0x000E#16 && t.t == 0x0002#16 && t.ps.n == true && t.ps.z == false && t.ps.v == true && t.ps.c == true && t.pc == 0x8001#16) = true := by decide

theorem test_step_andwA :
    ends (step (setUp 0x8000#16 [0x63#8] [] (fun s => { s with a := 0xFF0F#16, t := 0x0FF0#16, ps := { s.ps with v := true, c := true } })))
      (fun t => t.a == 0x0F00#16 && t.ps.n == false && t.ps.z == false && t.ps.v == false && t.ps.c == true && t.pc == 0x8001#16) = true := by decide

theorem test_step_orwA :
    ends (step (setUp 0x8000#16 [0x73#8] [] (fun s => { s with a := 0x8000#16, t := 0x0001#16, ps := { s.ps with v := true, c := true } })))
      (fun t => t.a == 0x8001#16 && t.ps.n == true && t.ps.z == false && t.ps.v == false && t.ps.c == true && t.pc == 0x8001#16) = true := by decide

theorem test_step_xorwA :
    ends (step (setUp 0x8000#16 [0x53#8] [] (fun s => { s with a := 0xAAAA#16, t := 0xAAAA#16, ps := { s.ps with v := true, c := true } })))
      (fun t => t.a == 0x0000#16 && t.ps.n == false && t.ps.z == true && t.ps.v == false && t.ps.c == true && t.pc == 0x8001#16) = true := by decide

theorem test_step_cmpA :
    ends (step (setUp 0x8000#16 [0x12#8] [] (fun s => { s with a := 0x0030#16, t := 0x0020#16 })))
      (fun t => t.ps.n == true && t.ps.z == false && t.ps.v == false && t.ps.c == true && t.pc == 0x8001#16) = true := by decide

theorem test_step_cmpwA :
    ends (step (setUp 0x8000#16 [0x13#8] [] (fun s => { s with a := 0x1234#16, t := 0x1234#16 })))
      (fun t => t.ps.n == false && t.ps.z == true && t.ps.v == false && t.ps.c == false && t.pc == 0x8001#16) = true := by decide

theorem test_step_rorc :
    ends (step (setUp 0x8000#16 [0x03#8] [] (fun s => { s with a := 0x1201#16, ps := { s.ps with c := false, v := true } })))
      (fun t => t.a == 0x1200#16 && t.ps.n == false && t.ps.z == true && t.ps.v == true && t.ps.c == true && t.pc == 0x8001#16) = true := by decide

theorem test_step_rolc :
    ends (step (setUp 0x8000#16 [0x02#8] [] (fun s => { s with a := 0x1280#16, ps := { s.ps with c := true, v := true } })))
      (fun t => t.a == 0x1201#16 && t.ps.n == false && t.ps.z == false && t.ps.v == true && t.ps.c == true && t.pc == 0x8001#16) = true := by decide

theorem test_step_cmpAImm :
    ends (step (setUp 0x8000#16 [0x14#8, 0x25#8] [] (fun s => { s with a := 0x1225#16 })))
      (fun t => t.ps.n == false && t.ps.z == true && t.ps.v == false && t.ps.c == false && t.pc == 0x8002#16) = true := by decide

theorem test_step_cmpADir :
    ends (step (setUp 0x8000#16 [0x15#8, 0x82#8] [(0x0082, 0x20#8)] (fun s => { s with a := 0x1210#16, ps := { s.ps with dp := 0x0#3 } })))
      (fun t => t.ps.n == true && t.ps.z == false && t.ps.v == false && t.ps.c == true && t.pc == 0x8002#16) = true := by decide

theorem test_step_cmpAAtEp :
    ends (step (setUp 0x8000#16 [0x17#8] [(0x0300, 0x01#8)] (fun s => { s with a := 0x1280#16, ep := 0x0300#16 })))
      (fun t => t.ps.n == false && t.ps.z == false && t.ps.v == true && t.ps.c == false && t.pc == 0x8001#16) = true := by decide

theorem test_step_cmpAAtIx :
    ends (step (setUp 0x8000#16 [0x16#8, 0xFF#8] [(0x0200, 0xFF#8)] (fun s => { s with a := 0x127F#16, ix := 0x0201#16 })))
      (fun t => t.ps.n == true && t.ps.z == false && t.ps.v == true && t.ps.c == true && t.pc == 0x8002#16) = true := by decide

theorem test_step_cmpARi :
    ends (step (setUp 0x8000#16 [0x1B#8] [(0x0103, 0x00#8)] (fun s => { s with a := 0x12FF#16, ps := { s.ps with rp := 0x00#5 } })))
      (fun t => t.ps.n == true && t.ps.z == false && t.ps.v == false && t.ps.c == false && t.pc == 0x8001#16) = true := by decide

theorem test_step_daa :
    ends (step (setUp 0x8000#16 [0x84#8] [] (fun s => { s with a := 0x009A#16, ps := { s.ps with c := false, h := false } })))
      (fun t => t.a == 0x0000#16 && t.ps.h == false && t.ps.n == false && t.ps.z == true && t.ps.v == false && t.ps.c == true && t.pc == 0x8001#16) = true := by decide

theorem test_step_das :
    ends (step (setUp 0x8000#16 [0x94#8] [] (fun s => { s with a := 0x004B#16, ps := { s.ps with c := false, h := true } })))
      (fun t => t.a == 0x0045#16 && t.ps.h == true && t.ps.n == false && t.ps.z == false && t.ps.v == false && t.ps.c == false && t.pc == 0x8001#16) = true := by decide

theorem test_step_xorA :
    ends (step (setUp 0x8000#16 [0x52#8] [] (fun s => { s with a := 0x12FF#16, t := 0x00FF#16, ps := { s.ps with v := true, c := true } })))
      (fun t => t.a == 0x1200#16 && t.ps.n == false && t.ps.z == true && t.ps.v == false && t.ps.c == true && t.pc == 0x8001#16) = true := by decide

theorem test_step_xorAImm :
    ends (step (setUp 0x8000#16 [0x54#8, 0xFF#8] [] (fun s => { s with a := 0x1255#16, ps := { s.ps with v := true, c := false } })))
      (fun t => t.a == 0x12AA#16 && t.ps.n == true && t.ps.z == false && t.ps.v == false && t.ps.c == false && t.pc == 0x8002#16) = true := by decide

theorem test_step_xorADir :
    ends (step (setUp 0x8000#16 [0x55#8, 0x82#8] [(0x0082, 0xF0#8)] (fun s => { s with a := 0x12F0#16, ps := { s.ps with v := true, c := true, dp := 0x0#3 } })))
      (fun t => t.a == 0x1200#16 && t.ps.n == false && t.ps.z == true && t.ps.v == false && t.ps.c == true && t.pc == 0x8002#16) = true := by decide

theorem test_step_xorAAtEp :
    ends (step (setUp 0x8000#16 [0x57#8] [(0x0300, 0x80#8)] (fun s => { s with a := 0x1201#16, ep := 0x0300#16, ps := { s.ps with c := false } })))
      (fun t => t.a == 0x1281#16 && t.ps.n == true && t.ps.z == false && t.ps.v == false && t.ps.c == false && t.pc == 0x8001#16) = true := by decide

theorem test_step_xorAAtIx :
    ends (step (setUp 0x8000#16 [0x56#8, 0xFF#8] [(0x0200, 0x55#8)] (fun s => { s with a := 0x12AA#16, ix := 0x0201#16, ps := { s.ps with c := true } })))
      (fun t => t.a == 0x12FF#16 && t.ps.n == true && t.ps.z == false && t.ps.v == false && t.ps.c == true && t.pc == 0x8002#16) = true := by decide

theorem test_step_xorARi :
    ends (step (setUp 0x8000#16 [0x5B#8] [(0x0103, 0x00#8)] (fun s => { s with a := 0x1200#16, ps := { s.ps with v := true, rp := 0x00#5 } })))
      (fun t => t.ps.n == false && t.ps.z == true && t.ps.v == false && t.ps.c == false && t.pc == 0x8001#16) = true := by decide

theorem test_step_andA :
    ends (step (setUp 0x8000#16 [0x62#8] [] (fun s => { s with a := 0x12F0#16, t := 0x000F#16, ps := { s.ps with v := true, c := true } })))
      (fun t => t.a == 0x1200#16 && t.ps.n == false && t.ps.z == true && t.ps.v == false && t.ps.c == true && t.pc == 0x8001#16) = true := by decide

theorem test_step_andAImm :
    ends (step (setUp 0x8000#16 [0x64#8, 0x0F#8] [] (fun s => { s with a := 0x125A#16, ps := { s.ps with v := true, c := false } })))
      (fun t => t.a == 0x120A#16 && t.ps.n == false && t.ps.z == false && t.ps.v == false && t.ps.c == false && t.pc == 0x8002#16) = true := by decide

theorem test_step_andADir :
    ends (step (setUp 0x8000#16 [0x65#8, 0x82#8] [(0x0082, 0x80#8)] (fun s => { s with a := 0x12FF#16, ps := { s.ps with v := true, c := true, dp := 0x0#3 } })))
      (fun t => t.a == 0x1280#16 && t.ps.n == true && t.ps.z == false && t.ps.v == false && t.ps.c == true && t.pc == 0x8002#16) = true := by decide

theorem test_step_andAAtEp :
    ends (step (setUp 0x8000#16 [0x67#8] [(0x0300, 0xF0#8)] (fun s => { s with a := 0x120F#16, ep := 0x0300#16, ps := { s.ps with c := false } })))
      (fun t => t.a == 0x1200#16 && t.ps.n == false && t.ps.z == true && t.ps.v == false && t.ps.c == false && t.pc == 0x8001#16) = true := by decide

theorem test_step_andAAtIx :
    ends (step (setUp 0x8000#16 [0x66#8, 0xFF#8] [(0x0200, 0xFF#8)] (fun s => { s with a := 0x12FF#16, ix := 0x0201#16, ps := { s.ps with c := true } })))
      (fun t => t.ps.n == true && t.ps.z == false && t.ps.v == false && t.ps.c == true && t.pc == 0x8002#16) = true := by decide

theorem test_step_andARi :
    ends (step (setUp 0x8000#16 [0x6B#8] [(0x0103, 0x7E#8)] (fun s => { s with a := 0x1281#16, ps := { s.ps with v := true, rp := 0x00#5 } })))
      (fun t => t.a == 0x1200#16 && t.ps.n == false && t.ps.z == true && t.ps.v == false && t.ps.c == false && t.pc == 0x8001#16) = true := by decide

theorem test_step_orA :
    ends (step (setUp 0x8000#16 [0x72#8] [] (fun s => { s with a := 0x1200#16, t := 0x0000#16, ps := { s.ps with v := true, c := true } })))
      (fun t => t.ps.n == false && t.ps.z == true && t.ps.v == false && t.ps.c == true && t.pc == 0x8001#16) = true := by decide

theorem test_step_orAImm :
    ends (step (setUp 0x8000#16 [0x74#8, 0x80#8] [] (fun s => { s with a := 0x1201#16, ps := { s.ps with v := true, c := false } })))
      (fun t => t.a == 0x1281#16 && t.ps.n == true && t.ps.z == false && t.ps.v == false && t.ps.c == false && t.pc == 0x8002#16) = true := by decide

theorem test_step_orADir :
    ends (step (setUp 0x8000#16 [0x75#8, 0x82#8] [(0x0082, 0x00#8)] (fun s => { s with a := 0x1200#16, ps := { s.ps with v := true, c := true, dp := 0x0#3 } })))
      (fun t => t.ps.n == false && t.ps.z == true && t.ps.v == false && t.ps.c == true && t.pc == 0x8002#16) = true := by decide

theorem test_step_orAAtEp :
    ends (step (setUp 0x8000#16 [0x77#8] [(0x0300, 0xF0#8)] (fun s => { s with a := 0x120F#16, ep := 0x0300#16, ps := { s.ps with c := false } })))
      (fun t => t.a == 0x12FF#16 && t.ps.n == true && t.ps.z == false && t.ps.v == false && t.ps.c == false && t.pc == 0x8001#16) = true := by decide

theorem test_step_orAAtIx :
    ends (step (setUp 0x8000#16 [0x76#8, 0xFF#8] [(0x0200, 0x2A#8)] (fun s => { s with a := 0x1255#16, ix := 0x0201#16, ps := { s.ps with c := true } })))
      (fun t => t.a == 0x127F#16 && t.ps.n == false && t.ps.z == false && t.ps.v == false && t.ps.c == true && t.pc == 0x8002#16) = true := by decide

theorem test_step_orARi :
    ends (step (setUp 0x8000#16 [0x7B#8] [(0x0103, 0x00#8)] (fun s => { s with a := 0x1280#16, ps := { s.ps with v := true, rp := 0x00#5 } })))
      (fun t => t.ps.n == true && t.ps.z == false && t.ps.v == false && t.ps.c == false && t.pc == 0x8001#16) = true := by decide

theorem test_step_cmpDirImm :
    ends (step (setUp 0x8000#16 [0x95#8, 0x40#8, 0x10#8] [(0x0040, 0x0F#8)] id))
      (fun t => t.ps.n == true && t.ps.z == false && t.ps.v == false && t.ps.c == true && t.pc == 0x8003#16) = true := by decide

theorem test_step_cmpAtEpImm :
    ends (step (setUp 0x8000#16 [0x97#8, 0x80#8] [(0x0300, 0x80#8)] (fun s => { s with ep := 0x0300#16 })))
      (fun t => t.ps.n == false && t.ps.z == true && t.ps.v == false && t.ps.c == false && t.pc == 0x8002#16) = true := by decide

theorem test_step_cmpAtIxImm :
    ends (step (setUp 0x8000#16 [0x96#8, 0x01#8, 0x7F#8] [(0x0201, 0x80#8)] (fun s => { s with ix := 0x0200#16 })))
      (fun t => t.ps.n == false && t.ps.z == false && t.ps.v == true && t.ps.c == false && t.pc == 0x8003#16) = true := by decide

theorem test_step_cmpRiImm :
    ends (step (setUp 0x8000#16 [0x99#8, 0x05#8] [(0x0101, 0x03#8)] (fun s => { s with ps := { s.ps with rp := 0x00#5 } })))
      (fun t => t.ps.n == true && t.ps.z == false && t.ps.v == false && t.ps.c == true && t.pc == 0x8002#16) = true := by decide

theorem test_step_incwSp :
    ends (step (setUp 0x8000#16 [0xC1#8] [] (fun s => { s with sp := 0x027F#16 })))
      (fun t => t.sp == 0x0280#16 && t.pc == 0x8001#16) = true := by decide

theorem test_step_decwSp :
    ends (step (setUp 0x8000#16 [0xD1#8] [] (fun s => { s with sp := 0x0000#16 })))
      (fun t => t.sp == 0xFFFF#16 && t.pc == 0x8001#16) = true := by decide

theorem test_step_bz :
    ends (step (setUp 0x8000#16 [0xFD#8, 0x10#8] [] (fun s => { s with ps := { s.ps with z := true } })))
      (fun t => t.pc == 0x8012#16) = true := by decide

theorem test_step_bnz :
    ends (step (setUp 0x8000#16 [0xFC#8, 0x10#8] [] (fun s => { s with ps := { s.ps with z := false } })))
      (fun t => t.pc == 0x8012#16) = true := by decide

theorem test_step_bc :
    ends (step (setUp 0x8000#16 [0xF9#8, 0x10#8] [] (fun s => { s with ps := { s.ps with c := true } })))
      (fun t => t.pc == 0x8012#16) = true := by decide

theorem test_step_bnc :
    ends (step (setUp 0x8000#16 [0xF8#8, 0x10#8] [] (fun s => { s with ps := { s.ps with c := false } })))
      (fun t => t.pc == 0x8012#16) = true := by decide

theorem test_step_bn :
    ends (step (setUp 0x8000#16 [0xFB#8, 0x10#8] [] (fun s => { s with ps := { s.ps with n := true } })))
      (fun t => t.pc == 0x8012#16) = true := by decide

theorem test_step_bp :
    ends (step (setUp 0x8000#16 [0xFA#8, 0x10#8] [] (fun s => { s with ps := { s.ps with n := false } })))
      (fun t => t.pc == 0x8012#16) = true := by decide

theorem test_step_blt :
    ends (step (setUp 0x8000#16 [0xFF#8, 0x10#8] [] (fun s => { s with ps := { s.ps with n := true, v := false } })))
      (fun t => t.pc == 0x8012#16) = true := by decide

theorem test_step_bge :
    ends (step (setUp 0x8000#16 [0xFE#8, 0x10#8] [] (fun s => { s with ps := { s.ps with n := true, v := true } })))
      (fun t => t.pc == 0x8012#16) = true := by decide

theorem test_step_bbc :
    ends (step (setUp 0x8000#16 [0xB3#8, 0x20#8, 0x05#8] [(0x0020, 0xF7#8)] (fun s => { s with ps := { s.ps with z := false } })))
      (fun t => t.ps.z == true && t.pc == 0x8008#16) = true := by decide

theorem test_step_bbs :
    ends (step (setUp 0x8000#16 [0xBF#8, 0x90#8, 0xFD#8] [(0x0090, 0x80#8)] (fun s => { s with ps := { s.ps with dp := 0x0#3, z := true } })))
      (fun t => t.ps.z == false && t.pc == 0x8000#16) = true := by decide

theorem test_step_jmpAtA :
    ends (step (setUp 0x8000#16 [0xE0#8] [] (fun s => { s with a := 0x1234#16 })))
      (fun t => t.pc == 0x1234#16) = true := by decide

theorem test_step_jmpExt :
    ends (step (setUp 0x8000#16 [0x21#8, 0xF0#8, 0x00#8] [] id))
      (fun t => t.pc == 0xF000#16) = true := by decide

theorem test_step_callv :
    ends (step (setUp 0x8000#16 [0xEA#8] [(0xFFC4, 0x90#8), (0xFFC5, 0x40#8)] (fun s => { s with sp := 0x0280#16 })))
      (fun t => t.sp == 0x027E#16 && t.peek 0x027F#16 == some 0x01#8 && t.peek 0x027E#16 == some 0x80#8 && t.pc == 0x9040#16) = true := by decide

theorem test_step_call :
    ends (step (setUp 0x8000#16 [0x31#8, 0x90#8, 0x00#8] [] (fun s => { s with sp := 0x0280#16 })))
      (fun t => t.sp == 0x027E#16 && t.peek 0x027F#16 == some 0x03#8 && t.peek 0x027E#16 == some 0x80#8 && t.pc == 0x9000#16) = true := by decide

theorem test_step_xchwAPc :
    ends (step (setUp 0x1234#16 [0xF4#8] [] (fun s => { s with a := 0x5678#16 })))
      (fun t => t.a == 0x1235#16 && t.pc == 0x5678#16) = true := by decide

theorem test_step_ret :
    ends (step (setUp 0x9000#16 [0x20#8] [(0x027E, 0x80#8), (0x027F, 0x03#8)] (fun s => { s with sp := 0x027E#16 })))
      (fun t => t.sp == 0x0280#16 && t.pc == 0x8003#16) = true := by decide

theorem test_step_reti :
    ends (step (setUp 0xA000#16 [0x30#8] [(0x027C, 0x08#8), (0x027D, 0x75#8), (0x027E, 0x80#8), (0x027F, 0x10#8)] (fun s => { s with sp := 0x027C#16, ps := { s.ps with rp := 0x00#5, dp := 0x0#3, i := true, il := 1#2 } })))
      (fun t => t.sp == 0x0280#16 && t.ps.rp == 0x01#5 && t.ps.h == false && t.ps.i == true && t.ps.il == 3#2 && t.ps.n == false && t.ps.z == true && t.ps.v == false && t.ps.c == true && t.pc == 0x8010#16) = true := by decide

theorem test_step_pushwA :
    ends (step (setUp 0x8000#16 [0x40#8] [] (fun s => { s with a := 0x1234#16, sp := 0x0280#16 })))
      (fun t => t.sp == 0x027E#16 && t.peek 0x027F#16 == some 0x34#8 && t.peek 0x027E#16 == some 0x12#8 && t.pc == 0x8001#16) = true := by decide

theorem test_step_popwA :
    ends (step (setUp 0x8000#16 [0x50#8] [(0x027E, 0x12#8), (0x027F, 0x34#8)] (fun s => { s with a := 0x0000#16, t := 0x5555#16, sp := 0x027E#16 })))
      (fun t => t.a == 0x1234#16 && t.sp == 0x0280#16 && t.pc == 0x8001#16) = true := by decide

theorem test_step_pushwIx :
    ends (step (setUp 0x8000#16 [0x41#8] [] (fun s => { s with ix := 0xBEEF#16, sp := 0x0002#16 })))
      (fun t => t.sp == 0x0000#16 && t.peek 0x0001#16 == some 0xEF#8 && t.peek 0x0000#16 == some 0xBE#8 && t.pc == 0x8001#16) = true := by decide

theorem test_step_popwIx :
    ends (step (setUp 0x8000#16 [0x51#8] [(0x027E, 0xBE#8), (0x027F, 0xEF#8)] (fun s => { s with ix := 0x0000#16, sp := 0x027E#16 })))
      (fun t => t.ix == 0xBEEF#16 && t.sp == 0x0280#16 && t.pc == 0x8001#16) = true := by decide

theorem test_step_nop :
    ends (step (setUp 0x8000#16 [0x00#8] [] id))
      (fun t => t.pc == 0x8001#16) = true := by decide

theorem test_step_clrc :
    ends (step (setUp 0x8000#16 [0x81#8] [] (fun s => { s with ps := { s.ps with c := true, z := true } })))
      (fun t => t.ps.z == true && t.ps.c == false && t.pc == 0x8001#16) = true := by decide

theorem test_step_setc :
    ends (step (setUp 0x8000#16 [0x91#8] [] (fun s => { s with ps := { s.ps with c := false } })))
      (fun t => t.ps.c == true && t.pc == 0x8001#16) = true := by decide

theorem test_step_clri :
    ends (step (setUp 0x8000#16 [0x80#8] [] (fun s => { s with ps := { s.ps with i := true } })))
      (fun t => t.ps.i == false && t.pc == 0x8001#16) = true := by decide

theorem test_step_seti :
    ends (step (setUp 0x8000#16 [0x90#8] [] (fun s => { s with ps := { s.ps with i := false } })))
      (fun t => t.ps.i == true && t.pc == 0x8001#16) = true := by decide

/-! ## Interrupts, reset and steps that stop (95_test_vectors.md 2.6, 2.7) -/

/-- Vector I1: request 2 at level 1 with I = 1 and IL = 3 is entered. -/
theorem test_entry_I1 :
    ends (step (setUp 0x8123#16 [0x00#8] [(0xFFF6, 0x90#8), (0xFFF7, 0x00#8)] (fun s =>
        { s with sp := 0x0200#16, ps := Status.ofWord 0x0874#16, inputs := [.request 2 1#2] })))
      (fun t => t.peek 0x01FF#16 == some 0x23#8 && t.peek 0x01FE#16 == some 0x81#8 && t.peek 0x01FD#16 == some 0x74#8 &&
        t.peek 0x01FC#16 == some 0x08#8 && t.sp == 0x01FC#16 && t.ps.toWord == 0x0854#16 && t.pc == 0x9000#16) = true := by
  decide

/-- Vector I7: request 23, the last one. -/
theorem test_entry_I7 :
    ends (step (setUp 0x8123#16 [0x00#8] [(0xFFCC, 0xB0#8), (0xFFCD, 0x00#8)] (fun s =>
        { s with sp := 0x0200#16, ps := Status.ofWord 0xFDF9#16, inputs := [.request 23 2#2] })))
      (fun t => t.peek 0x01FD#16 == some 0xF9#8 && t.peek 0x01FC#16 == some 0xFD#8 && t.ps.toWord == 0xFDE9#16 &&
        t.pc == 0xB000#16) = true := by decide

/-- Vector I3: a level that is not below IL is not accepted; the instruction at PC runs. -/
theorem test_masked_I3 :
    ends (step (setUp 0x8123#16 [0x00#8] [] (fun s =>
        { s with sp := 0x0200#16, ps := Status.ofWord 0x0050#16, inputs := [.request 2 1#2] })))
      (fun t => t.pc == 0x8124#16 && t.ps.toWord == 0x0050#16 && t.inputs == []) = true := by decide

/-- R264 with `irq_mask_latency` 1: the boundary after SETI still sees I = 0, the one after the next instruction sees 1. -/
theorem test_mask_latency :
    ends (step (setUp 0x8000#16 [0x90#8] [] (fun s => { s with device := { s.device with irqMaskDelay := true } })))
      (fun t => t.ps.i && !t.accepts 0#2 && t.leaveBoundary.accepts 0#2) = true := by decide

/-- Vector X1: reset. -/
theorem test_reset_X1 :
    ends (step (setUp 0x1234#16 [] [(0x0300, 0x5A#8), (0xFFFD, 0x00#8), (0xFFFE, 0x80#8), (0xFFFF, 0x00#8)] (fun s =>
        { s with a := 0xFFFF#16, t := 0xFFFF#16, ix := 0xFFFF#16, ep := 0xFFFF#16, sp := 0xFFFF#16,
                 ps := Status.ofWord 0xFFCF#16, inputs := [.reset] })))
      (fun t => t == { setUp 0x8000#16 [] [(0x0300, 0x5A#8), (0xFFFD, 0x00#8), (0xFFFE, 0x80#8), (0xFFFF, 0x00#8)] id with
        ps := Status.ofWord 0x0030#16 }) = true := by decide

/-- A step that is refused for this reason. -/
def refusedBy (r : Res State) (why : Refusal) : Bool :=
  match r with
  | .refused x => x == why
  | _ => false

/-- F1: the reserved op code. -/
theorem test_refused_F1 : refusedBy (step (setUp 0x8000#16 [0x44#8] [] id)) .unassignedOpcode44 = true := by decide

/-- F5: a direct word at 7F with DP not 0. -/
theorem test_refused_F5 :
    refusedBy (step (setUp 0x8000#16 [0xC5#8, 0x7F#8] [] (fun s => { s with ps := { s.ps with dp := 1#3 } })))
      .dirWordCrossesBank = true := by decide

/-- F9: a store to the second byte after the instruction. -/
theorem test_refused_F9 :
    refusedBy (step (setUp 0x0200#16 [0x61#8, 0x02#8, 0x04#8] [] id)) .prefetchHazard = true := by decide

/-- F10: a store to the third byte after it goes through. -/
theorem test_step_F10 :
    ends (step (setUp 0x0200#16 [0x61#8, 0x02#8, 0x05#8] [] id))
      (fun t => t.peek 0x0205#16 == some 0x00#8 && t.pc == 0x0203#16) = true := by decide

/-- F13: CALL may push over its own target. -/
theorem test_step_F13 :
    ends (step (setUp 0x0200#16 [0x31#8, 0x02#8, 0x10#8] [] (fun s => { s with sp := 0x0212#16 })))
      (fun t => t.peek 0x0211#16 == some 0x03#8 && t.peek 0x0210#16 == some 0x02#8 && t.pc == 0x0210#16) = true := by
  decide

/-- F18: a byte nothing has written. -/
theorem test_fault_F18 :
    step (setUp 0x8000#16 [0x05#8, 0x20#8] [] id) = .fault (.unwrittenRead 0x0020#16) := by rfl

/-- A store to the mirror banks the next direct access (R21): MOV 78H,#0AH then DP is 2. -/
theorem test_mirror_write :
    ends (step (setUp 0x8000#16 [0x85#8, 0x78#8, 0x0A#8] [] id))
      (fun t => t.ps.rp == 1#5 && t.ps.dp == 2#3 && t.mem.read 0x78 == none && t.addrOf (.dir 0x80#8) == 0x0180#16) = true := by
  decide

/-- R273: a request that was presented may not vanish while nothing wrote an I/O register; it may once something did. -/
theorem test_request_stays_pending :
    (let s := setUp 0x8123#16 [0x00#8, 0x45#8, 0x10#8] [] (fun s =>
        { s with device := { s.device with memMap := ⟨0x10, 0x1F, .io⟩ :: s.device.memMap }, inputs := [.request 2 1#2, .quiet] })
     (ends (step s) (fun t => t.pending == [⟨2, 1#2⟩] && refusedBy (step t) .requestWithdrawn)) &&
       (ends (step { s with pc := 0x8124#16 }) (fun t => t.pending == [] && !refusedBy (step t) .requestWithdrawn))) = true := by
  decide

/-- R273: a handler that returns without clearing its source is entered again at once. -/
theorem test_request_entered_again :
    ends (step (setUp 0x9000#16 [0x30#8] [(0x01FC, 0x08#8), (0x01FD, 0x74#8), (0x01FE, 0x81#8), (0x01FF, 0x23#8),
        (0xFFF6, 0x90#8), (0xFFF7, 0x00#8)] (fun s =>
        { s with sp := 0x01FC#16, ps := Status.ofWord 0x0854#16, pending := [⟨2, 1#2⟩] })))
      (fun t => t.pc == 0x8123#16 && ends (step t) (fun u => u.pc == 0x9000#16 && u.sp == 0x01FC#16)) = true := by decide

/-- `withFetchWord` puts the instruction where the next step fetches it. -/
theorem test_with_fetch_word :
    ends (step (State.reset.withFetchWord 24 0x5AE0E4)) (fun t => t.a == 0xE05A#16 && t.pc == 0x8003#16) = true := by
  decide

/-! ## Witnesses: the hypotheses of every obligation that has any can be met, at the ends of their ranges -/

/-- A device with an I/O area at 0010 to 001F, RAM up to 7FFF, ROM from E000. -/
def board : Device := { memMap := [⟨0x10, 0x1F, .io⟩, ⟨0, 0x7FFF, .ram⟩, ⟨0xE000, 0xFFFF, .rom⟩], nIrq := 24, irqMaskDelay := true }

/-- A state on that board with every byte the witnesses read. -/
def wit : State :=
  { pc := 0x0600#16, a := 0x0210#16, t := 0x1299#16, ix := 0x0220#16, ep := 0x0230#16, sp := 0x0300#16,
    ps := { rp := 0#5, dp := 0#3, h := false, i := true, il := 3#2, n := false, z := false, v := false, c := true },
    mem := [(0x0000, 1), (0x007F, 2), (0x0080, 3), (0x00FE, 3), (0x00FF, 4), (0x0100, 5), (0x0107, 6), (0x01A0, 7), (0x01A1, 7),
            (0x0210, 8), (0x0211, 8), (0x0230, 9), (0x0231, 9), (0x029F, 7), (0x02A0, 7), (0x0300, 0), (0x0301, 0),
            (0x0302, 6), (0x0303, 0), (0x0600, 0), (0xFFC0, 6), (0xFFC1, 0), (0xFFCC, 6), (0xFFCD, 0), (0xFFCE, 6), (0xFFCF, 0),
            (0xFFFA, 6), (0xFFFB, 0), (0xFFFD, 0), (0xFFFE, 6), (0xFFFF, 0)],
    device := board, inputs := [], pending := [], maskBefore := none, ioLog := [], draws := 0 }

/-- The operation answers a next state. -/
def goesOn {α : Type} (r : Res α) : Bool :=
  match r with
  | .next _ => true
  | _ => false

theorem test_witness_decode_encode :
    ([.movDirA 0xFF#8, .movwSpImm 0xFFFF#16, .callv 7#3, .seti].all fun i => Instr.wellFormed i) = true := by decide

theorem test_witness_decoded_bytes :
    decode [0xE8#8, 0x01#8] = .ok (.callv 0#3, [0x01#8]) ∧
    (decode [0x44#8] = .ok (.unassigned, []) ∧ Instr.unassigned.wellFormed = false) := ⟨rfl, rfl, rfl⟩

theorem test_witness_direct_map :
    (wit.addrOf (.dir 0x7F#8) = 0x007F#16 ∧ (0x7F#8).toNat < 0x80) ∧
    ({ wit with ps := { wit.ps with dp := 7#3 } }.addrOf (.dir 0xFF#8) = 0x047F#16 ∧ 0x80 ≤ (0xFF#8).toNat) ∧
    wit.addrOf (.dir 0x80#8) = 0x0080#16 := by decide

theorem test_witness_callv_vectors :
    goesOn (exec (.callv 0#3) wit) = true ∧ goesOn (exec (.callv 7#3) wit) = true := by decide

theorem test_witness_interrupt_vectors :
    (23 < 24 ∧ goesOn (interruptEntry 23 2#2 wit) = true) ∧ goesOn (interruptEntry 0 0#2 wit) = true ∧
    goesOn (resetStep wit) = true := by decide

theorem test_witness_byte_accesses :
    wit.siteOf 0x0078#16 = .mirror ∧ wit.siteOf 0x0000#16 = .mapped .ram ∧ wit.siteOf 0x7FFF#16 = .mapped .ram ∧
    wit.siteOf 0x0010#16 = .mapped .io ∧ wit.siteOf 0x001F#16 = .mapped .io ∧ wit.siteOf 0x8000#16 = .mapped .unimplemented ∧
    wit.siteOf 0xDFFF#16 = .mapped .unimplemented ∧ wit.siteOf 0xE000#16 = .mapped .rom ∧
    wit.siteOf 0xFFFF#16 = .mapped .rom := by decide

theorem test_witness_stored_word :
    (State.reset.isRam 0xFFFF#16 && State.reset.isRam (0xFFFF#16 + 1#16) && wit.isRam 0x0210#16 && wit.isRam 0x0211#16) = true := by
  decide

theorem test_witness_push_then_pop :
    (wit.isRam (wit.sp - 1#16) && wit.isRam (wit.sp - 2#16) && State.reset.isRam (State.reset.sp - 1#16) &&
      State.reset.isRam (State.reset.sp - 2#16)) = true := by decide

theorem test_witness_memory_frame :
    goesOn (exec (.movwExtA 0x0210#16) wit) = true ∧ 0x0212#16 ∉ (Instr.movwExtA 0x0210#16).storedBytes wit ∧
    (goesOn (exec .nop wit) = true ∧ mirrorAddr ∉ Instr.nop.storedBytes wit ∧ Instr.nop.loadsPs = false) := by decide

theorem test_witness_prefetch_window :
    (goesOn (exec (.movExtA 0x0605#16) wit) = true ∧ (Instr.movExtA 0x0605#16).isCall = false ∧
      0x0605#16 ∈ (Instr.movExtA 0x0605#16).storedBytes wit) ∧
    inPrefetchWindow 0xFFFF#16 0xFFFF#16 = true ∧ inPrefetchWindow 0xFFFF#16 0x0000#16 = true := by decide

theorem test_witness_rom :
    goesOn (step wit) = true ∧ wit.siteOf 0xE000#16 = .mapped .rom ∧ wit.siteOf 0xFFFF#16 = .mapped .rom := by decide

/-- On the reset device every address but the mirror is RAM. -/
theorem allRam_site (s : State) (h : s.device = Device.allRam) (addr : Word) (hm : addr ≠ mirrorAddr) :
    s.siteOf addr = .mapped .ram := by
  have := addr.isLt
  simp only [State.siteOf, if_neg hm, h, Device.allRam, memKindOf]
  rw [if_pos ⟨Nat.zero_le _, by omega⟩]

/-- A state that meets the invariant, holds a byte, and steps. -/
theorem test_witness_invariant :
    (setUp 0x8000#16 [0x00#8] [] id).Inv ∧ goesOn (step (setUp 0x8000#16 [0x00#8] [] id)) = true := by
  refine ⟨⟨by decide, fun addr h => .inl (allRam_site _ rfl addr fun e => h ?_)⟩, by decide⟩
  rw [e]
  decide

/-- A step with a request pending, one with a request presented, and a reset step. -/
theorem test_witness_step_next :
    (let one := { wit with pending := [⟨23, 3#2⟩] }
     goesOn (step one) && one.presented != .reset) = true ∧
    goesOn (step { wit with inputs := [.request 0 3#2] }) = true ∧
    goesOn (step { wit with inputs := [.reset], pending := [⟨0, 0#2⟩] }) = true := by decide

theorem test_witness_accumulator_writers :
    (goesOn (exec (.movAImm 0#8) wit) = true ∧ (Instr.movAImm 0#8).writesAllOfA = false) ∧
    (goesOn (exec .nop wit) = true ∧ Instr.nop.writesAllOfA = false ∧ Instr.nop.writesAlOnly = false) := by decide

theorem test_witness_t_writers :
    (goesOn (exec .popwA wit) = true ∧ Instr.popwA.writesT = false) ∧
    (goesOn (exec (.movARi 7#3) wit) = true ∧ (Instr.movARi 7#3).isByteLoad = true) ∧
    (goesOn (exec .movwAAtEp wit) = true ∧ Instr.movwAAtEp.isWordLoad = true) := by decide

theorem test_witness_pointer_writers :
    goesOn (exec .movwAAtEp wit) = true ∧ Instr.movwAAtEp.writesIx = false ∧ Instr.movwAAtEp.writesEp = false ∧
    Instr.movwAAtEp.writesSp = false := by decide

theorem test_witness_mask_writers :
    (goesOn (exec .nop wit) = true ∧ Instr.nop.writesMask = false ∧ Instr.nop.loadsPs = false) ∧
    (goesOn (exec .seti wit) = true ∧ Instr.seti.writesMask = true ∧ Instr.seti.loadsPs = false) ∧
    (goesOn (exec .reti wit) = true ∧ Instr.reti.writesMask = true) := by decide

theorem test_witness_bank_writers :
    goesOn (exec (.movDirA 0x77#8) wit) = true ∧ (Instr.movDirA 0x77#8).loadsPs = false ∧
    0x0078#16 ∉ (Instr.movDirA 0x77#8).storedBytes wit := by decide

theorem test_witness_h_writers : goesOn (exec .daa wit) = true ∧ Instr.daa.writesH = false := by decide

theorem test_witness_flag_writers :
    (goesOn (exec (.bbc 0xFF#8 7#3 0#8) wit) = true ∧ (Instr.bbc 0xFF#8 7#3 0#8).writesN = false) ∧
    (goesOn (exec .mulu wit) = true ∧ Instr.mulu.writesZ = false) ∧
    (goesOn (exec .rorc wit) = true ∧ Instr.rorc.writesV = false) ∧
    (goesOn (exec .das wit) = true ∧ Instr.das.writesC = false) := by decide

theorem test_witness_decimal : isBcd 0x99#8 = true ∧ isBcd 0x00#8 = true ∧ isBcd (loByte wit.t) = true := by decide

theorem test_witness_byte_stores :
    ([0x00#8, 0x7F#8, 0x78#8, 0x80#8, 0xFF#8].all fun d =>
      wit.storable (wit.nextPc 2) (wit.addrOf (.dir d)) && wit.storable (wit.nextPc 3) (wit.addrOf (.dir d))) = true ∧
    ([0x7F#8, 0x80#8].all fun o =>
      wit.storable (wit.nextPc 2) (wit.addrOf (.ix o)) && wit.storable (wit.nextPc 3) (wit.addrOf (.ix o))) = true ∧
    ([0x0000#16, 0x0602#16, 0x0605#16, 0x7FFF#16].all fun e => wit.storable (wit.nextPc 3) (wit.addrOf (.ext e))) = true ∧
    (wit.storable (wit.nextPc 1) (wit.addrOf .ep) && wit.storable (wit.nextPc 2) (wit.addrOf .ep) &&
      wit.storable (wit.nextPc 1) (wit.addrOf .atA)) = true ∧
    ([0#3, 7#3].all fun r =>
      wit.storable (wit.nextPc 1) (wit.addrOf (.reg r)) && wit.storable (wit.nextPc 2) (wit.addrOf (.reg r))) = true := by
  decide

/-- The read conditions of byte loads, byte arithmetic, logic, compares and bit branches. -/
theorem test_witness_byte_reads :
    ([0x00#8, 0x7F#8, 0x78#8, 0x10#8, 0x80#8, 0xFF#8].all fun d => wit.readable (wit.addrOf (.dir d))) = true ∧
    ([0x7F#8, 0x80#8].all fun o => wit.readable (wit.addrOf (.ix o))) = true ∧
    ([0x0000#16, 0xFFFF#16].all fun e => wit.readable (wit.addrOf (.ext e))) = true ∧
    (wit.readable (wit.addrOf .ep) && wit.readable (wit.addrOf .atA)) = true ∧
    ([0#3, 7#3].all fun r => wit.readable (wit.addrOf (.reg r))) = true := by decide

theorem test_witness_word_stores :
    ([0x00#8, 0x77#8, 0x78#8, 0x7F#8, 0x80#8, 0xFE#8].all fun d =>
      wit.storable (wit.nextPc 2) (wit.addrOf (.dir d)) && wit.storable (wit.nextPc 2) (wit.addrOf (.dir d) + 1#16)) = true ∧
    ([0x7F#8, 0x80#8].all fun o =>
      wit.storable (wit.nextPc 2) (wit.addrOf (.ix o)) && wit.storable (wit.nextPc 2) (wit.addrOf (.ix o) + 1#16)) = true ∧
    ([0x0000#16, 0x7FFE#16].all fun e =>
      wit.storable (wit.nextPc 3) (wit.addrOf (.ext e)) && wit.storable (wit.nextPc 3) (wit.addrOf (.ext e) + 1#16)) = true ∧
    (wit.storable (wit.nextPc 1) (wit.addrOf .ep) && wit.storable (wit.nextPc 1) (wit.addrOf .ep + 1#16) &&
      wit.storable (wit.nextPc 1) (wit.addrOf .atA) && wit.storable (wit.nextPc 1) (wit.addrOf .atA + 1#16)) = true := by
  decide

theorem test_witness_bank_edge :
    refusedBy (exec (.movwDirA 0xFF#8) wit) .dirWordCrossesBank = true ∧
    refusedBy (exec (.movwADir 0x7F#8) { wit with ps := { wit.ps with dp := 7#3 } }) .dirWordCrossesBank = true ∧
    goesOn (exec (.movwADir 0x7F#8) wit) = true ∧ goesOn (exec (.movwADir 0xFE#8) wit) = true := by decide

theorem test_witness_word_reads :
    ([0x7F#8, 0xFE#8].all fun d => wit.readable16 (wit.addrOf (.dir d))) = true ∧
    ([0x7F#8, 0x80#8].all fun o => wit.readable16 (wit.addrOf (.ix o))) = true ∧
    ([0xFFFE#16, 0xFFFF#16].all fun e => wit.readable16 (wit.addrOf (.ext e))) = true ∧
    (wit.readable16 (wit.addrOf .ep) && wit.readable16 (wit.addrOf .atA)) = true := by decide

theorem test_witness_status_moves : goesOn (exec .movwAPs wit) = true := by decide

theorem test_witness_bit_set_clear :
    ([0x7F#8, 0x80#8, 0x78#8, 0xFF#8].all fun d =>
      wit.readable (wit.addrOf (.dir d)) && wit.storable (wit.nextPc 2) (wit.addrOf (.dir d))) = true := by decide

theorem test_witness_count_register :
    ([0#3, 7#3].all fun r =>
      wit.readable (wit.addrOf (.reg r)) && wit.storable (wit.nextPc 1) (wit.addrOf (.reg r))) = true := by decide

theorem test_witness_divide : wit.a ≠ 0#16 ∧ State.reset.a = 0#16 := by decide

theorem test_witness_decimal_adjust :
    ([(false, false, 0x99#8), (false, false, 0x8A#8), (false, true, 0x93#8), (false, false, 0xA9#8), (false, false, 0x9A#8),
      (false, true, 0xA3#8), (true, false, 0x29#8), (true, false, 0x2A#8), (true, true, 0x33#8)].all fun q =>
        (daaRow? q.1 q.2.1 q.2.2).isSome) = true ∧
    ([(false, true, 0x04#8), (true, false, 0x30#8), (true, true, 0x40#8)].all fun q =>
        (daaRow? q.1 q.2.1 q.2.2).isNone) = true := by decide

theorem test_witness_calls :
    (wit.writable (wit.sp - 1#16) && wit.writable (wit.sp - 2#16) && wit.readable16 (callvVectorAddr 0#3) &&
      wit.readable16 (callvVectorAddr 7#3)) = true := by decide

theorem test_witness_returns : (wit.readable16 wit.sp && wit.readable16 (wit.sp + 2#16)) = true := by decide

theorem test_witness_pushes_and_pops :
    (wit.storable (wit.nextPc 1) (wit.sp - 1#16) && wit.storable (wit.nextPc 1) (wit.sp - 2#16) &&
      wit.readable16 wit.sp) = true := by decide

/-- Nothing presented, and a request that is turned away; the bytes of a NOP at PC, and of a three-byte instruction. -/
theorem test_witness_step_runs :
    wit.runsInstruction ∧ { wit with inputs := [.request 23 3#2] }.runsInstruction ∧ wit.holdsAtPc .nop ∧
    (setUp 0xFFFE#16 [0x31#8, 0x90#8, 0x00#8] [] id).holdsAtPc (.call 0x9000#16) := by
  refine ⟨⟨rfl, .inl rfl⟩, ⟨by decide, .inr ⟨23, 3#2, rfl, by decide, by decide⟩⟩, ?_, ?_⟩
  · unfold State.holdsAtPc
    decide
  · unfold State.holdsAtPc
    decide

theorem test_witness_acceptance :
    ({ wit with ps := { wit.ps with il := 0#2 } }.acceptMask.il = 0#2) ∧
    ({ wit with ps := { wit.ps with i := false } }.acceptMask.i = false) ∧
    (wit.acceptMask.i = true ∧ (2#2).toNat < wit.acceptMask.il.toNat) ∧
    State.reset.device.irqMaskDelay = false ∧ wit.maskBefore = none ∧
    (wit.device.irqMaskDelay = true ∧ { wit with maskBefore := some ⟨false, 0#2⟩ }.maskBefore = some ⟨false, 0#2⟩) ∧
    goesOn (interruptEntry 0 2#2 wit) = true ∧
    ({ wit with inputs := [.request 24 0#2] }.presented = .request 24 0#2 ∧ wit.device.nIrq ≤ 24) ∧
    ({ wit with ps := { wit.ps with il := 2#2 } }.acceptMask.il.toNat ≤ (2#2).toNat) := by decide

/-- A pending request, and each way of withdrawing it; and no input left. -/
theorem test_witness_withdrawal :
    (let held := { wit with pending := [⟨2, 1#2⟩] }
     ([BoundaryInput.quiet, .request 5 2#2, .request 2 0#2].all fun x =>
        let s := { held with inputs := [x] }
        s.presented == x && BoundaryInput.wellFormed s.device x && refusedBy (step s) .requestWithdrawn) &&
       held.presented == .request 2 1#2) = true := by decide

/-- The highest and the lowest request number, at the lowest level that is accepted and at the highest. -/
theorem test_witness_accepted_request :
    ([(0, 2#2), (23, 0#2)].all fun q =>
      let s := { wit with inputs := [.request q.1 q.2] }
      BoundaryInput.wellFormed s.device s.presented && !s.withdraws && s.accepts q.2 && s.readable16 (irqVectorAddr q.1) &&
        s.writable (s.sp - 1#16) && s.writable (s.sp - 2#16) && s.writable (s.sp - 3#16) && s.writable (s.sp - 4#16)) = true := by
  decide

theorem test_witness_reti_undoes_entry :
    (wit.isRam (wit.sp - 1#16) && wit.isRam (wit.sp - 2#16) && wit.isRam (wit.sp - 3#16) && wit.isRam (wit.sp - 4#16) &&
      goesOn (interruptEntry 23 2#2 wit)) = true ∧
    (let s := setUp 0x8000#16 [] [(0xFFFA, 6#8), (0xFFFB, 0#8)] id
     (s.isRam (s.sp - 1#16) && s.isRam (s.sp - 2#16) && s.isRam (s.sp - 3#16) && s.isRam (s.sp - 4#16) &&
      goesOn (interruptEntry 0 0#2 s) && !s.device.irqMaskDelay) = true) := by decide

theorem test_witness_call_then_return : (wit.isRam (wit.sp - 1#16) && wit.isRam (wit.sp - 2#16)) = true := by decide

theorem test_witness_reset_step :
    { wit with inputs := [.reset] }.presented = .reset ∧ wit.readable 0xFFFD#16 = true ∧
    wit.readable16 0xFFFE#16 = true := by decide

end Sys2Proof.Tests
end

