-- ==== Sys2Proof/Proofs/DecodeEncode.lean ====
section
/-! The decoder reads back what the encoder writes: one lemma per instruction length, then one case per constructor (R70 to R74). -/

namespace Sys2Proof

/-! ## One decoding rule per layout -/

theorem decode_one {op : Byte} {i : Instr} (h : layoutOf op = .one i) (rest : List Byte) :
    decode ([op] ++ rest) = .ok (i, rest) := by
  simp [decode, h]

theorem decode_two {op : Byte} {k : Byte → Instr} (h : layoutOf op = .two k) (b : Byte) (rest : List Byte) :
    decode ([op, b] ++ rest) = .ok (k b, rest) := by
  simp [decode, h]

theorem decode_three {op : Byte} {k : Byte → Byte → Instr} (h : layoutOf op = .three k) (b c : Byte) (rest : List Byte) :
    decode ([op, b, c] ++ rest) = .ok (k b c, rest) := by
  simp [decode, h]

/-- A word operand stands upper byte first (R74). -/
theorem decode_word {op : Byte} {k : Word → Instr} (h : layoutOf op = .three fun hi lo => k (hi ++ lo)) (w : Word)
    (rest : List Byte) : decode ([op, hiByte w, loByte w] ++ rest) = .ok (k w, rest) := by
  rw [decode_three h, hiByte_append_loByte]

/-! ## Every constructor -/

/-- The reserved constructor reads back too: its byte 44 has no row and selects it (R90, log 10). -/
theorem decode_encode_append (i : Instr) (rest : List Byte) : decode (encode i ++ rest) = .ok (i, rest) := by
  cases i with
  -- one op code, no operand byte
  | movAtEpA | movAAtA | movAAtEp | movwAtEpA | movwEpA | movwAAtA | movwAAtEp | movwAEp | movwIxA | movwAIx | movwSpA
  | movwASp | movAtAT | movwAtAT | movwAPs | movwPsA | swap | xchAT | xchwAT | xchwAEp | xchwAIx | xchwASp | movwAPc
  | addcAAtEp | addcwA | addcA | subcAAtEp | subcwA | subcA | incwEp | incwIx | incwA | decwEp | decwIx | decwA | mulu | divu
  | andwA | orwA | xorwA | cmpA | cmpwA | rorc | rolc | cmpAAtEp | daa | das | xorA | xorAAtEp | andA | andAAtEp | orA
  | orAAtEp | incwSp | decwSp | jmpAtA | xchwAPc | ret | reti | pushwA | popwA | pushwIx | popwIx | nop | clrc | setc | clri
  | seti | unassigned => exact decode_one rfl rest
  -- one op code, a byte operand
  | movDirA x | movAtIxA x | movAImm x | movADir x | movAAtIx x | movAtEpImm x | movwDirA x | movwAtIxA x | movwADir x
  | movwAAtIx x | addcAImm x | addcADir x | addcAAtIx x | subcAImm x | subcADir x | subcAAtIx x | cmpAImm x | cmpADir x
  | cmpAAtIx x | xorAImm x | xorADir x | xorAAtIx x | andAImm x | andADir x | andAAtIx x | orAImm x | orADir x | orAAtIx x
  | cmpAtEpImm x | bz x | bnz x | bc x | bnc x | bn x | bp x | blt x | bge x => exact decode_two rfl x rest
  -- one op code, two byte operands
  | movDirImm x y | movAtIxImm x y | cmpDirImm x y | cmpAtIxImm x y => exact decode_three rfl x y rest
  -- one op code, a word operand
  | movExtA w | movAExt w | movwExtA w | movwAImm w | movwAExt w | movwEpImm w | movwIxImm w | movwSpImm w | jmpExt w
  | call w => exact decode_word rfl w rest
  -- eight op codes, the number in the low three bits (R71)
  | movRiA r | movARi r | addcARi r | subcARi r | incRi r | decRi r | cmpARi r | xorARi r | andARi r | orARi r | callv r =>
    exact decode_one (by match r with | 0 | 1 | 2 | 3 | 4 | 5 | 6 | 7 => rfl) rest
  | movRiImm r x | cmpRiImm r x => exact decode_two (by match r with | 0 | 1 | 2 | 3 | 4 | 5 | 6 | 7 => rfl) x rest
  | setb x r => exact decode_two (k := (.setb · r)) (by match r with | 0 | 1 | 2 | 3 | 4 | 5 | 6 | 7 => rfl) x rest
  | clrb x r => exact decode_two (k := (.clrb · r)) (by match r with | 0 | 1 | 2 | 3 | 4 | 5 | 6 | 7 => rfl) x rest
  | bbc x r y =>
    exact decode_three (k := (.bbc · r ·)) (by match r with | 0 | 1 | 2 | 3 | 4 | 5 | 6 | 7 => rfl) x y rest
  | bbs x r y =>
    exact decode_three (k := (.bbs · r ·)) (by match r with | 0 | 1 | 2 | 3 | 4 | 5 | 6 | 7 => rfl) x y rest

end Sys2Proof
end

