-- ==== Sys2Proof/Proofs/InstructionStep.lean ====
section
/-! Fetch answers what the decoder makes of the bytes at PC, and an instruction boundary runs it (R12, R70). -/

namespace Sys2Proof.Machine

/-- What a list of bytes decodes to, whole, is fetched where PC points at these bytes, and the fetch changes nothing. -/
theorem State.fetch_of_decode {s : State} {bytes : List Byte} {i : Instr} (hd : decode bytes = .ok (i, []))
    (hb : ∀ k, k < bytes.length → s.peek (s.pc + BitVec.ofNat 16 k) = bytes[k]?) : s.fetch = .next (i, s) := by
  have read (k : Nat) (v : Byte) (hk : bytes[k]? = some v) : s.read8 (s.pc + BitVec.ofNat 16 k) = .next (v, s) :=
    State.readAs_of_peek ((hb k (List.getElem?_eq_some_iff.1 hk).1).trans hk)
  unfold decode at hd
  split at hd
  · cases hd
  · next op operands =>
    have h0 : s.read8 s.pc = .next (op, s) := by simpa using read 0 op rfl
    rw [State.fetch, h0, Res.andThen_next]
    dsimp only
    split at hd
    · next j hl =>
      cases hd
      rw [hl]
    · next k b rest hl =>
      cases hd
      rw [hl]
      simp [read 1 b rfl]
    · next k b c rest hl =>
      cases hd
      rw [hl]
      simp [read 1 b rfl, read 2 c rfl]
    · cases hd

/-- The instruction whose bytes stand at PC is fetched, whatever it is. -/
theorem State.fetch_of_holdsAtPc {s : State} {i : Instr} (h : s.holdsAtPc i) : s.fetch = .next (i, s) :=
  State.fetch_of_decode (by simpa using decode_encode_append i []) h

theorem State.holdsAtPc_leaveBoundary {s : State} {i : Instr} (h : s.holdsAtPc i) : s.leaveBoundary.holdsAtPc i := by
  intro k hk
  rw [State.leaveBoundary_pc, State.leaveBoundary_peek]
  exact h k hk

theorem step_of_runsInstruction {s : State} (h : s.runsInstruction) : step s = instructionStep s.leaveBoundary := by
  obtain ⟨hw, hq | ⟨n, level, hp, hf, ha⟩⟩ := h
  · simp [step, boundaryStep, hq, hw]
  · simp [step, boundaryStep, hp, hf, hw, ha]

theorem instructionStep_of_holdsAtPc {s : State} {i : Instr} (h : s.holdsAtPc i) : instructionStep s = exec i s := by
  rw [instructionStep, State.fetch_of_holdsAtPc h, Res.andThen_next]

/-- Settles O55: an instruction boundary leads to fetch and `exec`, and the fetch of an instruction's own bytes answers that
instruction. -/
theorem stepRunsDecodedInstruction : Obligations.StepRunsDecodedInstruction := by
  intro s hs
  rw [step_of_runsInstruction hs]
  refine ⟨fun i hi => ?_, ?_⟩
  · exact instructionStep_of_holdsAtPc (State.holdsAtPc_leaveBoundary hi)
  · rw [instructionStep]

end Sys2Proof.Machine
end

