-- ==== Sys2Proof/Proofs/Footprint.lean ====
section
/-! What an instruction can change besides PC: first reads and stores (`State.StoresOnly`), then register fields from a list. One lemma per
shape the instruction families share, one case per constructor, and every "who writes what" statement follows (R13 to R29). -/

namespace Sys2Proof.Machine

/-! ## Register fields and what leaves them alone -/

/-- The registers other than PC, split where the rules speak of the parts separately: AH and AL (R14), PS by its flags (R20). RP and DP
are one field, because only the whole of PS or a store to the mirror writes them. -/
inductive RegField where
  | ah | al | t | ix | ep | sp | bank | h | i | il | n | z | v | c | maskBefore

/-- `t` has in this field what `s` has. -/
def RegField.Kept (s t : State) : RegField → Prop
  | .ah => hiByte t.a = hiByte s.a
  | .al => loByte t.a = loByte s.a
  | .t => t.t = s.t
  | .ix => t.ix = s.ix
  | .ep => t.ep = s.ep
  | .sp => t.sp = s.sp
  | .bank => t.ps.rp = s.ps.rp ∧ t.ps.dp = s.ps.dp
  | .h => t.ps.h = s.ps.h
  | .i => t.ps.i = s.ps.i
  | .il => t.ps.il = s.ps.il
  | .n => t.ps.n = s.ps.n
  | .z => t.ps.z = s.ps.z
  | .v => t.ps.v = s.ps.v
  | .c => t.ps.c = s.ps.c
  | .maskBefore => t.maskBefore = s.maskBefore

theorem RegField.Kept.trans {s t u : State} {f : RegField} (h1 : f.Kept s t) (h2 : f.Kept t u) : f.Kept s u := by
  cases f with
  | bank => exact ⟨Eq.trans h2.1 h1.1, Eq.trans h2.2 h1.2⟩
  | _ => exact Eq.trans h2 h1

/-- Stores leave every register field, but for RP and DP when the mirror is stored to (R21). -/
theorem State.StoresOnly.kept {s t : State} {addrs : List Word} (hst : s.StoresOnly t addrs) {f : RegField}
    (hf : f = .bank → mirrorAddr ∉ addrs) : f.Kept s t := by
  by_cases hb : f = .bank
  · subst hb
    exact ⟨by rw [hst.banks (hf rfl)], by rw [hst.banks (hf rfl)]⟩
  · obtain ⟨_, _, _, _, _, _, rfl⟩ := hst.same
    cases f with
    | bank => exact absurd rfl hb
    | _ => rfl

/-- `t` is `s` with PC, the listed fields and the count of draws written, and nothing else. Where `t` is a record update of `s` the parts
are closed here, once: `kept` by a case per field, which is in the list or is the same projection. -/
structure State.WritesOnly (s t : State) (fs : List RegField) : Prop where
  mem : t.mem = s.mem := by rfl
  device : t.device = s.device := by rfl
  inputs : t.inputs = s.inputs := by rfl
  pending : t.pending = s.pending := by rfl
  ioLog : t.ioLog = s.ioLog := by rfl
  draws : s.draws ≤ t.draws := by exact Nat.le_refl _
  kept : ∀ f, f ∉ fs → f.Kept s t := by
    intro f hf
    cases f <;> simp_all [RegField.Kept]

/-- From `s` to `t` by reads and stores to `addrs`, and then by writes of PC and the fields `fs`. -/
def State.Effect (s t : State) (addrs : List Word) (fs : List RegField) : Prop :=
  ∃ u, s.StoresOnly u addrs ∧ u.WritesOnly t fs

theorem State.Effect.of_next {s t u : State} {fs : List RegField} (h : (.next u : Res State) = .next t) (hw : s.WritesOnly u fs) :
    s.Effect t [] fs := by
  cases h
  exact ⟨s, State.StoresOnly.refl s, hw⟩

/-! ## Writes of registers -/

theorem State.setPc_writes (s : State) (pc : Word) : s.WritesOnly { s with pc := pc } [] := {}

theorem State.setIx_writes (s : State) (w pc : Word) : s.WritesOnly { s with ix := w, pc := pc } [.ix] := {}

theorem State.setEp_writes (s : State) (w pc : Word) : s.WritesOnly { s with ep := w, pc := pc } [.ep] := {}

theorem State.setSp_writes (s : State) (w pc : Word) : s.WritesOnly { s with sp := w, pc := pc } [.sp] := {}

theorem State.setA_writes (s : State) (w pc : Word) : s.WritesOnly { s with a := w, pc := pc } [.ah, .al] := {}

theorem State.setC_writes (s : State) (c : Bool) (pc : Word) :
    s.WritesOnly { s with ps := { s.ps with c := c }, pc := pc } [.c] := {}

theorem State.setI_writes (s : State) (i : Bool) (m : Option IrqMask) (pc : Word) :
    s.WritesOnly { s with maskBefore := m, ps := { s.ps with i := i }, pc := pc } [.i, .maskBefore] := {}

theorem compareBytes_writes (x y : Byte) (len : Nat) (s : State) :
    s.WritesOnly (compareBytes x y len s) [.h, .n, .z, .v, .c] where
  draws := Nat.le_succ _
  kept f hf := by cases f <;> simp_all [RegField.Kept, compareBytes]

/-- A rotate (R189, R190). -/
theorem State.rotated_writes (s : State) (r : Byte) (c : Bool) (pc : Word) :
    s.WritesOnly { s with a := withLo s.a r, ps := { s.ps.nz8 r with c := c }, pc := pc } [.al, .n, .z, .c] := {}

/-- In the table of DAA or outside it (R196). -/
theorem State.decimalAdjustAdd_writes (s : State) : s.WritesOnly (s.decimalAdjustAdd.advance 1) [.al, .n, .z, .v, .c] := by
  unfold State.decimalAdjustAdd
  split
  · exact {}
  · exact { draws := Nat.le_add_right _ 5 }

/-- DAS leaves C (R197). -/
theorem State.decimalAdjustSub_writes (s : State) : s.WritesOnly (s.decimalAdjustSub.advance 1) [.al, .n, .z, .v] where
  kept f hf := by cases f <;> simp_all [RegField.Kept, State.decimalAdjustSub]

/-- A division, by zero or not (R183). -/
theorem State.divide_writes (s : State) : s.WritesOnly (s.divide.freeH.advance 1) [.ah, .al, .t, .h, .z] := by
  unfold State.divide
  split
  · exact { draws := Nat.le_add_right _ 3 }
  · exact { draws := Nat.le_succ _ }

/-! ## The shapes the families share -/

theorem storeByte_effect {e : Ea} {v : Byte} {len : Nat} {s t : State} (h : storeByte e v len s = .next t) :
    s.Effect t [s.addrOf e] [] := by
  obtain ⟨u, hu, rfl⟩ := storeByte_next.1 h
  exact ⟨u, State.store8_storesOnly hu, u.setPc_writes _⟩

theorem storeWord_effect {e : Ea} {v : Word} {len : Nat} {s t : State} (h : storeWord e v len s = .next t) :
    s.Effect t [s.addrOf e, s.addrOf e + 1#16] [] := by
  obtain ⟨-, u, hu, rfl⟩ := storeWord_next.1 h
  exact ⟨u, State.store16_storesOnly hu, u.setPc_writes _⟩

theorem modifyByte_effect {e : Ea} {g : Byte → Byte} {len : Nat} {s t : State} (h : modifyByte e g len s = .next t) :
    s.Effect t [s.addrOf e] [] := by
  obtain ⟨v, s1, hr, u, hu, rfl⟩ := modifyByte_next.1 h
  exact ⟨u, (State.readAs_storesOnly hr).trans (State.store8_storesOnly hu), u.setPc_writes _⟩

theorem countByte_effect {r : BitVec 3} {g : Byte → Alu8} {s t : State} (h : countByte r g s = .next t) :
    s.Effect t [s.addrOf (.reg r)] [.h, .n, .z, .v] := by
  obtain ⟨v, s1, hr, u, hu, rfl⟩ := countByte_next.1 h
  exact ⟨u, (State.readAs_storesOnly hr).trans (State.store8_storesOnly hu), { draws := Nat.le_succ _ }⟩

theorem loadByte_effect {src : ByteSrc} {len : Nat} {s t : State} (h : loadByte src len s = .next t) :
    s.Effect t [] [.al, .t, .n, .z] := by
  obtain ⟨v, u, hr, rfl⟩ := loadByte_next.1 h
  exact ⟨u, State.readByteSrc_storesOnly hr, {}⟩

theorem loadWord_effect {src : WordSrc} {len : Nat} {s t : State} (h : loadWord src len s = .next t) :
    s.Effect t [] [.ah, .al, .t, .n, .z] := by
  obtain ⟨v, u, hr, rfl⟩ := loadWord_next.1 h
  exact ⟨u, State.readWordSrc_storesOnly hr, {}⟩

theorem arithByte_effect {g : Byte → Byte → Bool → Alu8} {src : ByteSrc} {len : Nat} {s t : State}
    (h : arithByte g src len s = .next t) : s.Effect t [] [.al, .h, .n, .z, .v, .c] := by
  obtain ⟨v, u, hr, rfl⟩ := arithByte_next.1 h
  exact ⟨u, State.readByteSrc_storesOnly hr, {}⟩

theorem logicByte_effect {g : Byte → Byte → Byte} {src : ByteSrc} {len : Nat} {s t : State}
    (h : logicByte g src len s = .next t) : s.Effect t [] [.al, .n, .z, .v] := by
  obtain ⟨v, u, hr, rfl⟩ := logicByte_next.1 h
  exact ⟨u, State.readByteSrc_storesOnly hr, {}⟩

theorem compareAL_effect {src : ByteSrc} {len : Nat} {s t : State} (h : compareAL src len s = .next t) :
    s.Effect t [] [.h, .n, .z, .v, .c] := by
  obtain ⟨v, u, hr, rfl⟩ := compareAL_next.1 h
  exact ⟨u, State.readByteSrc_storesOnly hr, compareBytes_writes ..⟩

theorem compareMem_effect {e : Ea} {d8 : Byte} {len : Nat} {s t : State} (h : compareMem e d8 len s = .next t) :
    s.Effect t [] [.h, .n, .z, .v, .c] := by
  obtain ⟨v, u, hr, rfl⟩ := compareMem_next.1 h
  exact ⟨u, State.read8_storesOnly hr, compareBytes_writes ..⟩

theorem branchOnBit_effect {want : Bool} {dir : Byte} {b : BitVec 3} {rel : Byte} {s t : State}
    (h : branchOnBit want dir b rel s = .next t) : s.Effect t [] [.z] := by
  obtain ⟨v, u, hr, rfl⟩ := branchOnBit_next.1 h
  exact ⟨u, State.read8_storesOnly hr, {}⟩

theorem logicWord_effect {g : Word → Word → Word} {s t : State} (h : logicWord g s = .next t) :
    s.Effect t [] [.ah, .al, .n, .z, .v] :=
  .of_next h {}

theorem arithWord_effect {o : Alu16} {s t : State} (h : arithWord o s = .next t) :
    s.Effect t [] [.ah, .al, .h, .n, .z, .v, .c] :=
  .of_next h { draws := Nat.le_succ _ }

theorem countA_effect {r : Word} {s t : State} (h : countA r s = .next t) : s.Effect t [] [.ah, .al, .h, .n, .z] :=
  .of_next h { draws := Nat.le_succ _ }

/-! ## The stack -/

/-- A push by an instruction that then writes PC: PUSHW, CALL and CALLV (R55). -/
theorem State.push16_effect {s t : State} {window : Option Word} {v : Word} (h : s.push16 window v = .next t) (pc : Word) :
    s.Effect { t with pc := pc } [s.sp - 1#16, s.sp - 2#16] [.sp] := by
  obtain ⟨u, hu, rfl⟩ := State.push16_storesOnly h
  exact ⟨u, hu, u.setSp_writes _ pc⟩

/-- A push, and then PC (CALL, PUSHW). -/
theorem pushThenPc_effect {s t : State} {window : Option Word} {v : Word} {pc : State → Word}
    (h : ((s.push16 window v).andThen fun u => .next { u with pc := pc u }) = .next t) :
    s.Effect t [s.sp - 1#16, s.sp - 2#16] [.sp] := by
  obtain ⟨s1, hp, ht⟩ := Res.andThen_eq_next.1 h
  cases ht
  exact State.push16_effect hp _

theorem execCallv_effect {k : BitVec 3} {s t : State} (h : execCallv k s = .next t) :
    s.Effect t [s.sp - 1#16, s.sp - 2#16] [.sp] := by
  obtain ⟨⟨target, s1⟩, hr, h1⟩ := Res.andThen_eq_next.1 h
  obtain ⟨u, hu, hw⟩ := pushThenPc_effect (pc := fun _ => target) h1
  have hsp : s1.sp = s.sp := by
    obtain ⟨_, _, rfl⟩ := State.read16_same hr
    rfl
  exact ⟨u, (State.read16_storesOnly hr).trans (hsp ▸ hu), hw⟩

theorem execPopwA_effect {s t : State} (h : execPopwA s = .next t) : s.Effect t [] [.ah, .al, .sp] := by
  obtain ⟨⟨v, s1⟩, hp, ht⟩ := Res.andThen_eq_next.1 h
  cases ht
  obtain ⟨u, hu, rfl⟩ := State.pop16_storesOnly hp
  exact ⟨u, hu, {}⟩

theorem execPopwIx_effect {s t : State} (h : execPopwIx s = .next t) : s.Effect t [] [.ix, .sp] := by
  obtain ⟨⟨v, s1⟩, hp, ht⟩ := Res.andThen_eq_next.1 h
  cases ht
  obtain ⟨u, hu, rfl⟩ := State.pop16_storesOnly hp
  exact ⟨u, hu, {}⟩

theorem execRet_effect {s t : State} (h : execRet s = .next t) : s.Effect t [] [.sp] := by
  obtain ⟨⟨v, s1⟩, hp, ht⟩ := Res.andThen_eq_next.1 h
  cases ht
  obtain ⟨u, hu, rfl⟩ := State.pop16_storesOnly hp
  exact ⟨u, hu, u.setSp_writes _ _⟩

/-- RETI and what it records of before (R242, R264). -/
theorem execReti_next {s t : State} :
    execReti s = .next t ↔ ∃ s1, returnFromInterrupt s = .next s1 ∧ { s1 with maskBefore := some ⟨s.ps.i, s.ps.il⟩ } = t := by
  simp [execReti, Res.andThen_eq_next]

theorem execReti_effect {s t : State} (h : execReti s = .next t) :
    s.Effect t [] [.sp, .bank, .h, .i, .il, .n, .z, .v, .c, .maskBefore] := by
  obtain ⟨s3, h3, rfl⟩ := execReti_next.1 h
  obtain ⟨w, s1, h1, target, s2, h2, rfl⟩ := returnFromInterrupt_next.1 h3
  exact ⟨s2, (State.read16_storesOnly h1).trans (State.read16_storesOnly h2), {}⟩

/-! ## Every instruction -/

/-- The fields the rules let an instruction write. -/
def mayWrite (i : Instr) : RegField → Bool
  | .ah => i.writesAllOfA
  | .al => i.writesAllOfA || i.writesAlOnly
  | .t => i.writesT
  | .ix => i.writesIx
  | .ep => i.writesEp
  | .sp => i.writesSp
  | .bank => i.loadsPs
  | .h => i.writesH
  | .i => i.writesMask
  | .il => i.loadsPs
  | .n => i.writesN
  | .z => i.writesZ
  | .v => i.writesV
  | .c => i.writesC
  | .maskBefore => i.writesMask

/-- What an instruction does: stores to the addresses `storedBytes` gives, then writes of fields it may write. -/
theorem exec_effect {i : Instr} {s t : State} (h : exec i s = .next t) :
    ∃ fs, s.Effect t (i.storedBytes s) fs ∧ fs.all (mayWrite i) = true := by
  unfold exec at h
  cases i with
  -- stores
  | movDirA | movAtIxA | movExtA | movAtEpA | movRiA | movDirImm | movAtIxImm | movAtEpImm | movRiImm | movAtAT =>
    exact ⟨_, storeByte_effect h, rfl⟩
  | movwDirA | movwAtIxA | movwExtA | movwAtEpA | movwAtAT => exact ⟨_, storeWord_effect h, rfl⟩
  | setb | clrb => exact ⟨_, modifyByte_effect h, rfl⟩
  | incRi | decRi => exact ⟨_, countByte_effect h, rfl⟩
  -- loads
  | movAImm | movADir | movAAtIx | movAExt | movAAtA | movAAtEp | movARi => exact ⟨_, loadByte_effect h, rfl⟩
  | movwAImm | movwADir | movwAAtIx | movwAExt | movwAAtA | movwAAtEp => exact ⟨_, loadWord_effect h, rfl⟩
  -- moves and counts of one register
  | movwEpA | movwEpImm | incwEp | decwEp => exact ⟨_, .of_next h (s.setEp_writes _ _), rfl⟩
  | movwIxA | movwIxImm | incwIx | decwIx => exact ⟨_, .of_next h (s.setIx_writes _ _), rfl⟩
  | movwSpA | movwSpImm | incwSp | decwSp => exact ⟨_, .of_next h (s.setSp_writes _ _), rfl⟩
  | movwAEp | movwAIx | movwASp | movwAPs | movwAPc | swap | xchwAPc => exact ⟨_, .of_next h (s.setA_writes _ _), rfl⟩
  | incwA | decwA => exact ⟨_, countA_effect h, rfl⟩
  -- exchanges
  | xchAT => exact ⟨[.al, .t], .of_next h {}, rfl⟩
  | xchwAT => exact ⟨[.ah, .al, .t], .of_next h {}, rfl⟩
  | xchwAEp => exact ⟨[.ah, .al, .ep], .of_next h {}, rfl⟩
  | xchwAIx => exact ⟨[.ah, .al, .ix], .of_next h {}, rfl⟩
  | xchwASp => exact ⟨[.ah, .al, .sp], .of_next h {}, rfl⟩
  -- arithmetic and logic
  | addcARi | addcAImm | addcADir | addcAAtIx | addcAAtEp | addcA | subcARi | subcAImm | subcADir | subcAAtIx | subcAAtEp
  | subcA => exact ⟨_, arithByte_effect h, rfl⟩
  | addcwA | subcwA => exact ⟨_, arithWord_effect h, rfl⟩
  | mulu => exact ⟨[.ah, .al, .h], .of_next h { draws := Nat.le_succ _ }, rfl⟩
  | divu => exact ⟨_, .of_next h s.divide_writes, rfl⟩
  | cmpA => exact ⟨_, .of_next h (compareBytes_writes ..), rfl⟩
  | cmpwA => exact ⟨[.h, .n, .z, .v, .c], .of_next h { draws := Nat.le_succ _ }, rfl⟩
  | cmpAImm | cmpADir | cmpAAtEp | cmpAAtIx | cmpARi => exact ⟨_, compareAL_effect h, rfl⟩
  | cmpDirImm | cmpAtEpImm | cmpAtIxImm | cmpRiImm => exact ⟨_, compareMem_effect h, rfl⟩
  | rorc | rolc => exact ⟨_, .of_next h (s.rotated_writes _ _ _), rfl⟩
  | daa => exact ⟨_, .of_next h s.decimalAdjustAdd_writes, rfl⟩
  | das => exact ⟨_, .of_next h s.decimalAdjustSub_writes, rfl⟩
  | andwA | orwA | xorwA => exact ⟨_, logicWord_effect h, rfl⟩
  | xorA | xorAImm | xorADir | xorAAtEp | xorAAtIx | xorARi | andA | andAImm | andADir | andAAtEp | andAAtIx | andARi
  | orA | orAImm | orADir | orAAtEp | orAAtIx | orARi => exact ⟨_, logicByte_effect h, rfl⟩
  -- branches and jumps
  | bz | bnz | bc | bnc | bn | bp | blt | bge | jmpAtA | jmpExt | nop => exact ⟨_, .of_next h (s.setPc_writes _), rfl⟩
  | bbc | bbs => exact ⟨_, branchOnBit_effect h, rfl⟩
  -- the stack
  | callv => exact ⟨_, execCallv_effect h, rfl⟩
  | call | pushwA | pushwIx => exact ⟨_, pushThenPc_effect h, rfl⟩
  | ret => exact ⟨_, execRet_effect h, rfl⟩
  | reti => exact ⟨_, execReti_effect h, rfl⟩
  | popwA => exact ⟨_, execPopwA_effect h, rfl⟩
  | popwIx => exact ⟨_, execPopwIx_effect h, rfl⟩
  -- PS
  | movwPsA => exact ⟨[.bank, .h, .i, .il, .n, .z, .v, .c, .maskBefore], .of_next h {}, rfl⟩
  | clrc | setc => exact ⟨_, .of_next h (s.setC_writes _ _), rfl⟩
  | clri | seti => exact ⟨_, .of_next h (s.setI_writes _ _ _), rfl⟩
  | unassigned => cases h

/-- A field that an instruction may not write is as before; RP and DP are so only if the mirror is not stored to (R21). -/
theorem exec_kept {i : Instr} {s t : State} (h : exec i s = .next t) (f : RegField) (hf : mayWrite i f = false)
    (hb : f = .bank → mirrorAddr ∉ i.storedBytes s) : f.Kept s t := by
  obtain ⟨fs, ⟨u, hst, hw⟩, hall⟩ := exec_effect h
  have hmem : f ∉ fs := fun hm => by simp [List.all_eq_true.1 hall f hm] at hf
  exact (hst.kept hb).trans (hw.kept f hmem)

end Sys2Proof.Machine
end

