-- ==== Sys2Proof/Proofs/Writers.lean ====
section
/-! Who writes what: each statement reads off `exec_kept` the fields it is about (10_state.md R13 to R33). -/

namespace Sys2Proof.Machine

/-! ## The values a load and a mask instruction leave -/

theorem loadByte_t {src : ByteSrc} {len : Nat} {s t : State} (h : loadByte src len s = .next t) :
    t.t = hiByte s.t ++ loByte s.a := by
  obtain ⟨v, s1, hr, rfl⟩ := loadByte_next.1 h
  obtain ⟨_, _, rfl⟩ := State.readByteSrc_same hr
  rfl

theorem loadWord_t {src : WordSrc} {len : Nat} {s t : State} (h : loadWord src len s = .next t) : t.t = s.a := by
  obtain ⟨v, s1, hr, rfl⟩ := loadWord_next.1 h
  obtain ⟨_, _, rfl⟩ := State.readWordSrc_same hr
  rfl

theorem exec_byteLoad_t {i : Instr} {s t : State} (h : exec i s = .next t) (hi : i.isByteLoad = true) :
    t.t = hiByte s.t ++ loByte s.a := by
  unfold exec at h
  cases i with
  | movAImm | movADir | movAAtIx | movAExt | movAAtA | movAAtEp | movARi => exact loadByte_t h
  | _ => cases hi

theorem exec_wordLoad_t {i : Instr} {s t : State} (h : exec i s = .next t) (hi : i.isWordLoad = true) : t.t = s.a := by
  unfold exec at h
  cases i with
  | movwAImm | movwADir | movwAAtIx | movwAExt | movwAAtA | movwAAtEp => exact loadWord_t h
  | _ => cases hi

/-- The mask recorded is that of before the instruction (R264, log 18). -/
theorem exec_writesMask_maskBefore {i : Instr} {s t : State} (h : exec i s = .next t) (hi : i.writesMask = true) :
    t.maskBefore = some ⟨s.ps.i, s.ps.il⟩ := by
  unfold exec at h
  cases i with
  | seti | clri | movwPsA =>
    cases h
    rfl
  | reti =>
    obtain ⟨s1, _, rfl⟩ := execReti_next.1 h
    rfl
  | _ => cases hi

/-- A word with both its bytes as before is as before. -/
theorem word_eq_of_bytes {x y : Word} (hhi : hiByte x = hiByte y) (hlo : loByte x = loByte y) : x = y := by
  rw [← joinBytes_hiByte_loByte x, ← joinBytes_hiByte_loByte y, hhi, hlo]

/-! ## The statements -/

/-- Settles O20: AH and AL are two fields, and A is the word of both. -/
theorem accumulatorWriters : Obligations.AccumulatorWriters := by
  intro i s t h hA
  have hah := exec_kept h .ah hA nofun
  refine ⟨hah, fun hAl => word_eq_of_bytes hah ?_⟩
  exact exec_kept h .al (by simp [mayWrite, hA, hAl]) nofun

/-- Settles O21: the frame of T, and what the two kinds of load put there. -/
theorem temporaryAccumulatorWriters : Obligations.TemporaryAccumulatorWriters := by
  intro i s t h
  exact ⟨fun hT => exec_kept h .t hT nofun, exec_byteLoad_t h, exec_wordLoad_t h⟩

/-- Settles O22: IX, EP and SP are a field each. -/
theorem pointerRegisterWriters : Obligations.PointerRegisterWriters := by
  intro i s t h
  exact ⟨fun hIx => exec_kept h .ix hIx nofun, fun hEp => exec_kept h .ep hEp nofun, fun hSp => exec_kept h .sp hSp nofun⟩

/-- Settles O23: the frame of I, IL and the recorded mask, and what is recorded. -/
theorem interruptMaskWriters : Obligations.InterruptMaskWriters := by
  intro i s t h
  refine ⟨fun hM => ⟨exec_kept h .i hM nofun, ?_⟩, fun hPs => exec_kept h .il hPs nofun, exec_writesMask_maskBefore h⟩
  exact exec_kept h .maskBefore hM nofun

/-- Settles O24: RP and DP are the field that a store to the mirror reaches. -/
theorem bankPointerWriters : Obligations.BankPointerWriters := by
  intro i s t h hPs hmirror
  exact exec_kept h .bank hPs fun _ => hmirror

/-- Settles O25: H is a field. -/
theorem halfCarryWriters : Obligations.HalfCarryWriters := by
  intro i s t h hH
  exact exec_kept h .h hH nofun

/-- Settles O26: N, Z, V and C are a field each. -/
theorem flagWriters : Obligations.FlagWriters := by
  intro i s t h
  exact ⟨fun hN => exec_kept h .n hN nofun, fun hZ => exec_kept h .z hZ nofun, fun hV => exec_kept h .v hV nofun,
    fun hC => exec_kept h .c hC nofun⟩

end Sys2Proof.Machine
end

