-- ==== Sys2Proof/Proofs/StepHistory.lean ====
section
/-! What every step keeps: the invariant, the device, what was delivered and drawn, and the requests software has not cleared (R21, R37,
R41, R60, R273). -/

namespace Sys2Proof.Machine

/-- What a run from `s` to `t` without a boundary in it keeps; it may move registers and store anywhere. -/
structure State.Continues (s t : State) : Prop where
  inv : s.Inv → t.Inv
  device : t.device = s.device
  inputs : t.inputs = s.inputs
  log : ∃ new, t.ioLog = s.ioLog ++ new ∧ (t.pending = s.pending ∨ ∃ acc ∈ new, acc.direction = .write)
  draws : s.draws ≤ t.draws

theorem State.Continues.trans {s t u : State} (h1 : s.Continues t) (h2 : t.Continues u) : s.Continues u where
  inv h := h2.inv (h1.inv h)
  device := h2.device.trans h1.device
  inputs := h2.inputs.trans h1.inputs
  log := by
    obtain ⟨new1, e1, p1⟩ := h1.log
    obtain ⟨new2, e2, p2⟩ := h2.log
    refine ⟨new1 ++ new2, by rw [e2, e1, List.append_assoc], ?_⟩
    rcases p1 with p1 | ⟨acc, hacc, hw⟩
    · rcases p2 with p2 | ⟨acc, hacc, hw⟩
      · exact .inl (p2.trans p1)
      · exact .inr ⟨acc, List.mem_append_right new1 hacc, hw⟩
    · exact .inr ⟨acc, List.mem_append_left new2 hacc, hw⟩
  draws := h1.draws.trans h2.draws

/-- The invariant is about memory and the device alone. -/
theorem State.Inv.congr {s t : State} (hs : s.Inv) (hm : t.mem = s.mem) (hd : t.device = s.device) : t.Inv := by
  obtain ⟨hwf, hsite⟩ := hs
  refine ⟨hm ▸ hwf, fun addr haddr => ?_⟩
  rw [State.siteOf_congr hd]
  exact hsite addr (hm ▸ haddr)

theorem State.StoresOnly.continues {s t : State} {addrs : List Word} (h : s.StoresOnly t addrs) : s.Continues t where
  inv := h.inv
  device := h.device_eq
  inputs := by
    obtain ⟨_, _, _, _, _, _, rfl⟩ := h.same
    rfl
  log := h.log
  draws := h.draws

theorem State.WritesOnly.continues {s t : State} {fs : List RegField} (h : s.WritesOnly t fs) : s.Continues t where
  inv hs := hs.congr h.mem h.device
  device := h.device
  inputs := h.inputs
  log := ⟨[], by simp [h.ioLog], .inl h.pending⟩
  draws := h.draws

theorem State.Effect.continues {s t : State} {addrs : List Word} {fs : List RegField} (h : s.Effect t addrs fs) :
    s.Continues t := by
  obtain ⟨u, hst, hw⟩ := h
  exact hst.continues.trans hw.continues

/-! ## The three kinds of step -/

theorem exec_continues {i : Instr} {s t : State} (h : exec i s = .next t) : s.Continues t := by
  obtain ⟨fs, he, _⟩ := exec_effect h
  exact he.continues

theorem State.push16_continues {s t : State} {window : Option Word} {v : Word} (h : s.push16 window v = .next t) :
    s.Continues t := (State.push16_effect h t.pc).continues

theorem interruptEntry_continues {n : Nat} {level : BitVec 2} {s t : State} (h : interruptEntry n level s = .next t) :
    s.Continues t := by
  obtain ⟨target, s1, hr, s2, hpc, s3, hps, rfl⟩ := interruptEntry_next.1 h
  have hlast : s3.WritesOnly { s3 with ps := { s3.ps with il := level }, pc := target } [.il] := {}
  exact (State.read16_storesOnly hr).continues.trans <| (State.push16_continues hpc).trans <|
    (State.push16_continues hps).trans hlast.continues

/-- A reset step reads, then writes registers and drops the pending requests (R300, R273). -/
theorem resetStep_storesOnly {s t : State} (h : resetStep s = .next t) :
    ∃ u, s.StoresOnly u [] ∧
      t = { u with pc := t.pc, a := 0#16, t := 0#16, ix := 0#16, ep := 0#16, sp := 0#16, ps := Status.afterReset,
                   pending := [], maskBefore := none } := by
  obtain ⟨mode, s1, h1, start, s2, h2, rfl⟩ := resetStep_next.1 h
  exact ⟨s2, (State.read8_storesOnly h1).trans (State.read16_storesOnly h2), rfl⟩

/-- A step is a reset step, or it goes on from the state that left the boundary. -/
theorem step_next {s t : State} (h : step s = .next t) :
    (s.presented = .reset ∧ resetStep s.leaveBoundary = .next t) ∨
    (s.presented ≠ .reset ∧ s.leaveBoundary.Continues t) := by
  rcases boundaryStep_next h with hreset | ⟨-, n, level, hp, -, -, hentry⟩ | ⟨-, hp, i, s1, hfetch, hexec⟩
  · exact .inl hreset
  · exact .inr ⟨by simp [hp], interruptEntry_continues hentry⟩
  · exact .inr ⟨hp, (State.fetch_storesOnly hfetch).continues.trans (exec_continues hexec)⟩

/-! ## The statements -/

/-- Settles O17: each kind of step keeps the invariant, because stores do and register writes leave memory alone. -/
theorem stepKeepsInvariant : Obligations.StepKeepsInvariant := by
  intro s t hs h
  have hleft : s.leaveBoundary.Inv := hs.congr rfl rfl
  rcases step_next h with ⟨-, hreset⟩ | ⟨-, hc⟩
  · obtain ⟨u, hu, ht⟩ := resetStep_storesOnly hreset
    exact (hu.inv hleft).congr (by rw [ht]) (by rw [ht])
  · exact hc.inv hleft

/-- A request that is pending, in a run that wrote to no I/O register, is pending after it (R273, log 35). -/
theorem State.Continues.pending_eq {s t : State} (h : s.Continues t)
    (hreads : ∀ acc ∈ t.ioLog.drop s.ioLog.length, acc.direction = .read) : t.pending = s.pending := by
  obtain ⟨new, hlog, hp | ⟨acc, hacc, hw⟩⟩ := h.log
  · exact hp
  · have := hreads acc (by simpa [hlog] using hacc)
    simp [hw] at this

/-- Settles O19: what a run keeps holds from the state that left the boundary, whose log, draws and device are those of before. -/
theorem stepKeepsDeviceAndHistory : Obligations.StepKeepsDeviceAndHistory := by
  intro s t h
  rcases step_next h with ⟨hp, hreset⟩ | ⟨hp, hc⟩
  · obtain ⟨u, hu, ht⟩ := resetStep_storesOnly hreset
    have hc := hu.continues
    rw [ht]
    exact ⟨hc.device, hc.inputs, hu.log_prefix, hc.draws, fun hne => absurd hp hne, fun _ => rfl⟩
  · refine ⟨hc.device, hc.inputs, ?_, hc.draws, fun _ hreads r hr => ?_, fun hreset => absurd hreset hp⟩
    · obtain ⟨new, hlog, _⟩ := hc.log
      exact ⟨new, hlog.symm⟩
    · rw [hc.pending_eq hreads]
      exact State.mem_pendingNow.2 hr

end Sys2Proof.Machine
end

