-- ==== Sys2Proof/Proofs/StatusWord.lean ====
section
/-! PS as a word and by its fields (R20 to R22), and the addresses the operand forms compute (R31, R53, R54, R57), as numbers. -/

namespace Sys2Proof.Machine

/-! ## PS as a number -/

/-- Two bit fields side by side, as a number. -/
theorem toNat_append_eq_add {n m : Nat} (x : BitVec n) (y : BitVec m) : (x ++ y).toNat = x.toNat * 2 ^ m + y.toNat := by
  rw [BitVec.toNat_append, ← Nat.shiftLeft_add_eq_or_of_lt y.isLt, Nat.shiftLeft_eq]

theorem Status.toNat_toWord (p : Status) : p.toWord.toNat =
    2048 * p.rp.toNat + 256 * p.dp.toNat + 128 * p.h.toNat + 64 * p.i.toNat + 16 * p.il.toNat + 8 * p.n.toNat +
      4 * p.z.toNat + 2 * p.v.toNat + p.c.toNat := by
  simp only [Status.toWord, Status.upper, Status.ccr, joinBytes, toNat_append_eq_add, BitVec.toNat_ofBool]
  omega

theorem bool_eq_iff_toNat_eq {b c : Bool} : b = c ↔ b.toNat = c.toNat := by
  cases b <;> cases c <;> simp

theorem Status.flags_toNat_lt (p : Status) :
    p.h.toNat < 2 ∧ p.i.toNat < 2 ∧ p.n.toNat < 2 ∧ p.z.toNat < 2 ∧ p.v.toNat < 2 ∧ p.c.toNat < 2 :=
  ⟨p.h.toNat_lt, p.i.toNat_lt, p.n.toNat_lt, p.z.toNat_lt, p.v.toNat_lt, p.c.toNat_lt⟩

/-- The places of the fields do not overlap, so that the word determines each. -/
theorem Status.eq_of_toWord_eq {p q : Status} (h : p.toWord = q.toWord) : p = q := by
  have hn := congrArg BitVec.toNat h
  rw [Status.toNat_toWord, Status.toNat_toWord] at hn
  have hp := p.flags_toNat_lt
  have hq := q.flags_toNat_lt
  cases p
  cases q
  simp only [Status.mk.injEq, ← BitVec.toNat_inj, bool_eq_iff_toNat_eq]
  dsimp only at hn hp hq
  refine ⟨?_, ?_, ?_, ?_, ?_, ?_, ?_, ?_, ?_⟩ <;> omega

/-- A word is the sum of its fields: PS[15:11], PS[10:8], PS[5:4] and the single bits, each split off with `Nat.mod_mul`. -/
theorem toNat_eq_sum_of_fields (w : Word) : w.toNat =
    2048 * (w.toNat / 2048 % 32) + 256 * (w.toNat / 256 % 8) + 128 * (w.toNat / 128 % 2) + 64 * (w.toNat / 64 % 2) +
      16 * (w.toNat / 16 % 4) + 8 * (w.toNat / 8 % 2) + 4 * (w.toNat / 4 % 2) + 2 * (w.toNat / 2 % 2) + w.toNat % 2 := by
  have split (a b c : Nat) (hc : a * b = c) : w.toNat % c = w.toNat % a + a * (w.toNat / a % b) := hc ▸ Nat.mod_mul
  have whole : w.toNat % 65536 = w.toNat := Nat.mod_eq_of_lt w.isLt
  linarith only [whole, split 2048 32 65536 rfl, split 256 8 2048 rfl, split 128 2 256 rfl, split 64 2 128 rfl,
    split 16 4 64 rfl, split 8 2 16 rfl, split 4 2 8 rfl, split 2 2 4 rfl]

@[simp] theorem Status.toWord_ofWord (w : Word) : (Status.ofWord w).toWord = w := by
  apply BitVec.eq_of_toNat_eq
  rw [Status.toNat_toWord, toNat_eq_sum_of_fields w]
  simp only [Status.ofWord, BitVec.extractLsb'_toNat, BitVec.getLsbD, Nat.toNat_testBit, Nat.shiftRight_eq_div_pow]
  norm_num

@[simp] theorem Status.ofWord_toWord (p : Status) : Status.ofWord p.toWord = p :=
  Status.eq_of_toWord_eq (Status.toWord_ofWord p.toWord)

@[simp] theorem Status.hiByte_toWord (p : Status) : hiByte p.toWord = p.upper := hiByte_joinBytes _ _

@[simp] theorem Status.loByte_toWord (p : Status) : loByte p.toWord = p.ccr := loByte_joinBytes _ _

/-- A byte written to the mirror is the byte read there (R21). -/
@[simp] theorem Status.upper_withUpper (p : Status) (b : Byte) : (p.withUpper b).upper = b := by
  apply BitVec.eq_of_toNat_eq
  rw [Status.upper, toNat_append_eq_add]
  simp only [Status.withUpper, BitVec.extractLsb'_toNat, Nat.shiftRight_eq_div_pow]
  omega

theorem Status.ccr_withUpper (p : Status) (b : Byte) : (p.withUpper b).ccr = p.ccr := rfl

/-- Settles O10: the number a PS word stands for fixes its fields, and the mirror is the word's upper byte. -/
theorem statusWordLayout : Obligations.StatusWordLayout := by
  refine ⟨Status.toWord_ofWord, Status.ofWord_toWord, Status.toNat_toWord, fun s => ?_, fun p b => ?_⟩
  · rw [Status.hiByte_toWord]
    rfl
  · rw [Status.loByte_toWord, Status.toWord, Status.upper_withUpper, Status.ccr_withUpper]
    rfl

/-! ## Operand addresses -/

/-- A word plus a signed byte, modulo 2^16 (R53, D6). -/
theorem toNat_add_sextByte (w : Word) (off : Byte) :
    (w + sextByte off).toNat = (((w.toNat : Int) + off.toInt) % 65536).toNat := by
  rw [BitVec.toNat_add, sextByte, BitVec.signExtend, BitVec.toNat_ofInt]
  omega

theorem toNat_regAddr (p : Status) (r : BitVec 3) : (regAddr p r).toNat = 0x100 + 8 * p.rp.toNat + r.toNat := by
  rw [regAddr, toNat_append_eq_add, toNat_append_eq_add]
  simp
  omega

/-- Settles O7: the indexed and the register form as numbers; the others are the register or the operand itself. -/
theorem operandAddresses : Obligations.OperandAddresses := by
  intro s off e r
  exact ⟨toNat_add_sextByte s.ix off, rfl, rfl, rfl, toNat_regAddr s.ps r⟩

end Sys2Proof.Machine
end

