-- ==== Sys2Proof/Proofs/Accesses.lean ====
section
/-! One byte access at each kind of address, and when it completes (R21, R40, R41, R60). -/

namespace Sys2Proof.Machine

/-! ## Reads -/

/-- A byte is read exactly where `readable` says so. -/
theorem State.readable_iff {s : State} {addr : Word} : s.readable addr = true ↔ ∃ b s1, s.read8 addr = .next (b, s1) := by
  unfold State.readable State.read8 State.readAs
  rcases s.siteOf addr with _ | (_ | _ | _ | _)
  case mapped.ram | mapped.rom => cases s.mem.read addr.toNat <;> simp
  all_goals simp

/-- A RAM or ROM byte (R40). -/
theorem State.read8_of_memory {s : State} {addr : Word} (h : s.siteOf addr = .mapped .ram ∨ s.siteOf addr = .mapped .rom) :
    s.read8 addr = (match s.mem.read addr.toNat with
      | some b => .next (b, s)
      | none => .fault (.unwrittenRead addr)) := by
  rcases h with h | h <;> simp [State.read8, State.readAs, h] <;> rfl

/-- Reads do not change what can be read. -/
theorem State.SameButIo.readable_eq {s s1 : State} (h : s.SameButIo s1) (addr : Word) :
    s1.readable addr = s.readable addr := by
  obtain ⟨_, _, rfl⟩ := h
  rfl

theorem State.read16_of_readable16 {s : State} {addr : Word} (h : s.readable16 addr = true) :
    ∃ w t, s.read16 addr = .next (w, t) := by
  obtain ⟨hhi, hlo⟩ := (Bool.and_eq_true _ _).mp h
  obtain ⟨hi, s1, h1⟩ := State.readable_iff.1 hhi
  rw [← State.SameButIo.readable_eq (State.read8_same h1)] at hlo
  obtain ⟨lo, t, h2⟩ := State.readable_iff.1 hlo
  exact ⟨_, t, State.read16_next.2 ⟨hi, s1, lo, h1, h2, rfl⟩⟩

/-! ## Writes -/

/-- A byte is written exactly where `writable` says so. -/
theorem State.writable_iff {s : State} {addr : Word} {v : Byte} :
    s.writable addr = true ↔ ∃ s1, s.write8 addr v = .next s1 := by
  unfold State.writable State.write8
  rcases s.siteOf addr with _ | (_ | _ | _ | _) <;> simp

/-- Settles O11: each kind of address selects one arm of the read and one of the write. -/
theorem byteAccesses : Obligations.ByteAccesses := by
  intro s addr v
  refine ⟨fun h => ⟨?_, ?_⟩, fun h => ⟨State.read8_of_memory (.inl h), ?_⟩, fun h => ⟨State.read8_of_memory (.inr h), ?_⟩,
    fun h => ⟨?_, ?_⟩, fun h => ⟨?_, ?_⟩, State.readable_iff, State.writable_iff⟩
  · simp [State.read8, State.readAs, h]
  · simp [State.write8, h]
  · simp [State.write8, h]
  · simp [State.write8, h]
  · simp [State.read8, State.readAs, h]
  · simp [State.write8, h, State.writeIo, State.logIo]
  · simp [State.read8, State.readAs, h]
  · simp [State.write8, h]

end Sys2Proof.Machine
end

