-- ==== Sys2Proof/Proofs/ResetAndAcceptance.lean ====
section
/-! The reset state and the reset step (R38, R300), and the acceptance test at a boundary (R264, R269, R273, R277). -/

namespace Sys2Proof.Machine

/-! ## Reset -/

theorem Status.toWord_afterReset : Status.afterReset.toWord = 0x0030#16 := by decide

/-- Settles O18: memory lists nothing, so the invariant asks nothing of it. -/
theorem resetMeetsInvariant : Obligations.ResetMeetsInvariant := by
  have hinv : State.reset.Inv := ⟨State.reset_mem_wf, fun addr hread => absurd rfl hread⟩
  exact ⟨hinv, rfl, rfl, rfl, rfl, rfl, Status.toWord_afterReset, rfl, rfl, rfl, rfl⟩

/-- The boundary at which reset is asserted is a reset step, whatever is pending (R300). -/
theorem step_of_presented_reset {s : State} (h : s.presented = .reset) : step s = resetStep s.leaveBoundary := by
  simp [step, boundaryStep, h]

/-! ## The acceptance test -/

/-- With no mask kept from before, the test reads the PS of now (R264). -/
theorem State.acceptMask_of_none {s : State} (h : s.maskBefore = none) : s.acceptMask = ⟨s.ps.i, s.ps.il⟩ := by
  unfold State.acceptMask
  split <;> simp_all

theorem State.acceptMask_of_noDelay {s : State} (h : s.device.irqMaskDelay = false) : s.acceptMask = ⟨s.ps.i, s.ps.il⟩ := by
  simp [State.acceptMask, h]

theorem State.acceptMask_of_delay {s : State} {m : IrqMask} (h : s.device.irqMaskDelay = true) (hm : s.maskBefore = some m) :
    s.acceptMask = m := by
  simp [State.acceptMask, h, hm]

theorem State.accepts_iff {s : State} {level : BitVec 2} :
    s.accepts level = true ↔ s.acceptMask.i = true ∧ level.toNat < s.acceptMask.il.toNat := by
  simp [State.accepts]

theorem State.accepts_eq_false_iff {s : State} {level : BitVec 2} :
    s.accepts level = false ↔ (s.acceptMask.i = true → s.acceptMask.il.toNat ≤ level.toNat) := by
  simp [State.accepts]

/-- Settles O60: the three bytes are read, and the reset values leave I 0. -/
theorem resetStepEffect : Obligations.ResetStepEffect := by
  intro s hp hmode hvector
  obtain ⟨mode, s1, h1⟩ := State.readable_iff.1 ((State.leaveBoundary_readable s _).trans hmode)
  have hsame1 := State.read8_same h1
  have hvector1 : s1.readable16 0xFFFE#16 = true := by
    rw [State.readable16, hsame1.readable_eq, hsame1.readable_eq]
    exact hvector
  obtain ⟨start, s2, h2⟩ := State.read16_of_readable16 hvector1
  have hmem : s2.mem = s.mem := by
    obtain ⟨_, _, rfl⟩ := State.SameButIo_trans hsame1 (State.read16_same h2)
    rfl
  refine ⟨mode, s1, start, s2,
    { s2 with pc := start, a := 0#16, t := 0#16, ix := 0#16, ep := 0#16, sp := 0#16, ps := Status.afterReset,
              pending := [], maskBefore := none }, h1, h2, ?_, rfl, rfl, rfl, rfl, rfl, Status.toWord_afterReset, rfl, hmem, rfl,
    fun level => ?_⟩
  · rw [step_of_presented_reset hp]
    exact resetStep_next.2 ⟨mode, s1, h1, start, s2, h2, rfl⟩
  · rw [State.accepts_eq_false_iff, State.acceptMask_of_none rfl]
    exact nofun

/-- A push leaves PS but RP and DP, and the mask kept from before. -/
theorem State.push16_mask {s t : State} {window : Option Word} {v : Word} (h : s.push16 window v = .next t) :
    t.ps.i = s.ps.i ∧ t.maskBefore = s.maskBefore := by
  obtain ⟨u, hu, rfl⟩ := State.push16_storesOnly h
  exact ⟨hu.kept (f := .i) nofun, hu.kept (f := .maskBefore) nofun⟩

/-- Entry leaves I, sets IL to the level, and keeps no mask from before but one that was there (R266, D17). -/
theorem interruptEntry_mask {n : Nat} {level : BitVec 2} {s t : State} (h : interruptEntry n level s = .next t) :
    t.ps.i = s.ps.i ∧ t.ps.il = level ∧ t.maskBefore = s.maskBefore := by
  obtain ⟨target, s1, hr, s2, hpc, s3, hps, rfl⟩ := interruptEntry_next.1 h
  obtain ⟨hi3, hm3⟩ := State.push16_mask hps
  obtain ⟨hi2, hm2⟩ := State.push16_mask hpc
  obtain ⟨_, _, rfl⟩ := State.read16_same hr
  exact ⟨hi3.trans hi2, rfl, hm3.trans hm2⟩

/-- A request that withdraws a pending one is refused, whatever else holds (R277 E1). -/
theorem step_of_withdraws {s : State} (hw : s.withdraws = true)
    (hp : s.presented = .quiet ∨ ∃ n level, s.presented = .request n level ∧
      BoundaryInput.wellFormed s.device (.request n level) = true) : step s = .refused .requestWithdrawn := by
  rcases hp with hp | ⟨n, level, hp, hwf⟩
  · simp [step, boundaryStep, hp, hw]
  · simp [step, boundaryStep, hp, hwf, hw]

theorem State.withdraws_of_mem {s : State} {r : IrqRequest} (hr : r ∈ s.pending)
    (h : mayPresentWhile r s.presented = false) : s.withdraws = true := by
  simp only [State.withdraws, List.any_eq_true]
  exact ⟨r, hr, by simp [h]⟩

/-- A pending request is withdrawn by one of lower priority, and by its own number at another level (R265, R273). -/
theorem mayPresentWhile_request_eq_false {r : IrqRequest} {n : Nat} {level : BitVec 2}
    (h : r.level.toNat < level.toNat ∨ (n = r.number ∧ level ≠ r.level)) :
    mayPresentWhile r (.request n level) = false := by
  rw [mayPresentWhile]
  split
  · have hne : level ≠ r.level := h.elim (fun hlt e => absurd hlt (by simp [e])) And.right
    simpa using hne
  · next hn =>
    have hlt : r.level.toNat < level.toNat := h.resolve_right fun h' => hn h'.1
    simpa using hlt

theorem step_of_number_out_of_range {s : State} {n : Nat} {level : BitVec 2} (hp : s.presented = .request n level)
    (hn : s.device.nIrq ≤ n) : step s = .refused (.requestOutOfRange n) := by
  simp [step, boundaryStep, hp, BoundaryInput.wellFormed, Nat.not_lt.2 hn]

/-- Settles O56: the test from its mask, the mask an entry leaves, and the boundaries that are refused. -/
theorem acceptanceTest : Obligations.AcceptanceTest := by
  refine ⟨fun s level => ⟨?_, ?_, ?_, ?_, ?_, ?_, ?_, ?_⟩, ?_, ?_, fun s r hr => ⟨fun hp => ?_, ?_⟩, ?_⟩
  · exact State.accepts_eq_false_iff.2 fun _ => Nat.le_of_lt_succ s.acceptMask.il.isLt
  · exact fun hle => State.accepts_eq_false_iff.2 fun _ => hle
  · exact fun hil => State.accepts_eq_false_iff.2 fun _ => by simp [hil]
  · exact fun hi => State.accepts_eq_false_iff.2 fun hi' => absurd (hi'.symm.trans hi) nofun
  · exact fun hi hlt => State.accepts_iff.2 ⟨hi, hlt⟩
  · exact State.acceptMask_of_noDelay
  · exact State.acceptMask_of_none
  · exact fun m => State.acceptMask_of_delay
  · intro s t n level later hm h
    obtain ⟨hi, hil, hmask⟩ := interruptEntry_mask h
    rw [State.accepts, State.acceptMask_of_none (hmask.trans hm), hi, hil]
  · exact fun s n level => step_of_number_out_of_range
  · exact step_of_withdraws (State.withdraws_of_mem hr (by rw [hp]; rfl)) (.inl hp)
  · intro n level hp hwf hlower
    refine step_of_withdraws (State.withdraws_of_mem hr ?_) (.inr ⟨n, level, hp, hwf⟩)
    rw [hp]
    exact mayPresentWhile_request_eq_false hlower
  · intro s r rest hinputs hpending
    simp [State.presented, hinputs, hpending]

end Sys2Proof.Machine
end

