-- ==== Sys2Proof/Proofs/MemoryAddresses.lean ====
section
/-! The direct map (R52), and the vector tables with the words CALLV, interrupt entry and reset go to (R61, R62, R300), as numbers. -/

namespace Sys2Proof.Machine

/-! ## The direct map -/

theorem toNat_dirAddr_unbanked (p : Status) {d : Byte} (h : d.toNat < 0x80) : (dirAddr p d).toNat = d.toNat := by
  have hmsb : d.msb = false := by simpa [BitVec.msb_eq_decide] using h
  simp only [dirAddr, hmsb, Bool.false_eq_true, if_false, BitVec.toNat_setWidth]
  omega

theorem toNat_dirAddr_banked (p : Status) {d : Byte} (h : 0x80 ≤ d.toNat) :
    (dirAddr p d).toNat = (p.dp.toNat + 1) * 0x80 + (d.toNat - 0x80) := by
  have hmsb : d.msb = true := by simpa [BitVec.msb_eq_decide] using h
  have hdp := p.dp.isLt
  have hd := d.isLt
  simp only [dirAddr, hmsb, if_true, BitVec.toNat_add, BitVec.toNat_ofNat]
  omega

/-- Settles O6: the two halves of the map, and its largest address, FF in bank 7. -/
theorem directAddressMap : Obligations.DirectAddressMap := by
  intro s d
  refine ⟨toNat_dirAddr_unbanked s.ps, toNat_dirAddr_banked s.ps, ?_⟩
  rcases Nat.lt_or_ge d.toNat 0x80 with hlow | hhigh
  · have := toNat_dirAddr_unbanked s.ps hlow
    rw [State.addrOf]
    omega
  · have := toNat_dirAddr_banked s.ps hhigh
    have hdp := s.ps.dp.isLt
    have hd := d.isLt
    rw [State.addrOf]
    omega

/-! ## The vector tables -/

theorem toNat_callvVectorAddr (k : BitVec 3) : (callvVectorAddr k).toNat = 0xFFC0 + 2 * k.toNat := by
  have hk := k.isLt
  simp only [callvVectorAddr, BitVec.toNat_add, BitVec.toNat_ofNat]
  omega

theorem toNat_irqVectorAddr {n : Nat} (h : n < 24) : (irqVectorAddr n).toNat = 0xFFFA - 2 * n := by
  simp only [irqVectorAddr, BitVec.toNat_sub, BitVec.toNat_ofNat]
  omega

/-- CALLV: the vector's word, the push of the next instruction's address, PC (R238). -/
theorem execCallv_next {k : BitVec 3} {s t : State} :
    execCallv k s = .next t ↔ ∃ target s1, s.read16 (callvVectorAddr k) = .next (target, s1) ∧
      ∃ s2, s1.push16 none (s.nextPc 1) = .next s2 ∧ { s2 with pc := target } = t := by
  simp [execCallv, Res.andThen_eq_next]

/-- Settles O8: the table's addresses, and the two bytes of the word CALLV reads there. -/
theorem callvVectorTable : Obligations.CallvVectorTable := by
  refine ⟨toNat_callvVectorAddr, rfl, rfl, rfl, rfl, rfl, rfl, rfl, rfl, fun k s t h => ?_⟩
  obtain ⟨target, s2, hvector, _, -, rfl⟩ := execCallv_next.1 h
  obtain ⟨hi, s1, lo, hhi, hlo, rfl⟩ := State.read16_next.1 hvector
  exact ⟨hi, s1, lo, s2, hhi, hlo, rfl⟩

/-- Settles O9: the table's addresses, and the two bytes of the word that entry and reset read. -/
theorem interruptVectorTable : Obligations.InterruptVectorTable := by
  refine ⟨fun n => toNat_irqVectorAddr, fun n level s t _ h => ?_, fun s t h => ?_⟩
  · obtain ⟨target, s2, hvector, _, -, _, -, rfl⟩ := interruptEntry_next.1 h
    obtain ⟨hi, s1, lo, hhi, hlo, rfl⟩ := State.read16_next.1 hvector
    exact ⟨hi, s1, lo, s2, hhi, hlo, rfl⟩
  · obtain ⟨mode, s1, hmode, start, s3, hvector, rfl⟩ := resetStep_next.1 h
    obtain ⟨hi, s2, lo, hhi, hlo, rfl⟩ := State.read16_next.1 hvector
    exact ⟨mode, s1, hi, s2, lo, s3, hmode, hhi, hlo, rfl⟩

end Sys2Proof.Machine
end

