-- ==== Sys2Proof/Proofs/MemoryFrame.lean ====
section
/-! What an instruction leaves of memory, and that no step writes ROM (R41, R49, R60). -/

namespace Sys2Proof.Machine

/-- Outside the mirror a byte depends on memory and the device alone. -/
theorem State.peek_congr {s t : State} (hm : t.mem = s.mem) (hd : t.device = s.device) {addr : Word} (ha : addr ≠ mirrorAddr) :
    t.peek addr = s.peek addr := by
  simp only [State.peek, State.siteOf, if_neg ha, hm, hd]
  cases memKindOf s.device.memMap addr.toNat <;> rfl

@[simp] theorem State.peek_mirrorAddr (s : State) : s.peek mirrorAddr = some s.ps.upper := rfl

/-- Settles O14: stores reach the bytes of `storedBytes` only, register writes no byte but the mirror, and that one is the field of RP
and DP. -/
theorem memoryFrameOfEveryInstruction : Obligations.MemoryFrameOfEveryInstruction := by
  intro i s t h addr hstored hmirror
  by_cases ha : addr = mirrorAddr
  · subst ha
    obtain ⟨hrp, hdp⟩ := exec_kept h .bank (hmirror rfl) fun _ => hstored
    simp [Status.upper, hrp, hdp]
  · obtain ⟨fs, ⟨u, hst, hw⟩, -⟩ := exec_effect h
    rw [State.peek_congr hw.mem hw.device ha, hst.bytes addr hstored]

/-! ## ROM -/

/-- `t` is on the device of `s`, and every ROM byte reads as in `s` (R60). -/
def State.KeepsRom (s t : State) : Prop :=
  t.device = s.device ∧ ∀ addr : Word, s.siteOf addr = .mapped .rom → t.peek addr = s.peek addr

theorem State.KeepsRom.trans {s t u : State} (h1 : s.KeepsRom t) (h2 : t.KeepsRom u) : s.KeepsRom u :=
  ⟨h2.1.trans h1.1, fun addr hrom => (h2.2 addr ((State.siteOf_congr h1.1 addr).trans hrom)).trans (h1.2 addr hrom)⟩

theorem State.StoresOnly.keepsRom {s t : State} {addrs : List Word} (h : s.StoresOnly t addrs) : s.KeepsRom t :=
  ⟨h.device_eq, h.rom⟩

theorem State.KeepsRom.of_mem_device {s t : State} (hm : t.mem = s.mem) (hd : t.device = s.device) : s.KeepsRom t := by
  refine ⟨hd, fun addr hrom => State.peek_congr hm hd fun ha => ?_⟩
  rw [ha] at hrom
  cases hrom

theorem State.Effect.keepsRom {s t : State} {addrs : List Word} {fs : List RegField} (h : s.Effect t addrs fs) : s.KeepsRom t := by
  obtain ⟨u, hst, hw⟩ := h
  exact hst.keepsRom.trans (.of_mem_device hw.mem hw.device)

theorem exec_keepsRom {i : Instr} {s t : State} (h : exec i s = .next t) : s.KeepsRom t := by
  obtain ⟨fs, he, -⟩ := exec_effect h
  exact he.keepsRom

theorem interruptEntry_keepsRom {n : Nat} {level : BitVec 2} {s t : State} (h : interruptEntry n level s = .next t) :
    s.KeepsRom t := by
  obtain ⟨target, s1, hr, s2, hpc, s3, hps, rfl⟩ := interruptEntry_next.1 h
  have hlast : s3.KeepsRom { s3 with ps := { s3.ps with il := level }, pc := target } := .of_mem_device rfl rfl
  exact (State.read16_storesOnly hr).keepsRom.trans <| (State.push16_effect hpc s2.pc).keepsRom.trans <|
    (State.push16_effect hps s3.pc).keepsRom.trans hlast

theorem resetStep_keepsRom {s t : State} (h : resetStep s = .next t) : s.KeepsRom t := by
  obtain ⟨u, hu, ht⟩ := resetStep_storesOnly h
  exact hu.keepsRom.trans (.of_mem_device (by rw [ht]) (by rw [ht]))

/-- Settles O16: each of the three kinds of step keeps ROM, from the state that left the boundary. -/
theorem romNeverChanges : Obligations.RomNeverChanges := by
  intro s t addr h hrom
  have hleft : s.leaveBoundary.KeepsRom t := by
    rcases boundaryStep_next h with ⟨-, hreset⟩ | ⟨-, n, level, -, -, -, hentry⟩ | ⟨-, -, i, s1, hfetch, hexec⟩
    · exact resetStep_keepsRom hreset
    · exact interruptEntry_keepsRom hentry
    · exact (State.fetch_storesOnly hfetch).keepsRom.trans (exec_keepsRom hexec)
  exact hleft.2 addr hrom

end Sys2Proof.Machine
end
-- ==== Sys2Proof/Proofs/MemoryWords.lean ====
section
/-! When reads, stores and pushes complete, and what is read back after a write; then the word loads and stores (R41 to R46, R55, R56, R58,
R117 to R127). -/

namespace Sys2Proof.Machine

/-! ## Reads that complete -/

/-- Whether a read completes does not depend on its RMW mark (R48). -/
theorem State.readAs_of_readable {s : State} {addr : Word} (rmw : Bool) (h : s.readable addr = true) :
    ∃ v s1, s.readAs rmw addr = .next (v, s1) := by
  cases rmw with
  | false => exact State.readable_iff.1 h
  | true =>
    obtain ⟨v, s1, hread⟩ := State.readable_iff.1 h
    rcases State.readAs_next hread with ⟨hpeek, -⟩ | ⟨hio, -, -⟩
    · exact ⟨v, s, State.readAs_of_peek hpeek⟩
    · exact ⟨_, _, by rw [State.readAs, hio]⟩

theorem State.SameButIo.readable16_eq {s s1 : State} (h : s.SameButIo s1) (addr : Word) :
    s1.readable16 addr = s.readable16 addr := by
  rw [State.readable16, h.readable_eq, h.readable_eq, State.readable16]

/-- A word whose two bytes are known is read, with nothing changed. -/
theorem State.read16_of_peek {s : State} {addr : Word} {hi lo : Byte} (hhi : s.peek addr = some hi)
    (hlo : s.peek (addr + 1#16) = some lo) : s.read16 addr = .next (joinBytes hi lo, s) :=
  State.read16_next.2 ⟨hi, s, lo, State.readAs_of_peek hhi, State.readAs_of_peek hlo, rfl⟩

/-! ## Writes that complete -/

/-- Where a write completes depends on the device alone. -/
theorem State.writable_congr {s t : State} (h : t.device = s.device) (addr : Word) : t.writable addr = s.writable addr := by
  simp only [State.writable, State.siteOf_congr h]

theorem State.storable_congr {s t : State} (h : t.device = s.device) (next addr : Word) :
    t.storable next addr = s.storable next addr := by
  simp only [State.storable, State.writable_congr h]

theorem State.storable_iff {s : State} {next addr : Word} :
    s.storable next addr = true ↔ s.writable addr = true ∧ inPrefetchWindow next addr = false := by
  simp [State.storable]

/-- A store that completes is the write. -/
theorem State.store8_of_storable {s : State} {next addr : Word} (v : Byte) (h : s.storable next addr = true) :
    ∃ t, s.write8 addr v = .next t ∧ s.store8 (some next) addr v = .next t := by
  obtain ⟨hwritable, hwindow⟩ := State.storable_iff.1 h
  obtain ⟨t, hwrite⟩ := State.writable_iff.1 hwritable
  exact ⟨t, hwrite, State.store8_next.2 ⟨fun _ hn => Option.some.inj hn ▸ hwindow, hwrite⟩⟩

theorem State.StoresOnly.pc_eq {s t : State} {addrs : List Word} (h : s.StoresOnly t addrs) : t.pc = s.pc := by
  obtain ⟨_, _, _, _, _, _, rfl⟩ := h.same
  rfl

/-- `next_pc` depends on PC alone, so reads and stores leave it. -/
theorem State.nextPc_congr {s t : State} (h : t.pc = s.pc) (len : Nat) : t.nextPc len = s.nextPc len := by
  rw [State.nextPc, h, State.nextPc]

theorem State.advance_of_pc_eq {s t : State} (h : t.pc = s.pc) (len : Nat) :
    t.advance len = { t with pc := s.nextPc len } := by
  rw [State.advance, State.nextPc_congr h]

/-- What is written is the byte the address holds, but at an I/O register (R21, R41). -/
theorem State.peek_of_write8 {s t : State} {addr : Word} {v : Byte} (h : s.write8 addr v = .next t)
    (hio : s.siteOf addr ≠ .mapped .io) : t.peek addr = some v := by
  have hsite : t.siteOf addr = s.siteOf addr := State.siteOf_congr (State.write8_storesOnly h).device_eq addr
  rw [State.peek, hsite]
  rcases State.write8_next h with ⟨hs, rfl⟩ | ⟨hs, rfl⟩ | ⟨hs, rfl⟩
  · simp [hs]
  · simp [hs, Memory.read_write_same]
  · exact absurd hs hio

/-- Two writes of different addresses, neither an I/O register: both bytes are there. -/
theorem State.peek_of_write8_write8 {s s1 t : State} {a b : Word} {x y : Byte} (h1 : s.write8 a x = .next s1)
    (h2 : s1.write8 b y = .next t) (hne : a ≠ b) (ha : s.siteOf a ≠ .mapped .io) (hb : s.siteOf b ≠ .mapped .io) :
    t.peek a = some x ∧ t.peek b = some y := by
  rw [← State.siteOf_congr (State.write8_storesOnly h1).device_eq b] at hb
  refine ⟨?_, State.peek_of_write8 h2 hb⟩
  rw [(State.write8_storesOnly h2).bytes a (by simpa using hne)]
  exact State.peek_of_write8 h1 ha

theorem State.isRam_iff {s : State} {addr : Word} : s.isRam addr = true ↔ s.siteOf addr = .mapped .ram := by
  simp [State.isRam]

theorem State.writable_of_isRam {s : State} {addr : Word} (h : s.isRam addr = true) : s.writable addr = true := by
  simp [State.writable, State.isRam_iff.1 h]

theorem State.site_ne_io_of_isRam {s : State} {addr : Word} (h : s.isRam addr = true) : s.siteOf addr ≠ .mapped .io := by
  simp [State.isRam_iff.1 h]

/-- Two writes one after the other complete where each would. -/
theorem State.write8_write8_of_writable {s : State} {a b : Word} (x y : Byte) (ha : s.writable a = true)
    (hb : s.writable b = true) : ∃ s1 t, s.write8 a x = .next s1 ∧ s1.write8 b y = .next t := by
  obtain ⟨s1, h1⟩ := State.writable_iff.1 ha
  rw [← State.writable_congr (State.write8_storesOnly h1).device_eq] at hb
  obtain ⟨t, h2⟩ := State.writable_iff.1 hb
  exact ⟨s1, t, h1, h2⟩

/-! ## Words in RAM -/

theorem word_ne_succ (w : Word) : w ≠ w + 1#16 := by
  bv_omega

/-- Settles O12: both writes complete, and leave both bytes at their addresses. -/
theorem storedWordReadsBack : Obligations.StoredWordReadsBack := by
  intro s addr w hhi hlo
  obtain ⟨s1, t, h1, h2⟩ := State.write8_write8_of_writable (hiByte w) (loByte w) (State.writable_of_isRam hhi)
    (State.writable_of_isRam hlo)
  have hstore : s.store16 none addr w = .next t :=
    State.store16_next.2 ⟨s1, State.store8_next.2 ⟨nofun, h1⟩, State.store8_next.2 ⟨nofun, h2⟩⟩
  obtain ⟨phi, plo⟩ := State.peek_of_write8_write8 h1 h2 (word_ne_succ addr) (State.site_ne_io_of_isRam hhi)
    (State.site_ne_io_of_isRam hlo)
  refine ⟨t, hstore, ?_, State.readAs_of_peek phi, State.readAs_of_peek plo⟩
  rw [State.read16_of_peek phi plo, joinBytes_hiByte_loByte]

/-! ## The stack -/

/-- A push is `Pushes` outside the prefetch window (R55, R310). -/
theorem State.push16_of_pushes {s t : State} {window : Option Word} {v : Word} (h : Pushes s v t)
    (hwindow : ∀ next, window = some next →
      inPrefetchWindow next (s.sp - 1#16) = false ∧ inPrefetchWindow next (s.sp - 2#16) = false) :
    s.push16 window v = .next t := by
  obtain ⟨s1, s2, h1, h2, rfl⟩ := h
  exact State.push16_next.2 ⟨s1, s2, State.store8_next.2 ⟨fun next hn => (hwindow next hn).1, h1⟩,
    State.store8_next.2 ⟨fun next hn => (hwindow next hn).2, h2⟩, rfl⟩

/-- A push completes where both bytes below SP can be written. -/
theorem State.exists_pushes {s : State} (v : Word) (hlo : s.writable (s.sp - 1#16) = true)
    (hhi : s.writable (s.sp - 2#16) = true) : ∃ t, Pushes s v t := by
  obtain ⟨s1, s2, h1, h2⟩ := State.write8_write8_of_writable (loByte v) (hiByte v) hlo hhi
  exact ⟨_, s1, s2, h1, h2, rfl⟩

theorem pushed_sp_succ (sp : Word) : sp - 2#16 + 1#16 = sp - 1#16 := by
  bv_omega

/-- A word pushed on a RAM stack stands at the new SP. -/
theorem Pushes.peek_sp {s t : State} {v : Word} (h : Pushes s v t) (hlo : s.isRam (s.sp - 1#16) = true)
    (hhi : s.isRam (s.sp - 2#16) = true) : t.peek t.sp = some (hiByte v) ∧ t.peek (t.sp + 1#16) = some (loByte v) := by
  obtain ⟨s1, s2, h1, h2, rfl⟩ := h
  obtain ⟨plo, phi⟩ := State.peek_of_write8_write8 h1 h2 (by bv_omega) (State.site_ne_io_of_isRam hlo)
    (State.site_ne_io_of_isRam hhi)
  refine ⟨phi, ?_⟩
  rw [pushed_sp_succ]
  exact plo

/-- A word that stands at SP is popped, and only SP changes (R56). -/
theorem State.pop16_of_peek {s : State} {v : Word} (hhi : s.peek s.sp = some (hiByte v))
    (hlo : s.peek (s.sp + 1#16) = some (loByte v)) : s.pop16 = .next (v, { s with sp := s.sp + 2#16 }) := by
  refine State.pop16_next.2 ⟨s, ?_, rfl⟩
  rw [State.read16_of_peek hhi hlo, joinBytes_hiByte_loByte]

/-- Settles O13: the pushed word stands at the new SP, and 2 more is the old one. -/
theorem pushThenPop : Obligations.PushThenPop := by
  intro s w hlo hhi
  obtain ⟨t, hpush⟩ := State.exists_pushes w (State.writable_of_isRam hlo) (State.writable_of_isRam hhi)
  have hsp : t.sp = s.sp - 2#16 := by
    obtain ⟨_, _, _, _, rfl⟩ := hpush
    rfl
  obtain ⟨phi, plo⟩ := hpush.peek_sp hlo hhi
  have hback : t.sp + 2#16 = s.sp := by rw [hsp, BitVec.sub_add_cancel]
  refine ⟨t, State.push16_of_pushes hpush nofun, hsp, phi, plo, ?_⟩
  rw [State.pop16_of_peek phi plo, hback]

/-! ## Word loads and stores -/

/-- The edges of a bank (R58). -/
theorem State.crossesBank_dir {s : State} {d : Byte} :
    s.crossesBank (.dir d) = true ↔ d = 0xFF#8 ∨ (d = 0x7F#8 ∧ s.ps.dp ≠ 0#3) := by
  simp [State.crossesBank]

/-- A word store whose operand is at no edge of a bank stores the two bytes in order. -/
theorem completesStoringWord_of_storeWord {i : Instr} {e : Ea} {v : Word} {s : State}
    (hexec : exec i s = storeWord e v i.length s) (hbank : s.crossesBank e = false) :
    CompletesStoringWord i s (s.addrOf e) v := by
  intro hhi hlo
  obtain ⟨s1, w1, h1⟩ := State.store8_of_storable (hiByte v) hhi
  rw [← State.storable_congr (State.write8_storesOnly w1).device_eq] at hlo
  obtain ⟨s2, w2, h2⟩ := State.store8_of_storable (loByte v) hlo
  have hstore : s.store16 (some (s.nextPc i.length)) (s.addrOf e) v = .next s2 := State.store16_next.2 ⟨s1, h1, h2⟩
  refine ⟨s1, s2, w1, w2, ?_⟩
  rw [hexec]
  exact storeWord_next.2 ⟨hbank, s2, hstore, State.advance_of_pc_eq (State.store16_storesOnly hstore).pc_eq _⟩

theorem storeWord_of_crossesBank {e : Ea} {v : Word} {len : Nat} {s : State} (h : s.crossesBank e = true) :
    storeWord e v len s = .refused .dirWordCrossesBank := by
  rw [storeWord, if_pos h]

/-- Settles O32: the five forms are one shape, and only the direct one has edges. -/
theorem wordStores : Obligations.WordStores := by
  intro s
  refine ⟨fun d => ?_, fun off => ?_, fun e => ?_, ?_, ?_⟩
  · split
    · next h => exact storeWord_of_crossesBank (State.crossesBank_dir.2 h)
    · next h => exact completesStoringWord_of_storeWord rfl (Bool.eq_false_iff.2 fun hc => h (State.crossesBank_dir.1 hc))
  all_goals exact completesStoringWord_of_storeWord rfl rfl

/-- A word load whose operand is at no edge of a bank reads the word and loads it. -/
theorem completesReadingWord_of_loadWord {i : Instr} {e : Ea} {len : Nat} {s : State}
    (hexec : exec i s = loadWord (.mem e) len s) (hbank : s.crossesBank e = false) :
    CompletesReadingWord i s (s.addrOf e) (wordLoaded len) := by
  intro hread
  obtain ⟨v, s1, h⟩ := State.read16_of_readable16 hread
  refine ⟨v, s1, h, ?_⟩
  rw [hexec]
  exact loadWord_next.2 ⟨v, s1, State.readWordAt_next.2 ⟨hbank, h⟩, rfl⟩

theorem loadWord_of_crossesBank {e : Ea} {len : Nat} {s : State} (h : s.crossesBank e = true) :
    loadWord (.mem e) len s = .refused .dirWordCrossesBank := by
  rw [loadWord, State.readWordSrc, State.readWordAt, if_pos h, Res.andThen_refused]

/-- Settles O33: the immediate is there without a read, the other forms are one shape, and only the direct one has edges. -/
theorem wordLoads : Obligations.WordLoads := by
  intro s
  refine ⟨fun d16 => rfl, fun d => ?_, fun off => ?_, fun e => ?_, ?_, ?_⟩
  · split
    · next h => exact loadWord_of_crossesBank (State.crossesBank_dir.2 h)
    · next h => exact completesReadingWord_of_loadWord rfl (Bool.eq_false_iff.2 fun hc => h (State.crossesBank_dir.1 hc))
  all_goals exact completesReadingWord_of_loadWord rfl rfl

end Sys2Proof.Machine
end

