-- ==== Sys2Proof/Proofs/ReadModifyWrite.lean ====
section
/-! The instructions that read a byte with the RMW mark, change it and write it back (R48, R141, R142, R174, R178). -/

namespace Sys2Proof.Machine

/-- A read with the RMW mark, and a store of `f` of the byte to the same address (R48). -/
theorem State.readModifyStore_completes {s : State} {addr next : Word} (f : Byte → Byte) (hread : s.readable addr = true)
    (hstore : s.storable next addr = true) :
    ∃ v s1 s2, s.readAs true addr = .next (v, s1) ∧ s1.write8 addr (f v) = .next s2 ∧
      s1.store8 (some next) addr (f v) = .next s2 ∧ s2.pc = s.pc := by
  obtain ⟨v, s1, hr⟩ := State.readAs_of_readable true hread
  have hst := State.readAs_storesOnly hr
  rw [← State.storable_congr hst.device_eq] at hstore
  obtain ⟨s2, hw, hs⟩ := State.store8_of_storable (f v) hstore
  exact ⟨v, s1, s2, hr, hw, hs, (hst.trans (State.write8_storesOnly hw)).pc_eq⟩

/-! ## One bit of a direct byte -/

theorem modifyByte_completes {e : Ea} (f : Byte → Byte) {len : Nat} {s : State} (hread : s.readable (s.addrOf e) = true)
    (hstore : s.storable (s.nextPc len) (s.addrOf e) = true) :
    ∃ v s1 s2, s.readAs true (s.addrOf e) = .next (v, s1) ∧ s1.write8 (s.addrOf e) (f v) = .next s2 ∧
      modifyByte e f len s = .next { s2 with pc := s.nextPc len } := by
  obtain ⟨v, s1, s2, hr, hw, hs, hpc⟩ := State.readModifyStore_completes f hread hstore
  exact ⟨v, s1, s2, hr, hw, modifyByte_next.2 ⟨v, s1, hr, s2, hs, State.advance_of_pc_eq hpc len⟩⟩

/-- The mask that SETB and CLRB use has bit `b` and no other. -/
theorem getLsbD_bitMask (b : BitVec 3) (k : Nat) : (1#8 <<< b.toNat).getLsbD k = decide (k = b.toNat) := by
  rw [← BitVec.twoPow_eq, BitVec.getLsbD_twoPow]
  have hb : b.toNat < 8 := b.isLt
  simp [hb, eq_comm]

/-- Settles O37: both are the same shape, and the byte written differs in the mask's bit. -/
theorem bitSetAndClear : Obligations.BitSetAndClear := by
  intro s d b hread hstore
  constructor
  · obtain ⟨v, s1, s2, hr, hw, hm⟩ := modifyByte_completes (fun v => v ||| (1#8 <<< b.toNat)) hread hstore
    refine ⟨v, s1, _, s2, hr, fun k hk => ?_, hw, hm⟩
    rw [BitVec.getLsbD_or, getLsbD_bitMask, Bool.or_comm]
  · obtain ⟨v, s1, s2, hr, hw, hm⟩ := modifyByte_completes (fun v => v &&& ~~~(1#8 <<< b.toNat)) hread hstore
    refine ⟨v, s1, _, s2, hr, fun k hk => ?_, hw, hm⟩
    rw [BitVec.getLsbD_and, BitVec.getLsbD_not, getLsbD_bitMask, Bool.and_comm]
    simp [hk]

/-! ## A register, one more or one less -/

theorem countByte_completes {r : BitVec 3} (f : Byte → Alu8) {s : State} (hread : s.readable (s.addrOf (.reg r)) = true)
    (hstore : s.storable (s.nextPc 1) (s.addrOf (.reg r)) = true) :
    ∃ v s1 s2, s.readAs true (s.addrOf (.reg r)) = .next (v, s1) ∧ s1.write8 (s.addrOf (.reg r)) (f v).r = .next s2 ∧
      countByte r f s = .next { flagsFreeH (f v).n (f v).z (f v).v s2.ps.c s2 with pc := s.nextPc 1 } := by
  obtain ⟨v, s1, s2, hr, hw, hs, hpc⟩ := State.readModifyStore_completes (fun v => (f v).r) hread hstore
  refine ⟨v, s1, s2, hr, hw, countByte_next.2 ⟨v, s1, hr, s2, hs, ?_⟩⟩
  rw [← State.nextPc_congr hpc]
  rfl

/-- The outputs of an increment but H and C: V is 1 exactly when 7F becomes 80 (R174). -/
theorem add8_one (v : Byte) : (add8 v 1#8 false).r = v + 1#8 ∧ (add8 v 1#8 false).n = (v + 1#8).msb ∧
    (add8 v 1#8 false).z = decide (v = 0xFF#8) ∧ (add8 v 1#8 false).v = decide (v = 0x7F#8) := by
  have hr : BitVec.ofNat 8 (v.toNat + 1) = v + 1#8 := by bv_omega
  have hz : v + 1#8 = 0#8 ↔ v = 0xFF#8 := by bv_omega
  have hv : v.toInt + 1 < -128 ∨ 127 < v.toInt + 1 ↔ v = 0x7F#8 := by
    rw [BitVec.toInt_eq_toNat_cond]
    bv_omega
  simp [add8, overflows8, hr, hz, ← hv]

/-- The outputs of a decrement but H and C: V is 1 exactly when 80 becomes 7F (R178). -/
theorem sub8_one (v : Byte) : (sub8 v 1#8 false).r = v - 1#8 ∧ (sub8 v 1#8 false).n = (v - 1#8).msb ∧
    (sub8 v 1#8 false).z = decide (v = 0x01#8) ∧ (sub8 v 1#8 false).v = decide (v = 0x80#8) := by
  have hr : BitVec.ofInt 8 ((v.toNat : Int) - 1) = v - 1#8 := by
    apply BitVec.eq_of_toNat_eq
    rw [BitVec.toNat_ofInt]
    bv_omega
  have hz : v - 1#8 = 0#8 ↔ v = 0x01#8 := by bv_omega
  have hv : v.toInt - 1 < -128 ∨ 127 < v.toInt - 1 ↔ v = 0x80#8 := by
    rw [BitVec.toInt_eq_toNat_cond]
    bv_omega
  simp [sub8, overflows8, hr, hz, ← hv]

/-- Settles O40: both are the same shape, with the outputs of the adder as the rules write them. -/
theorem countRegister : Obligations.CountRegister := by
  intro s r hread hstore
  constructor
  · obtain ⟨v, s1, s2, hr, hw, hc⟩ := countByte_completes (fun v => add8 v 1#8 false) hread hstore
    obtain ⟨er, en, ez, ev⟩ := add8_one v
    rw [en, ez, ev] at hc
    exact ⟨v, s1, s2, hr, er ▸ hw, hc⟩
  · obtain ⟨v, s1, s2, hr, hw, hc⟩ := countByte_completes (fun v => sub8 v 1#8 false) hread hstore
    obtain ⟨er, en, ez, ev⟩ := sub8_one v
    rw [en, ez, ev] at hc
    exact ⟨v, s1, s2, hr, er ▸ hw, hc⟩

end Sys2Proof.Machine
end

