-- ==== Sys2Proof/Proofs/StackInstructions.lean ====
section
/-! Calls, returns, pushes and pops as whole next states (R55, R56, R238 to R242, R245 to R248). -/

namespace Sys2Proof.Machine

/-! ## Calls -/

theorem execCall_of_pushes {e : Word} {s t : State} (h : Pushes s (s.pc + 3#16) t) :
    execCall e s = .next { t with pc := e } :=
  Res.andThen_eq_next.2 ⟨t, State.push16_of_pushes h nofun, rfl⟩

/-- The vector is read first, and the read moves neither SP nor PC (R238). -/
theorem execCallv_of_pushes {k : BitVec 3} {target : Word} {s s1 t : State}
    (hvector : s.read16 (callvVectorAddr k) = .next (target, s1)) (hpush : Pushes s1 (s.pc + 1#16) t) :
    execCallv k s = .next { t with pc := target } :=
  execCallv_next.2 ⟨target, s1, hvector, t, State.push16_of_pushes hpush nofun, rfl⟩

/-- Settles O50: the push completes from the state the vector's read left, where SP and the device are as before. -/
theorem calls : Obligations.Calls := by
  intro s
  refine ⟨fun e hlo hhi => ?_, fun k hvector hlo hhi => ?_, rfl⟩
  · obtain ⟨t, hpush⟩ := State.exists_pushes (s.pc + 3#16) hlo hhi
    exact ⟨t, hpush, execCall_of_pushes hpush⟩
  · obtain ⟨target, s1, hread⟩ := State.read16_of_readable16 hvector
    have hpush : ∃ t, Pushes s1 (s.pc + 1#16) t := by
      obtain ⟨_, _, rfl⟩ := State.read16_same hread
      exact State.exists_pushes _ hlo hhi
    obtain ⟨t, hpush⟩ := hpush
    exact ⟨target, s1, t, hread, hpush, execCallv_of_pushes hread hpush⟩

/-! ## Returns -/

/-- A pop completes where the word at SP can be read. -/
theorem State.pop16_of_read16 {s s1 : State} {v : Word} (h : s.read16 s.sp = .next (v, s1)) :
    s.pop16 = .next (v, { s1 with sp := s.sp + 2#16 }) :=
  State.pop16_next.2 ⟨s1, h, rfl⟩

theorem execRet_of_read16 {s s1 : State} {target : Word} (h : s.read16 s.sp = .next (target, s1)) :
    execRet s = .next { s1 with pc := target, sp := s.sp + 2#16 } :=
  Res.andThen_eq_next.2 ⟨_, State.pop16_of_read16 h, rfl⟩

theorem execReti_of_read16 {s s1 s2 : State} {w target : Word} (hps : s.read16 s.sp = .next (w, s1))
    (hpc : s1.read16 (s.sp + 2#16) = .next (target, s2)) :
    execReti s = .next { s2 with ps := Status.ofWord w, pc := target, sp := s.sp + 4#16,
                                 maskBefore := some ⟨s.ps.i, s.ps.il⟩ } :=
  execReti_next.2 ⟨_, returnFromInterrupt_next.2 ⟨w, s1, hps, target, s2, hpc, rfl⟩, rfl⟩

/-- Settles O51: the words at SP are read one after the other, and every word is a PS. -/
theorem returns : Obligations.Returns := by
  intro s
  refine ⟨fun hret => ?_, fun hps hpc => ?_⟩
  · obtain ⟨target, s1, h⟩ := State.read16_of_readable16 hret
    exact ⟨target, s1, h, execRet_of_read16 h⟩
  · obtain ⟨w, s1, h1⟩ := State.read16_of_readable16 hps
    rw [← (State.read16_same h1).readable16_eq] at hpc
    obtain ⟨target, s2, h2⟩ := State.read16_of_readable16 hpc
    refine ⟨Status.ofWord w, s1, target, s2, ?_, h2, execReti_of_read16 h1 h2⟩
    rw [Status.toWord_ofWord, h1]

/-! ## Pushes and pops -/

/-- A push by an instruction that goes on at `next_pc` (R245, R247). -/
theorem push16_advance_completes {s : State} (v : Word) {len : Nat} (hlo : s.storable (s.nextPc len) (s.sp - 1#16) = true)
    (hhi : s.storable (s.nextPc len) (s.sp - 2#16) = true) :
    ∃ t, Pushes s v t ∧ ((s.push16 (some (s.nextPc len)) v).andThen fun u => .next (u.advance len)) =
      .next { t with pc := s.nextPc len } := by
  obtain ⟨wlo, plo⟩ := State.storable_iff.1 hlo
  obtain ⟨whi, phi⟩ := State.storable_iff.1 hhi
  obtain ⟨t, hpush⟩ := State.exists_pushes v wlo whi
  have hpush16 : s.push16 (some (s.nextPc len)) v = .next t :=
    State.push16_of_pushes hpush fun next hn => Option.some.inj hn ▸ ⟨plo, phi⟩
  have hpc : t.pc = s.pc := by
    obtain ⟨u, hu, rfl⟩ := State.push16_storesOnly hpush16
    exact hu.pc_eq
  refine ⟨t, hpush, ?_⟩
  rw [hpush16, Res.andThen_next, State.advance_of_pc_eq hpc]

/-- Settles O52: A and IX are pushed and popped alike. -/
theorem pushesAndPops : Obligations.PushesAndPops := by
  intro s
  refine ⟨fun hlo hhi => ⟨push16_advance_completes s.a hlo hhi, push16_advance_completes s.ix hlo hhi⟩, fun hread => ?_⟩
  obtain ⟨v, s1, h⟩ := State.read16_of_readable16 hread
  have hnext : s1.nextPc 1 = s.nextPc 1 := State.nextPc_congr (State.read16_storesOnly h).pc_eq 1
  have hpop := State.pop16_of_read16 h
  refine ⟨v, s1, h, Res.andThen_eq_next.2 ⟨_, hpop, ?_⟩, Res.andThen_eq_next.2 ⟨_, hpop, ?_⟩⟩
  all_goals
    rw [← hnext]
    rfl

end Sys2Proof.Machine
end

