-- ==== Sys2Proof/Proofs/OpcodeMap.lean ====
section
/-! The op code map: which op codes have a row, and that what a row answers is encoded as the bytes it was read from (R70 to R77, R85,
R90). -/

namespace Sys2Proof

/-! ## The bits of an op code that select its row -/

@[simp] theorem upper_append_lower (op : Byte) : op.extractLsb' 3 5 ++ op.extractLsb' 0 3 = op :=
  BitVec.extractLsb'_append_extractLsb' (w := 5) (len := 3)

@[simp] theorem lower_append (f : BitVec 5) (n : BitVec 3) : BitVec.extractLsb' (n := 8) 0 3 (f ++ n) = n :=
  BitVec.extractLsb'_append_eq_right

/-- The eight op codes of a field form are its upper five bits with every number under them (R71). -/
theorem and_fieldMask_eq_iff {op : Byte} {f : BitVec 5} : op &&& 0xF8#8 = f ++ 0#3 ↔ ∃ n : BitVec 3, op = f ++ n := by
  have mask : 0xF8#8 = BitVec.allOnes 5 ++ 0#3 := rfl
  constructor
  · intro h
    have hf : op.extractLsb' 3 5 = f := by
      rwa [← upper_append_lower op, mask, BitVec.and_append, BitVec.and_allOnes, BitVec.and_zero,
        BitVec.append_left_inj] at h
    exact ⟨op.extractLsb' 0 3, by rw [← hf, upper_append_lower]⟩
  · rintro ⟨n, rfl⟩
    rw [mask, BitVec.and_append, BitVec.and_allOnes, BitVec.and_zero]

/-- Every mask keeps the upper five bits. -/
theorem mask_upperBits {r : OpRow} (hr : r ∈ opRows) : r.mask.extractLsb' 3 5 = BitVec.allOnes 5 := by
  have all : (opRows.all fun r => r.mask.extractLsb' 3 5 == BitVec.allOnes 5) = true := by decide
  exact eq_of_beq (List.all_eq_true.1 all r hr)

theorem pattern_upperBits {r : OpRow} (hr : r ∈ opRows) {op : Byte} (h : op &&& r.mask = r.pattern) :
    r.pattern.extractLsb' 3 5 = op.extractLsb' 3 5 := by
  rw [← h, BitVec.extractLsb'_and, mask_upperBits hr, BitVec.and_allOnes]

/-- Only rows with the op code's upper five bits have to be searched, which leaves at most eight. -/
theorem filter_rows_eq_filter_upperBits (op : Byte) :
    (opRows.filter fun r => op &&& r.mask == r.pattern) =
      (opRows.filter fun r => r.pattern.extractLsb' 3 5 == op.extractLsb' 3 5).filter fun r => op &&& r.mask == r.pattern := by
  rw [List.filter_filter]
  refine List.filter_congr fun r hr => ?_
  have upper := pattern_upperBits hr (op := op)
  simpa using upper

/-- In each group of eight op codes every one has its one row, only 44 has none (R77, R90). -/
theorem length_rows_of_append : ∀ (f : BitVec 5) (n : BitVec 3),
    ((opRows.filter fun r => r.pattern.extractLsb' 3 5 == f).filter fun r => (f ++ n) &&& r.mask == r.pattern).length =
      if f ++ n = 0x44#8 then 0 else 1 := by
  decide

/-- Settles O3: the op codes are counted group by group of eight. -/
theorem opcodeMapIsUnambiguous : Obligations.OpcodeMapIsUnambiguous := by
  intro op
  have count := length_rows_of_append (op.extractLsb' 3 5) (op.extractLsb' 0 3)
  rw [upper_append_lower] at count
  rw [filter_rows_eq_filter_upperBits, count]

theorem rowOf?_isSome (op : Byte) : (rowOf? op).isSome = decide (op ≠ 0x44#8) := by
  have count := opcodeMapIsUnambiguous op
  rw [Bool.eq_iff_iff, decide_eq_true_iff, rowOf?, List.find?_isSome, ← List.countP_pos_iff, List.countP_eq_length_filter, count]
  split <;> simp_all

/-- Settles O4: the tables are counted as they stand, and the bytes with a row are all but 44. -/
theorem opcodeMapCounts : Obligations.OpcodeMapCounts := by
  refine ⟨rfl, rfl, rfl, rfl, rfl, rfl, rfl, ?_⟩
  have allBut44 : ∀ n ∈ List.range 256, (rowOf? (BitVec.ofNat 8 n)).isSome = (n != 0x44) := by
    intro n hn
    have hlt := List.mem_range.1 hn
    rw [rowOf?_isSome, Bool.eq_iff_iff, decide_eq_true_iff, bne_iff_ne]
    bv_omega
  rw [List.filter_congr allBut44, ← List.nodup_range.erase_eq_filter, List.length_erase_of_mem (List.mem_range.2 (by decide)),
    List.length_range]

/-! ## What each row answers is encoded under the row's own op codes -/

/-- Whatever operand bytes follow the op code, the instruction made of them is encoded as these bytes. -/
def Layout.EncodesBack (op : Byte) : Layout → Prop
  | .one i => encode i = [op]
  | .two k => ∀ b, encode (k b) = [op, b]
  | .three k => ∀ b c, encode (k b c) = [op, b, c]

@[simp] theorem Layout.encodesBack_one {op : Byte} {i : Instr} : (Layout.one i).EncodesBack op ↔ encode i = [op] := Iff.rfl

@[simp] theorem Layout.encodesBack_two {op : Byte} {k : Byte → Instr} :
    (Layout.two k).EncodesBack op ↔ ∀ b, encode (k b) = [op, b] := Iff.rfl

@[simp] theorem Layout.encodesBack_three {op : Byte} {k : Byte → Byte → Instr} :
    (Layout.three k).EncodesBack op ↔ ∀ b c, encode (k b c) = [op, b, c] := Iff.rfl

/-- Every op code of the row encodes back, with the number in its low three bits (R71). -/
def OpRow.EncodesBack (r : OpRow) : Prop :=
  ∀ op, op &&& r.mask = r.pattern → (r.layout (op.extractLsb' 0 3)).EncodesBack op

@[simp] theorem opRow_encodesBack {op : Byte} {l : Layout} : (opRow op l).EncodesBack ↔ l.EncodesBack op := by
  have mask (x : Byte) : x &&& 0xFF#8 = x := BitVec.and_allOnes
  simp [OpRow.EncodesBack, opRow, mask]

@[simp] theorem fieldRow_encodesBack {f : BitVec 5} {l : BitVec 3 → Layout} :
    (fieldRow f l).EncodesBack ↔ ∀ n, (l n).EncodesBack (f ++ n) := by
  simp [OpRow.EncodesBack, fieldRow, and_fieldMask_eq_iff]

theorem transferRows1_encodesBack : ∀ r ∈ transferRows1, r.EncodesBack := by simp [transferRows1, encode]

theorem transferRows2_encodesBack : ∀ r ∈ transferRows2, r.EncodesBack := by simp [transferRows2, encode]

theorem operationRows1_encodesBack : ∀ r ∈ operationRows1, r.EncodesBack := by simp [operationRows1, encode]

theorem operationRows2_encodesBack : ∀ r ∈ operationRows2, r.EncodesBack := by simp [operationRows2, encode]

theorem operationRows3_encodesBack : ∀ r ∈ operationRows3, r.EncodesBack := by simp [operationRows3, encode]

theorem branchRows_encodesBack : ∀ r ∈ branchRows, r.EncodesBack := by simp [branchRows, encode]

theorem otherRows_encodesBack : ∀ r ∈ otherRows, r.EncodesBack := by simp [otherRows, encode]

theorem opRows_encodesBack : ∀ r ∈ opRows, r.EncodesBack := by
  simp only [opRows, transferRows, operationRows, List.forall_mem_append]
  exact ⟨⟨⟨⟨transferRows1_encodesBack, transferRows2_encodesBack⟩,
    ⟨operationRows1_encodesBack, operationRows2_encodesBack⟩, operationRows3_encodesBack⟩,
    branchRows_encodesBack⟩, otherRows_encodesBack⟩

/-- The op code without a row encodes back too: only 44 has none, and it is the reserved constructor's (R90). -/
theorem layoutOf_encodesBack (op : Byte) : (layoutOf op).EncodesBack op := by
  unfold layoutOf
  split
  · next r hr =>
    exact opRows_encodesBack r (List.mem_of_find?_eq_some hr) op (by simpa using List.find?_some hr)
  · next hnone =>
    have hop : op = 0x44#8 := by simpa [hnone] using rowOf?_isSome op
    rw [hop]
    rfl

/-! ## The decoder's answer -/

theorem eq_encode_append_of_decode {bytes rest : List Byte} {i : Instr} (hd : decode bytes = .ok (i, rest)) :
    bytes = encode i ++ rest := by
  unfold decode at hd
  split at hd
  · cases hd
  · next op operands =>
    have hl := layoutOf_encodesBack op
    split at hd
    · next h =>
      cases hd
      rw [h, Layout.encodesBack_one] at hl
      simp [hl]
    · next h =>
      cases hd
      rw [h, Layout.encodesBack_two] at hl
      simp [hl]
    · next h =>
      cases hd
      rw [h, Layout.encodesBack_three] at hl
      simp [hl]
    · cases hd

theorem Instr.wellFormed_eq_false_iff {i : Instr} : i.wellFormed = false ↔ i = .unassigned := by
  unfold Instr.wellFormed
  split <;> simp_all

/-! ## The statements -/

/-- Settles O1: the operand bytes of every constructor read back, the reserved one's too. -/
theorem decodeEncodeRoundTrip : Obligations.DecodeEncodeRoundTrip := fun i rest _ => decode_encode_append i rest

/-- Settles O2: the bytes the decoder took are the encoding, and the only constructor no row gives is encoded 44. -/
theorem decodedBytesAreTheEncoding : Obligations.DecodedBytesAreTheEncoding := by
  intro bytes rest i hd
  have hbytes := eq_encode_append_of_decode hd
  refine ⟨hbytes, fun hi => ?_⟩
  rw [hbytes, Instr.wellFormed_eq_false_iff.1 hi]
  rfl

/-- Settles O5: each word is the encoding of its instruction, which reads back. -/
theorem sampleWordsDecode : Obligations.SampleWordsDecode :=
  ⟨decode_encode_append (.movDirImm 0x78#8 0x0A#8) [],
   decode_encode_append (.movExtA 0x1280#16) [],
   decode_encode_append (.setb 0x90#8 5#3) [],
   decode_encode_append (.addcARi 3#3) [],
   decode_encode_append .subcwA [],
   decode_encode_append (.bbs 0x80#8 1#3 0xFD#8) [],
   decode_encode_append (.callv 7#3) [],
   decode_encode_append .pushwIx []⟩

/-- Settles O54: 44 is the reserved constructor's encoding, and its meaning refuses without looking at the state. -/
theorem reservedOpcodeIsRefused : Obligations.ReservedOpcodeIsRefused :=
  ⟨fun rest => decode_encode_append .unassigned rest, fun _ => rfl⟩

end Sys2Proof
end

