-- ==== Sys2Proof/Proofs/Transfers.lean ====
section
/-! The byte loads and stores, the moves and the exchanges as whole next states (R101 to R116, R121, R128 to R134, R136 to R140, R143 to
R148). -/

namespace Sys2Proof.Machine

/-! ## Byte stores -/

/-- A byte store completes where its address can be written outside the prefetch window (R310). -/
theorem completesStoring_of_storeByte {i : Instr} {e : Ea} {v : Byte} {s : State}
    (hexec : exec i s = storeByte e v i.length s) : CompletesStoring i s (s.addrOf e) v := by
  intro hstore
  obtain ⟨s1, hwrite, hs⟩ := State.store8_of_storable v hstore
  refine ⟨s1, hwrite, ?_⟩
  rw [hexec]
  exact storeByte_next.2 ⟨s1, hs, State.advance_of_pc_eq (State.write8_storesOnly hwrite).pc_eq _⟩

/-- Settles O30: the ten forms are one shape, each with its operand, its byte and its own length. -/
theorem byteStores : Obligations.ByteStores := by
  intro s
  refine ⟨fun d => ?_, fun off => ?_, fun e => ?_, ?_, fun r => ?_, fun d d8 => ?_, fun off d8 => ?_, fun d8 => ?_,
    fun r d8 => ?_, ?_⟩
  all_goals exact completesStoring_of_storeByte rfl

/-! ## Byte loads -/

/-- An instruction that reads one byte and then has its effect completes where the byte can be read. -/
theorem completesReading_of_read8 {i : Instr} {addr : Word} {effect : Byte → State → State} {s : State}
    (hexec : exec i s = (s.read8 addr).andThen fun r => .next (effect r.1 r.2)) : CompletesReading i s addr effect := by
  intro hread
  obtain ⟨v, s1, h⟩ := State.readable_iff.1 hread
  refine ⟨v, s1, h, ?_⟩
  rw [hexec, h, Res.andThen_next]

/-- A load from memory is a read and then the effect the rules write (R107 to R112). -/
theorem loadByte_mem (e : Ea) (len : Nat) (s : State) :
    loadByte (.mem e) len s = (s.read8 (s.addrOf e)).andThen fun r => .next (byteLoaded len r.1 r.2) := rfl

/-- Settles O31: the immediate is there without a read, and the other forms are one shape. -/
theorem byteLoads : Obligations.ByteLoads := by
  intro s
  refine ⟨fun d8 => rfl, fun d => ?_, fun off => ?_, fun e => ?_, ?_, ?_, fun r => ?_⟩
  all_goals exact completesReading_of_read8 (loadByte_mem _ _ s)

/-! ## Moves and exchanges of registers -/

/-- Settles O34: the meaning of each move is the rule's next state, in the order the obligation names them. -/
theorem registerMoves : Obligations.RegisterMoves := fun _ =>
  ⟨rfl, rfl, fun _ => rfl, rfl, rfl, rfl, rfl, fun _ => rfl, fun _ => rfl, rfl⟩

theorem execMovwAPs_next {s t : State} :
    execMovwAPs s = .next t ↔ { s with a := s.ps.toWord, pc := s.nextPc 1 } = t := by
  simp [execMovwAPs]

/-- Settles O35: every word is the PS word of the fields read from it, and a PS that went through A comes back field by field. -/
theorem statusMoves : Obligations.StatusMoves := by
  intro s
  refine ⟨rfl, ⟨Status.ofWord s.a, Status.toWord_ofWord s.a, rfl⟩, fun t hread => ?_⟩
  obtain rfl := execMovwAPs_next.1 hread
  exact ⟨_, rfl, Status.ofWord_toWord s.ps⟩

/-- Settles O36: the meaning of each exchange is the rule's next state, in the order the obligation names them. -/
theorem exchanges : Obligations.Exchanges := fun _ => ⟨rfl, rfl, rfl, rfl, rfl, rfl⟩

end Sys2Proof.Machine
end

