-- ==== Sys2Proof/Proofs/Adders.lean ====
section
/-! The adders as numbers (R150 to R153): the carry or borrow out, the half carry, and V as the rule of signs (D20). -/

namespace Sys2Proof.Machine

theorem toNat_decide (p : Prop) [Decidable p] : (decide p).toNat = if p then 1 else 0 := apply_ite Bool.toNat p true false

/-! ## The rule of signs, at every width -/

/-- A sum leaves the signed range exactly when the operands have one sign and the result the other (R28). -/
theorem sum_out_of_range_iff {w : Nat} {a b r : BitVec (w + 1)} {cin cout : Bool}
    (h : r.toNat + 2 ^ (w + 1) * cout.toNat = a.toNat + b.toNat + cin.toNat) :
    (a.toInt + b.toInt + cin.toNat < -(2 ^ w : Nat) ∨ (2 ^ w : Nat) ≤ a.toInt + b.toInt + cin.toNat) ↔
      (a.msb == b.msb && r.msb != a.msb) = true := by
  have la := a.isLt
  have lb := b.isLt
  have lr := r.isLt
  have lcin := cin.toNat_le
  simp only [Bool.and_eq_true, beq_iff_eq, bne_iff_ne, ne_eq, BitVec.msb_eq_decide, decide_eq_decide, Nat.add_sub_cancel,
    BitVec.toInt_eq_toNat_cond]
  rw [Nat.pow_succ'] at h la lb lr ⊢
  generalize 2 ^ w = P at *
  cases cout <;> simp only [Bool.toNat_false, Bool.toNat_true] at h <;> omega

/-- A difference leaves the signed range exactly when the operands have different signs and the result not the minuend's (R28). -/
theorem difference_out_of_range_iff {w : Nat} {a b r : BitVec (w + 1)} {bin bout : Bool}
    (h : r.toNat + b.toNat + bin.toNat = a.toNat + 2 ^ (w + 1) * bout.toNat) :
    (a.toInt - b.toInt - bin.toNat < -(2 ^ w : Nat) ∨ (2 ^ w : Nat) ≤ a.toInt - b.toInt - bin.toNat) ↔
      (a.msb != b.msb && r.msb != a.msb) = true := by
  have la := a.isLt
  have lb := b.isLt
  have lr := r.isLt
  have lcin := bin.toNat_le
  simp only [Bool.and_eq_true, bne_iff_ne, ne_eq, BitVec.msb_eq_decide, decide_eq_decide, Nat.add_sub_cancel,
    BitVec.toInt_eq_toNat_cond]
  rw [Nat.pow_succ'] at h la lb lr ⊢
  generalize 2 ^ w = P at *
  cases bout <;> simp only [Bool.toNat_false, Bool.toNat_true] at h <;> omega

/-! ## The byte adders -/

/-- `Add8` as numbers: C is the carry out of the byte (R150). -/
theorem add8_carry (a b : Byte) (cin : Bool) :
    (add8 a b cin).r.toNat + 256 * (add8 a b cin).c.toNat = a.toNat + b.toNat + cin.toNat := by
  have hcin := cin.toNat_le
  simp only [add8, BitVec.toNat_ofNat, toNat_decide]
  split <;> omega

/-- H of `Add8` is the carry out of the lower four bits, the carry in taken along (R150, D3). -/
theorem add8_half (a b : Byte) (cin : Bool) :
    (add8 a b cin).r.toNat % 16 + 16 * (add8 a b cin).h.toNat = a.toNat % 16 + b.toNat % 16 + cin.toNat := by
  have hcin := cin.toNat_le
  simp only [add8, BitVec.toNat_ofNat, toNat_decide]
  split <;> omega

theorem add8_r (a b : Byte) (cin : Bool) : (add8 a b cin).r = a + b + BitVec.ofNat 8 cin.toNat := by
  simp only [add8, BitVec.ofNat_add, BitVec.ofNat_toNat, BitVec.setWidth_eq]

theorem add8_v (a b : Byte) (cin : Bool) :
    (add8 a b cin).v = (a.msb == b.msb && (add8 a b cin).r.msb != a.msb) := by
  rw [Bool.eq_iff_iff, ← sum_out_of_range_iff (add8_carry a b cin)]
  simp only [add8, overflows8, Bool.or_eq_true, decide_eq_true_eq]
  omega

/-- `Sub8` as numbers: C is the borrow into the byte (R151). -/
theorem sub8_borrow (a b : Byte) (bin : Bool) :
    (sub8 a b bin).r.toNat + b.toNat + bin.toNat = a.toNat + 256 * (sub8 a b bin).c.toNat := by
  have hbin := bin.toNat_le
  simp only [sub8, BitVec.toNat_ofInt, toNat_decide]
  split <;> omega

/-- H of `Sub8` is the borrow into the lower four bits, the borrow in taken along (R151, D3). -/
theorem sub8_half (a b : Byte) (bin : Bool) :
    (sub8 a b bin).r.toNat % 16 + b.toNat % 16 + bin.toNat = a.toNat % 16 + 16 * (sub8 a b bin).h.toNat := by
  have hbin := bin.toNat_le
  simp only [sub8, BitVec.toNat_ofInt, toNat_decide]
  split <;> omega

theorem sub8_r (a b : Byte) (bin : Bool) : (sub8 a b bin).r = a - b - BitVec.ofNat 8 bin.toNat := by
  have h := sub8_borrow a b bin
  have hbin := bin.toNat_le
  bv_omega

theorem sub8_v (a b : Byte) (bin : Bool) :
    (sub8 a b bin).v = (a.msb != b.msb && (sub8 a b bin).r.msb != a.msb) := by
  rw [Bool.eq_iff_iff, ← difference_out_of_range_iff (sub8_borrow a b bin)]
  simp only [sub8, overflows8, Bool.or_eq_true, decide_eq_true_eq]
  omega

/-! ## The word adders -/

/-- `Add16` as numbers: C is the carry out of the word (R152). -/
theorem add16_carry (a b : Word) (cin : Bool) :
    (add16 a b cin).r.toNat + 65536 * (add16 a b cin).c.toNat = a.toNat + b.toNat + cin.toNat := by
  have hcin := cin.toNat_le
  simp only [add16, BitVec.toNat_ofNat, toNat_decide]
  split <;> omega

theorem add16_r (a b : Word) (cin : Bool) : (add16 a b cin).r = a + b + BitVec.ofNat 16 cin.toNat := by
  simp only [add16, BitVec.ofNat_add, BitVec.ofNat_toNat, BitVec.setWidth_eq]

theorem add16_v (a b : Word) (cin : Bool) :
    (add16 a b cin).v = (a.msb == b.msb && (add16 a b cin).r.msb != a.msb) := by
  rw [Bool.eq_iff_iff, ← sum_out_of_range_iff (add16_carry a b cin)]
  simp only [add16, overflows16, Bool.or_eq_true, decide_eq_true_eq]
  omega

/-- `Sub16` as numbers: C is the borrow into the word (R153). -/
theorem sub16_borrow (a b : Word) (bin : Bool) :
    (sub16 a b bin).r.toNat + b.toNat + bin.toNat = a.toNat + 65536 * (sub16 a b bin).c.toNat := by
  have hbin := bin.toNat_le
  simp only [sub16, BitVec.toNat_ofInt, toNat_decide]
  split <;> omega

theorem sub16_r (a b : Word) (bin : Bool) : (sub16 a b bin).r = a - b - BitVec.ofNat 16 bin.toNat := by
  have h := sub16_borrow a b bin
  have hbin := bin.toNat_le
  bv_omega

theorem sub16_v (a b : Word) (bin : Bool) :
    (sub16 a b bin).v = (a.msb != b.msb && (sub16 a b bin).r.msb != a.msb) := by
  rw [Bool.eq_iff_iff, ← difference_out_of_range_iff (sub16_borrow a b bin)]
  simp only [sub16, overflows16, Bool.or_eq_true, decide_eq_true_eq]
  omega

/-- Settles O27: N and Z are their definition, and the other outputs follow from the sums and differences as numbers. -/
theorem overflowIsTheSignRule : Obligations.OverflowIsTheSignRule :=
  ⟨fun a b cin => ⟨add8_r a b cin, add8_carry a b cin, add8_half a b cin, rfl, decide_eq_true_iff, add8_v a b cin,
      sub8_r a b cin, sub8_borrow a b cin, sub8_half a b cin, rfl, decide_eq_true_iff, sub8_v a b cin⟩,
    fun a b cin => ⟨add16_r a b cin, add16_carry a b cin, rfl, decide_eq_true_iff, add16_v a b cin,
      sub16_r a b cin, sub16_borrow a b cin, rfl, decide_eq_true_iff, sub16_v a b cin⟩⟩

end Sys2Proof.Machine
end

