-- ==== Sys2Proof/Proofs/Operations.lean ====
section
/-! The operation instructions as whole next states, but the decimal adjusts (R155, R160 to R173, R175 to R195, R198 to R221). -/

namespace Sys2Proof.Machine

/-! ## The five forms of a source -/

/-- A family whose meaning is to read its byte source and then have its effect, in the five forms of the source (R156): the
immediate is there without a read, and the others complete where their byte can be read. -/
theorem sourceForms_of_readByteSrc {reg : BitVec 3 → Instr} {imm dir ix : Byte → Instr} {ep : Instr} {s : State}
    {effect : Nat → Byte → State → State} {family : ByteSrc → Nat → State → Res State}
    (hfamily : ∀ src len, family src len s = (s.readByteSrc src).andThen fun r => .next (effect len r.1 r.2))
    (hreg : ∀ r, exec (reg r) s = family (.mem (.reg r)) 1 s) (himm : ∀ d8, exec (imm d8) s = family (.value d8) 2 s)
    (hdir : ∀ d, exec (dir d) s = family (.mem (.dir d)) 2 s) (hix : ∀ off, exec (ix off) s = family (.mem (.ix off)) 2 s)
    (hep : exec ep s = family (.mem .ep) 1 s) : SourceForms reg imm dir ix ep s effect := by
  refine ⟨fun r => ?_, fun d8 => ?_, fun d => ?_, fun off => ?_, ?_⟩
  · exact completesReading_of_read8 ((hreg r).trans (hfamily _ _))
  · exact (himm d8).trans (hfamily _ _)
  · exact completesReading_of_read8 ((hdir d).trans (hfamily _ _))
  · exact completesReading_of_read8 ((hix off).trans (hfamily _ _))
  · exact completesReading_of_read8 (hep.trans (hfamily _ _))

theorem arithByte_eq (f : Byte → Byte → Bool → Alu8) (src : ByteSrc) (len : Nat) (s : State) :
    arithByte f src len s =
      (s.readByteSrc src).andThen fun r => .next (byteResult len (f (loByte r.2.a) r.1 r.2.ps.c) r.2) := rfl

theorem logicByte_eq (f : Byte → Byte → Byte) (src : ByteSrc) (len : Nat) (s : State) :
    logicByte f src len s = (s.readByteSrc src).andThen fun r => .next (logicResult len (f (loByte r.2.a) r.1) r.2) := rfl

theorem compareAL_eq (src : ByteSrc) (len : Nat) (s : State) :
    compareAL src len s = (s.readByteSrc src).andThen fun r => .next (compared len (loByte r.2.a) r.1 r.2) := rfl

theorem compareMem_eq (e : Ea) (d8 : Byte) (len : Nat) (s : State) :
    compareMem e d8 len s = (s.read8 (s.addrOf e)).andThen fun r => .next (compared len r.1 d8 r.2) := rfl

/-- Settles O38: two families of the five forms, and the form with T, in which SUBC takes TL as the minuend. -/
theorem byteAddAndSubtract : Obligations.ByteAddAndSubtract := by
  intro s
  refine ⟨?_, rfl, ?_, rfl⟩
  · exact sourceForms_of_readByteSrc (fun src len => arithByte_eq add8 src len s) (fun _ => rfl) (fun _ => rfl)
      (fun _ => rfl) (fun _ => rfl) rfl
  · exact sourceForms_of_readByteSrc (fun src len => arithByte_eq sub8 src len s) (fun _ => rfl) (fun _ => rfl)
      (fun _ => rfl) (fun _ => rfl) rfl

/-- Settles O43: three families of the five forms, the forms with T, and the words. -/
theorem logic : Obligations.Logic := by
  intro s
  refine ⟨?_, rfl, ?_, rfl, ?_, rfl, rfl, rfl, rfl⟩
  · exact sourceForms_of_readByteSrc (fun src len => logicByte_eq (· &&& ·) src len s) (fun _ => rfl) (fun _ => rfl)
      (fun _ => rfl) (fun _ => rfl) rfl
  · exact sourceForms_of_readByteSrc (fun src len => logicByte_eq (· ||| ·) src len s) (fun _ => rfl) (fun _ => rfl)
      (fun _ => rfl) (fun _ => rfl) rfl
  · exact sourceForms_of_readByteSrc (fun src len => logicByte_eq (· ^^^ ·) src len s) (fun _ => rfl) (fun _ => rfl)
      (fun _ => rfl) (fun _ => rfl) rfl

/-- Settles O44: one family of the five forms, CMP A with T, and the four forms that compare a memory byte with an immediate. -/
theorem byteCompares : Obligations.ByteCompares := by
  intro s
  refine ⟨rfl, ?_, fun d d8 => ?_, fun d8 => ?_, fun off d8 => ?_, fun r d8 => ?_⟩
  · exact sourceForms_of_readByteSrc (fun src len => compareAL_eq src len s) (fun _ => rfl) (fun _ => rfl)
      (fun _ => rfl) (fun _ => rfl) rfl
  all_goals exact completesReading_of_read8 (compareMem_eq _ d8 _ s)

/-! ## Words -/

/-- Settles O39: the word adders' outputs, with T the minuend. -/
theorem wordAddSubtractCompare : Obligations.WordAddSubtractCompare := fun _ => ⟨rfl, rfl, rfl⟩

/-- INCW A and DECW A: N and Z of the counted word, V and C kept, H free (R177, R181). -/
theorem countA_eq (r : Word) (s : State) :
    countA r s = .next { flagsFreeH r.msb (decide (r = 0#16)) s.ps.v s.ps.c s with a := r, pc := s.nextPc 1 } := rfl

/-- Settles O41: a count of A gives 0 exactly from FFFF up and from 1 down. -/
theorem countWords : Obligations.CountWords := by
  intro s
  have hup : s.a + 1#16 = 0#16 ↔ s.a = 0xFFFF#16 := by bv_omega
  have hdown : s.a - 1#16 = 0#16 ↔ s.a = 1#16 := by bv_omega
  refine ⟨rfl, rfl, rfl, rfl, rfl, rfl, ?_, ?_⟩
  · exact (countA_eq (s.a + 1#16) s).trans (by simp only [hup])
  · exact (countA_eq (s.a - 1#16) s).trans (by simp only [hdown])

/-! ## Multiplication and division -/

/-- The product of two bytes fits a word (R182). -/
theorem toNat_byte_product (x y : Byte) : (BitVec.ofNat 16 (x.toNat * y.toNat)).toNat = x.toNat * y.toNat := by
  have hbound : x.toNat * y.toNat ≤ 255 * 255 := Nat.mul_le_mul (Nat.le_of_lt_succ x.isLt) (Nat.le_of_lt_succ y.isLt)
  rw [BitVec.toNat_ofNat]
  omega

theorem State.divide_of_ne_zero {s : State} (h : s.a ≠ 0#16) :
    s.divide = { s with a := s.t / s.a, t := s.t % s.a, ps := { s.ps with z := false } } := by
  rw [State.divide, if_neg h, ← BitVec.udiv_def, ← BitVec.umod_def]

theorem State.divide_of_zero {s : State} (h : s.a = 0#16) :
    s.divide = { s with a := Config.freeWord s.draws, t := Config.freeWord (s.draws + 1), draws := s.draws + 2,
                        ps := { s.ps with z := true } } := if_pos h

theorem exec_divu (s : State) : exec .divu s = .next (s.divide.freeH.advance 1) := rfl

/-- Settles O42: the product of two bytes fits a word, and quotient and remainder of words are words. -/
theorem multiplyAndDivide : Obligations.MultiplyAndDivide := by
  intro s
  refine ⟨⟨_, toNat_byte_product _ _, rfl⟩, fun hne => ⟨s.t / s.a, s.t % s.a, ?_, ?_, ?_⟩, fun hzero => ?_⟩
  · rw [BitVec.toNat_udiv, BitVec.toNat_umod, Nat.div_add_mod']
  · rw [BitVec.toNat_umod]
    exact Nat.mod_lt _ (Nat.pos_of_ne_zero fun h => hne (BitVec.eq_of_toNat_eq h))
  · rw [exec_divu, State.divide_of_ne_zero hne]
    rfl
  · refine ⟨Config.freeWord s.draws, Config.freeWord (s.draws + 1), _, exec_divu s, ?_⟩
    rw [State.divide_of_zero hzero]
    rfl

/-! ## Rotates -/

/-- Settles O45: as numbers the two bytes are C and AL's upper seven bits, and AL's lower seven bits and C. -/
theorem rotates : Obligations.Rotates := by
  intro s
  have hAl := (loByte s.a).isLt
  refine ⟨⟨BitVec.ofBool s.ps.c ++ (loByte s.a).extractLsb' 1 7, ?_, ?_⟩,
    ⟨(loByte s.a).extractLsb' 0 7 ++ BitVec.ofBool s.ps.c, ?_, ?_⟩⟩
  · rw [toNat_append_eq_add, BitVec.toNat_ofBool, BitVec.extractLsb'_toNat, Nat.shiftRight_eq_div_pow]
    omega
  · have hc : (loByte s.a).getLsbD 0 = decide ((loByte s.a).toNat % 2 = 1) := Nat.testBit_zero _
    rw [← hc]
    rfl
  · rw [toNat_append_eq_add, BitVec.toNat_ofBool, BitVec.extractLsb'_toNat, Nat.shiftRight_zero]
    omega
  · have hc : (loByte s.a).getLsbD 7 = decide (128 ≤ (loByte s.a).toNat) := BitVec.getLsbD_last _
    rw [← hc]
    rfl

/-! ## A compare and the branch after it -/

theorem sub8_c_eq_lower (x y : Byte) : (sub8 x y false).c = decide (x.toNat < y.toNat) := rfl

theorem sub8_z_eq_equal (x y : Byte) : (sub8 x y false).z = decide (x = y) := by
  have hr : (sub8 x y false).r = 0#8 ↔ x = y := by
    rw [sub8_r]
    bv_omega
  exact decide_eq_decide.2 hr

/-- N is the sign of the signed difference, but when it overflows, and then V is 1: the two differ exactly for "less" (R232). -/
theorem sub8_v_xor_n_eq_less (x y : Byte) : ((sub8 x y false).v ^^ (sub8 x y false).n) = decide (x.toInt < y.toInt) := by
  have hv : (sub8 x y false).v = overflows8 (x.toInt - y.toInt) := by simp [sub8]
  have hn : (sub8 x y false).n = decide (128 ≤ (sub8 x y false).r.toNat) := BitVec.msb_eq_decide (sub8 x y false).r
  have hr := sub8_borrow x y false
  have hc := (sub8 x y false).c.toNat_le
  have hx := BitVec.toInt_eq_toNat_cond x
  have hy := BitVec.toInt_eq_toNat_cond y
  rw [Bool.eq_iff_iff, Bool.xor_iff_ne, ne_eq, Bool.eq_iff_iff, hv, hn]
  simp only [overflows8, Bool.or_eq_true, decide_eq_true_eq, Bool.toNat_false] at hr ⊢
  omega

/-- A branch on a flag that decides `p` is taken exactly when `p` holds. -/
theorem branchIf_of_eq_decide {taken : Bool} {p : Prop} [Decidable p] (h : taken = decide p) (rel : Byte) (s : State) :
    branchIf taken rel s = .next { s with pc := if p then s.relTarget 2 rel else s.nextPc 2 } := by
  simp only [branchIf, h, decide_eq_true_eq]

/-- Settles O28: each branch tests the flag, or the two flags, by which the compare orders its operands. -/
theorem compareThenBranchOrders : Obligations.CompareThenBranchOrders := by
  intro s d8 rel
  refine ⟨compared 2 (loByte s.a) d8 s, rfl, ?_, ?_, ?_⟩
  · exact branchIf_of_eq_decide (sub8_c_eq_lower (loByte s.a) d8) rel _
  · exact branchIf_of_eq_decide (sub8_z_eq_equal (loByte s.a) d8) rel _
  · exact branchIf_of_eq_decide (sub8_v_xor_n_eq_less (loByte s.a) d8) rel _

end Sys2Proof.Machine
end

