-- ==== Sys2Proof/Proofs/DecimalArithmetic.lean ====
section
/-! Tables 6-12 and 6-14, and decimal addition and subtraction with them (R196, R197). -/

namespace Sys2Proof.Machine

/-! ## Table 6-12 as a function -/

theorem DaaRow.covers_iff {row : DaaRow} {c h : Bool} {al : Byte} :
    row.covers c h al = true ↔ row.c = c ∧ row.hiMin ≤ al.toNat / 16 ∧ al.toNat / 16 ≤ row.hiMax ∧
      row.h = h ∧ row.loMin ≤ al.toNat % 16 ∧ al.toNat % 16 ≤ row.loMax := by
  simp only [DaaRow.covers, Bool.and_eq_true, beq_iff_eq, decide_eq_true_eq]
  tauto

/-- Two rows differ in a flag they are for, or their ranges of a digit do not meet. -/
def DaaRow.apart (p q : DaaRow) : Bool :=
  p.c != q.c || p.h != q.h || decide (p.hiMax < q.hiMin) || decide (q.hiMax < p.hiMin)
    || decide (p.loMax < q.loMin) || decide (q.loMax < p.loMin)

theorem DaaRow.apart_of_covers {p q : DaaRow} {c h : Bool} {al : Byte} (hp : p.covers c h al = true)
    (hq : q.covers c h al = true) : p.apart q = false := by
  obtain ⟨rfl, _, _, rfl, _, _⟩ := DaaRow.covers_iff.1 hp
  obtain ⟨hc, _, _, hh, _, _⟩ := DaaRow.covers_iff.1 hq
  simp only [DaaRow.apart, hc, hh, bne_self_eq_false, Bool.or_self, Bool.false_or, Bool.or_eq_false_iff,
    decide_eq_false_iff_not, not_lt]
  omega

theorem daaTable_apart : daaTable.all (fun p => daaTable.all fun q => p == q || p.apart q) = true := by decide

theorem mem_and_covers_of_daaRow? {row : DaaRow} {c h : Bool} {al : Byte} (hfind : daaRow? c h al = some row) :
    row ∈ daaTable ∧ row.covers c h al = true :=
  ⟨List.mem_of_find?_eq_some hfind, List.find?_some (p := fun row : DaaRow => row.covers c h al) hfind⟩

/-- No two rows of the table cover the same inputs: the row that covers them is the one DAA takes. -/
theorem daaRow?_of_covers {row : DaaRow} {c h : Bool} {al : Byte} (hrow : row ∈ daaTable)
    (hcov : row.covers c h al = true) : daaRow? c h al = some row := by
  cases hfind : daaRow? c h al with
  | none => exact absurd hcov (List.find?_eq_none.1 hfind row hrow)
  | some found =>
    obtain ⟨hmem, hfound⟩ := mem_and_covers_of_daaRow? hfind
    have h1 := List.all_eq_true.1 (List.all_eq_true.1 daaTable_apart found hmem) row hrow
    rw [DaaRow.apart_of_covers hfound hcov, Bool.or_false, beq_iff_eq] at h1
    rw [h1]

/-- The inputs outside Table 6-12: H with a lower digit above 3, or C with an upper digit above what its rows cover (R196, D4). -/
theorem daaRow?_eq_none_iff {c h : Bool} {al : Byte} :
    daaRow? c h al = none ↔
      h = true ∧ 4 ≤ al.toNat % 16 ∨ c = true ∧ h = false ∧ 3 ≤ al.toNat / 16 ∨
        c = true ∧ h = true ∧ 4 ≤ al.toNat / 16 := by
  have hal := al.isLt
  simp only [daaRow?, List.find?_eq_none]
  cases c <;> cases h <;> simp [daaTable, DaaRow.covers_iff] <;> omega

/-! ## The decimal adjusts as whole next states -/

theorem exec_daa (s : State) : exec .daa s = .next (s.decimalAdjustAdd.advance 1) := rfl

/-- DAA with a row of the table: the row's correction is added, and C is the row's (R196). -/
theorem exec_daa_of_row {s : State} {row : DaaRow} (hrow : row ∈ daaTable)
    (hcov : row.covers s.ps.c s.ps.h (loByte s.a) = true) :
    exec .daa s = .next { s with
      a := hiByte s.a ++ (add8 (loByte s.a) row.corr false).r, pc := s.nextPc 1,
      ps := { s.ps with
        n := (add8 (loByte s.a) row.corr false).n, z := (add8 (loByte s.a) row.corr false).z,
        v := (add8 (loByte s.a) row.corr false).v, c := row.cAfter } } := by
  rw [exec_daa, State.decimalAdjustAdd, daaRow?_of_covers hrow hcov]
  rfl

/-- DAA outside the table: AL and N, Z, V, C are drawn (R196, D4). -/
theorem exec_daa_of_no_row {s : State} (h : daaRow? s.ps.c s.ps.h (loByte s.a) = none) :
    exec .daa s = .next { s with
      a := hiByte s.a ++ Config.freeByte s.draws, pc := s.nextPc 1, draws := s.draws + 5,
      ps := { s.ps with
        n := Config.freeBit (s.draws + 1), z := Config.freeBit (s.draws + 2), v := Config.freeBit (s.draws + 3),
        c := Config.freeBit (s.draws + 4) } } := by
  rw [exec_daa, State.decimalAdjustAdd, h]
  rfl

/-- DAS: the correction is subtracted, and C stays (R197). -/
theorem exec_das (s : State) :
    exec .das s = .next { s with
      a := hiByte s.a ++ (sub8 (loByte s.a) (dasCorrection s.ps.c s.ps.h) false).r, pc := s.nextPc 1,
      ps := { s.ps with
        n := (sub8 (loByte s.a) (dasCorrection s.ps.c s.ps.h) false).n,
        z := (sub8 (loByte s.a) (dasCorrection s.ps.c s.ps.h) false).z,
        v := (sub8 (loByte s.a) (dasCorrection s.ps.c s.ps.h) false).v } } := rfl

/-- Table 6-14: C corrects the upper digit, H the lower (R197). -/
theorem dasCorrection_eq_add (c h : Bool) :
    dasCorrection c h = (if c then 0x60#8 else 0x00#8) + (if h then 0x06#8 else 0x00#8) := by
  cases c <;> cases h <;> rfl

/-- Settles O46: the nine cases are the rows of the table, and the others are where it has none. -/
theorem decimalAdjusts : Obligations.DecimalAdjusts := by
  intro s
  refine ⟨?_, ?_, ?_⟩
  · rintro hi lo corr after rfl rfl hcase
    have hhi : (loByte s.a).toNat / 16 ≤ 15 := by omega
    have hlo : (loByte s.a).toNat % 16 ≤ 15 := by omega
    obtain ⟨row, hrow, hcov, rfl, rfl⟩ : ∃ row ∈ daaTable,
        row.covers s.ps.c s.ps.h (loByte s.a) = true ∧ corr = row.corr ∧ after = row.cAfter := by
      simpa [daaTable, DaaRow.covers_iff, and_assoc, hhi, hlo] using hcase
    exact ⟨_, rfl, exec_daa_of_row hrow hcov⟩
  · rintro hi lo rfl rfl hcase
    exact ⟨Config.freeByte s.draws, _, exec_daa_of_no_row (daaRow?_eq_none_iff.2 hcase), rfl⟩
  · exact ⟨_, rfl, dasCorrection_eq_add s.ps.c s.ps.h ▸ exec_das s⟩

/-! ## Decimal addition and subtraction -/

theorem isBcd_iff {x : Byte} : isBcd x = true ↔ x.toNat / 16 ≤ 9 ∧ x.toNat % 16 ≤ 9 := by
  simp [isBcd]

theorem bcdValue_lt {x : Byte} (hx : isBcd x = true) : bcdValue x < 100 := by
  obtain ⟨hhi, hlo⟩ := isBcd_iff.1 hx
  rw [bcdValue]
  omega

@[simp] theorem loByte_byteResult_a (len : Nat) (o : Alu8) (s : State) : loByte (byteResult len o s).a = o.r := loByte_append _ _
@[simp] theorem byteResult_ps_h (len : Nat) (o : Alu8) (s : State) : (byteResult len o s).ps.h = o.h := rfl
@[simp] theorem byteResult_ps_c (len : Nat) (o : Alu8) (s : State) : (byteResult len o s).ps.c = o.c := rfl

/-- The result of `Add8` without a carry in (R150). -/
theorem toNat_add8_r (a b : Byte) : (add8 a b false).r.toNat = (a.toNat + b.toNat) % 256 := by
  simp [add8_r]

/-- The result of `Sub8` where nothing is borrowed (R151). -/
theorem toNat_sub8_r {a b : Byte} (h : b.toNat ≤ a.toNat) : (sub8 a b false).r.toNat = a.toNat - b.toNat := by
  simpa [sub8_r] using BitVec.toNat_sub_of_le h

/-- Table 6-12 as a rule on numbers: 06 where the lower digit went past 9, and 60 with C where the whole byte went past 99. -/
theorem DaaRow.correction_of_covers {row : DaaRow} {c h : Bool} {al : Byte} (hrow : row ∈ daaTable)
    (hcov : row.covers c h al = true) :
    row.corr.toNat = (if h.toNat = 1 ∨ 10 ≤ al.toNat % 16 then 0x06 else 0x00) + 0x60 * row.cAfter.toNat ∧
      (row.cAfter.toNat = 1 ↔ c.toNat = 1 ∨ 0x9A ≤ al.toNat) := by
  obtain ⟨rfl, _, _, rfl, _, _⟩ := DaaRow.covers_iff.1 hcov
  simp only [daaTable, List.mem_cons, List.not_mem_nil, or_false] at hrow
  rcases hrow with rfl | rfl | rfl | rfl | rfl | rfl | rfl | rfl | rfl
  all_goals simp at * <;> omega

/-- The sum of two decimal bytes is inside Table 6-12. -/
theorem exists_daaRow_of_bcd_sum {x y : Byte} (cin : Bool) (hx : isBcd x = true) (hy : isBcd y = true) :
    ∃ row ∈ daaTable, row.covers (add8 x y cin).c (add8 x y cin).h (add8 x y cin).r = true := by
  have hcin := cin.toNat_le
  have hsum := add8_carry x y cin
  have hhalf := add8_half x y cin
  rw [isBcd_iff] at hx hy
  have hsome : daaRow? (add8 x y cin).c (add8 x y cin).h (add8 x y cin).r ≠ none := by
    rw [ne_eq, daaRow?_eq_none_iff]
    simp only [← Bool.toNat_eq_one, ← Bool.toNat_eq_zero]
    omega
  obtain ⟨row, hfind⟩ := Option.ne_none_iff_exists'.1 hsome
  exact ⟨row, mem_and_covers_of_daaRow? hfind⟩

/-- The sum of two decimal bytes, corrected by its row of Table 6-12, is the two digits of the decimal sum, and the row's C is the
decimal carry. -/
theorem bcd_sum {x y : Byte} {cin : Bool} {row : DaaRow} (hx : isBcd x = true) (hy : isBcd y = true) (hrow : row ∈ daaTable)
    (hcov : row.covers (add8 x y cin).c (add8 x y cin).h (add8 x y cin).r = true) :
    isBcd (add8 (add8 x y cin).r row.corr false).r = true ∧
      bcdValue (add8 (add8 x y cin).r row.corr false).r + 100 * row.cAfter.toNat =
        bcdValue x + bcdValue y + cin.toNat := by
  have hcin := cin.toNat_le
  have hafter := row.cAfter.toNat_le
  have hsum := add8_carry x y cin
  have hhalf := add8_half x y cin
  obtain ⟨hcorr, hcarry⟩ := DaaRow.correction_of_covers hrow hcov
  rw [isBcd_iff] at hx hy
  simp only [isBcd_iff, bcdValue, toNat_add8_r]
  split at hcorr <;> omega

/-- Table 6-14 as a number. -/
theorem toNat_dasCorrection (c h : Bool) : (dasCorrection c h).toNat = 0x60 * c.toNat + 0x06 * h.toNat := by
  cases c <;> cases h <;> rfl

/-- The difference of two decimal bytes, corrected by Table 6-14, is the two digits of the decimal difference, and C is the decimal
borrow: each digit that borrowed came out 6 too large. -/
theorem bcd_difference {x y : Byte} (bin : Bool) (hx : isBcd x = true) (hy : isBcd y = true) {p : Byte}
    (hp : p = (sub8 (sub8 x y bin).r (dasCorrection (sub8 x y bin).c (sub8 x y bin).h) false).r) :
    isBcd p = true ∧ bcdValue p + bcdValue y + bin.toNat = bcdValue x + 100 * (sub8 x y bin).c.toNat := by
  have hbin := bin.toNat_le
  have hdiff := sub8_borrow x y bin
  have hhalf := sub8_half x y bin
  generalize (sub8 x y bin).r = r, (sub8 x y bin).c = c, (sub8 x y bin).h = h at *
  have hc := c.toNat_le
  have hh := h.toNat_le
  rw [isBcd_iff] at hx hy
  have hlo : 6 * h.toNat ≤ r.toNat % 16 := by omega
  have hhi : 6 * c.toNat ≤ r.toNat / 16 := by omega
  have hcorr := toNat_dasCorrection c h
  have hvalue : p.toNat = r.toNat - (dasCorrection c h).toNat := hp ▸ toNat_sub8_r (by omega)
  have hdigits : p.toNat % 16 = r.toNat % 16 - 6 * h.toNat ∧ p.toNat / 16 = r.toNat / 16 - 6 * c.toNat := by omega
  simp only [isBcd_iff, bcdValue]
  omega

/-- Two digits and a carry are a number below 200. -/
theorem digits_and_carry {v n : Nat} {c : Bool} (hv : v < 100) (h : v + 100 * c.toNat = n) :
    v = n % 100 ∧ c = decide (100 ≤ n) := by
  have hc := c.toNat_le
  rw [bool_eq_iff_toNat_eq, toNat_decide]
  split <;> omega

/-- Two digits less a borrow are a difference. -/
theorem digits_and_borrow {v m n : Nat} {b : Bool} (hv : v < 100) (hn : n ≤ 100) (hm : m < 100)
    (h : v + n = m + 100 * b.toNat) : v = (m + 100 - n) % 100 ∧ b = decide (m < n) := by
  have hb := b.toNat_le
  rw [bool_eq_iff_toNat_eq, toNat_decide]
  split <;> omega

/-- Settles O29: C and H of the binary operation tell DAA and DAS which digits went past 9. -/
theorem decimalArithmeticIsCorrect : Obligations.DecimalArithmeticIsCorrect := by
  intro s y hx hy
  constructor
  · obtain ⟨row, hrow, hcov⟩ := exists_daaRow_of_bcd_sum s.ps.c hx hy
    obtain ⟨hbcd, hsum⟩ := bcd_sum hx hy hrow hcov
    obtain ⟨hvalue, hcarry⟩ := digits_and_carry (bcdValue_lt hbcd) hsum
    refine ⟨byteResult 2 (add8 (loByte s.a) y s.ps.c) s, _, rfl, exec_daa_of_row hrow ?_, ?_, ?_, hcarry⟩
    · simpa using hcov
    · simpa using hbcd
    · simpa using hvalue
  · obtain ⟨hbcd, hdiff⟩ := bcd_difference s.ps.c hx hy rfl
    have hyc : bcdValue y + s.ps.c.toNat ≤ 100 := by
      have := bcdValue_lt hy
      have := s.ps.c.toNat_le
      omega
    obtain ⟨hvalue, hborrow⟩ := digits_and_borrow (bcdValue_lt hbcd) hyc (bcdValue_lt hx) (by rw [← hdiff, Nat.add_assoc])
    refine ⟨byteResult 2 (sub8 (loByte s.a) y s.ps.c) s, _, rfl, exec_das _, ?_, ?_, hborrow⟩
    · simpa using hbcd
    · simpa [Nat.sub_sub] using hvalue

end Sys2Proof.Machine
end

