-- ==== Sys2Proof/Proofs/Branches.lean ====
section
/-! The conditional branches, the branches on one bit of a direct byte, and the jumps as whole next states (R225 to R237). -/

namespace Sys2Proof.Machine

/-- BLT and BGE test whether V and N differ (R232, R233). -/
theorem xor_eq_decide_ne (v n : Bool) : (v ^^ n) = decide (v ≠ n) := by
  rw [Bool.eq_iff_iff, Bool.xor_iff_ne, decide_eq_true_iff]

theorem not_xor_eq_decide_eq (v n : Bool) : (!(v ^^ n)) = decide (v = n) := by
  simp [xor_eq_decide_ne]

/-- Settles O47: each branch is taken on a Bool that decides its rule's condition on the flags. -/
theorem conditionalBranches : Obligations.ConditionalBranches := by
  intro s rel
  have flagSet (b : Bool) : b = decide (b = true) := Bool.decide_eq_true.symm
  have flagClear (b : Bool) : (!b) = decide (b = false) := Bool.decide_eq_false.symm
  exact ⟨branchIf_of_eq_decide (flagSet s.ps.z) rel s, branchIf_of_eq_decide (flagClear s.ps.z) rel s,
    branchIf_of_eq_decide (flagSet s.ps.c) rel s, branchIf_of_eq_decide (flagClear s.ps.c) rel s,
    branchIf_of_eq_decide (flagSet s.ps.n) rel s, branchIf_of_eq_decide (flagClear s.ps.n) rel s,
    branchIf_of_eq_decide (xor_eq_decide_ne s.ps.v s.ps.n) rel s,
    branchIf_of_eq_decide (not_xor_eq_decide_eq s.ps.v s.ps.n) rel s⟩

/-- The read of the byte leaves PC, so the target counts from the instruction's own PC (R225, R234, R235). -/
theorem completesReading_of_branchOnBit {i : Instr} {want : Bool} {d : Byte} {b : BitVec 3} {rel : Byte} {s : State}
    (hexec : exec i s = branchOnBit want d b rel s) :
    CompletesReading i s (s.addrOf (.dir d)) (fun v u =>
      { u with ps := { u.ps with z := !v.getLsbD b.toNat },
               pc := if v.getLsbD b.toNat = want then s.relTarget 3 rel else s.nextPc 3 }) := by
  intro hread
  obtain ⟨v, s1, h⟩ := State.readable_iff.1 hread
  have hnext : s1.nextPc 3 = s.nextPc 3 := State.nextPc_congr (State.read8_storesOnly h).pc_eq 3
  refine ⟨v, s1, h, ?_⟩
  rw [hexec]
  refine branchOnBit_next.2 ⟨v, s1, h, ?_⟩
  simp only [State.relTarget, hnext, beq_iff_eq]

/-- Settles O48: BBC and BBS are one shape, each with the bit it wants. -/
theorem bitBranches : Obligations.BitBranches := fun _ _ _ _ =>
  ⟨completesReading_of_branchOnBit rfl, completesReading_of_branchOnBit rfl⟩

/-- Settles O49: the encodings and the next states are read off the definitions, for every A and every ext. -/
theorem jumpsGoToTheirTarget : Obligations.JumpsGoToTheirTarget := fun _ _ => ⟨rfl, rfl, rfl, rfl⟩

end Sys2Proof.Machine
end

