-- ==== Sys2Proof/Proofs/CallsAndInterruptFrames.lean ====
section
/-! A call and an interrupt entry on a RAM stack, and the returns that undo them (R239, R241, R242, R264, R266, R268, R273). -/

namespace Sys2Proof.Machine

/-! ## A call and its return -/

/-- Settles O59: the pushed address stands at SP, and RET takes it from there. -/
theorem callThenReturn : Obligations.CallThenReturn := by
  intro s e hlo hhi
  obtain ⟨t, hpush, hsp, phi, plo, -⟩ := pushThenPop s (s.pc + 3#16) hlo hhi
  have hback : t.sp + 2#16 = s.sp := by rw [hsp, BitVec.sub_add_cancel]
  have hread : State.read16 { t with pc := e } t.sp = .next (s.pc + 3#16, { t with pc := e }) := by
    rw [← joinBytes_hiByte_loByte (s.pc + 3#16)]
    exact State.read16_of_peek phi plo
  refine ⟨{ t with pc := e }, Res.andThen_eq_next.2 ⟨t, hpush, rfl⟩, rfl, hsp, ?_⟩
  rw [← hback]
  exact execRet_of_read16 hread

/-! ## Pushes on a RAM stack -/

theorem State.isRam_congr {s t : State} (h : t.device = s.device) (addr : Word) : t.isRam addr = s.isRam addr := by
  rw [State.isRam, State.siteOf_congr h, State.isRam]

/-- A RAM byte is written in memory and nowhere else (R41). -/
theorem State.write8_of_isRam {s t : State} {addr : Word} {v : Byte} (h : s.write8 addr v = .next t)
    (hram : s.isRam addr = true) : t = { s with mem := s.mem.write addr.toNat v } := by
  rw [State.write8, State.isRam_iff.1 hram] at h
  cases h
  rfl

/-- A push outside any prefetch window is `Pushes` (R55, R310). -/
theorem State.pushes_of_push16 {s t : State} {v : Word} (h : s.push16 none v = .next t) : Pushes s v t := by
  obtain ⟨s1, s2, h1, h2, rfl⟩ := State.push16_next.1 h
  exact ⟨s1, s2, (State.store8_next.1 h1).2, (State.store8_next.1 h2).2, rfl⟩

/-- A push on a RAM stack changes memory and SP. -/
theorem Pushes.same_of_isRam {s t : State} {v : Word} (h : Pushes s v t) (hlo : s.isRam (s.sp - 1#16) = true)
    (hhi : s.isRam (s.sp - 2#16) = true) : ∃ mem, t = { s with mem := mem, sp := s.sp - 2#16 } := by
  obtain ⟨s1, s2, h1, h2, rfl⟩ := h
  obtain rfl := State.write8_of_isRam h1 hlo
  obtain rfl := State.write8_of_isRam h2 hhi
  exact ⟨_, rfl⟩

/-- A push leaves every byte but the two below SP. -/
theorem Pushes.peek_other {s t : State} {v addr : Word} (h : Pushes s v t) (hlo : addr ≠ s.sp - 1#16)
    (hhi : addr ≠ s.sp - 2#16) : t.peek addr = s.peek addr := by
  obtain ⟨u, hu, rfl⟩ := State.push16_storesOnly (State.push16_of_pushes (window := none) h nofun)
  exact hu.bytes addr (by simp [hlo, hhi])

/-- Between `s` and `t` a frame was pushed: the word `v`, and below it the word `w`, at which SP points; every other byte is as before. -/
structure State.PushedFrame (s t : State) (v w : Word) : Prop where
  sp : t.sp = s.sp - 4#16
  second : t.peek t.sp = some (hiByte w) ∧ t.peek (t.sp + 1#16) = some (loByte w)
  first : t.peek (t.sp + 2#16) = some (hiByte v) ∧ t.peek (t.sp + 3#16) = some (loByte v)
  other : ∀ addr : Word, addr ≠ s.sp - 1#16 → addr ≠ s.sp - 2#16 → addr ≠ s.sp - 3#16 → addr ≠ s.sp - 4#16 →
    t.peek addr = s.peek addr

/-- Two words pushed one after the other on a RAM stack are a frame, and nothing but memory and SP changed. -/
theorem Pushes.pushedFrame {s s1 t : State} {v w : Word} (h1 : Pushes s v s1) (h2 : Pushes s1 w t)
    (hram1 : s.isRam (s.sp - 1#16) = true) (hram2 : s.isRam (s.sp - 2#16) = true)
    (hram3 : s.isRam (s.sp - 3#16) = true) (hram4 : s.isRam (s.sp - 4#16) = true) :
    (∃ mem, t = { s with mem := mem, sp := s.sp - 4#16 }) ∧ s.PushedFrame t v w := by
  obtain ⟨phi, plo⟩ := h1.peek_sp hram1 hram2
  obtain ⟨mem1, hs1⟩ := h1.same_of_isRam hram1 hram2
  have hdevice : s1.device = s.device := by rw [hs1]
  have hsp1 : s1.sp = s.sp - 2#16 := by rw [hs1]
  have e3 : s1.sp - 1#16 = s.sp - 3#16 := by rw [hsp1]; bv_omega
  have e4 : s1.sp - 2#16 = s.sp - 4#16 := by rw [hsp1]; bv_omega
  rw [← e3, ← State.isRam_congr hdevice] at hram3
  rw [← e4, ← State.isRam_congr hdevice] at hram4
  obtain ⟨mem2, ht⟩ := h2.same_of_isRam hram3 hram4
  have hsp : t.sp = s1.sp - 2#16 := by rw [ht]
  have e2 : t.sp + 2#16 = s1.sp := by rw [hsp]; bv_omega
  have e1 : t.sp + 3#16 = s1.sp + 1#16 := by rw [hsp]; bv_omega
  refine ⟨⟨mem2, ?_⟩, hsp.trans e4, h2.peek_sp hram3 hram4, ⟨?_, ?_⟩, fun addr n1 n2 n3 n4 => ?_⟩
  · rw [ht, e4, hs1]
  · rw [e2, h2.peek_other (by bv_omega) (by bv_omega), phi]
  · rw [e1, h2.peek_other (by bv_omega) (by bv_omega), plo]
  · rw [h2.peek_other (e3 ▸ n3) (e4 ▸ n4), h1.peek_other n1 n2]

/-! ## Interrupt entry and its return -/

/-- Entry leaves what every address holds as its two pushes left it: IL is not in the mirror (R21, R266). -/
theorem State.peek_enterHandler (s : State) (level : BitVec 2) (target addr : Word) :
    State.peek { s with ps := { s.ps with il := level }, pc := target } addr = s.peek addr := rfl

/-- Entry on a RAM stack writes PC, SP, IL and the frame, and the vector's read may be logged and drawn; the frame is the return
address and below it PS (R266). -/
theorem interruptEntry_pushedFrame {n : Nat} {level : BitVec 2} {s t : State} (h : interruptEntry n level s = .next t)
    (hram1 : s.isRam (s.sp - 1#16) = true) (hram2 : s.isRam (s.sp - 2#16) = true)
    (hram3 : s.isRam (s.sp - 3#16) = true) (hram4 : s.isRam (s.sp - 4#16) = true) :
    (∃ target mem log draws, t = { s with pc := target, sp := s.sp - 4#16, ps := { s.ps with il := level },
                                          mem := mem, ioLog := log, draws := draws }) ∧
      s.PushedFrame t s.pc s.ps.toWord := by
  obtain ⟨target, s1, hread, s2, hpc, s3, hps, rfl⟩ := interruptEntry_next.1 h
  obtain ⟨log, draws, rfl⟩ := State.read16_same hread
  obtain ⟨⟨mem, hs3⟩, hsp, hstatus, haddress, hother⟩ :=
    (State.pushes_of_push16 hpc).pushedFrame (State.pushes_of_push16 hps) hram1 hram2 hram3 hram4
  refine ⟨⟨target, mem, log, draws, ?_⟩, hsp, hstatus, haddress, fun addr n1 n2 n3 n4 => ?_⟩
  · rw [hs3]
  · rw [State.peek_enterHandler, hother addr n1 n2 n3 n4]
    rfl

/-- RETI with a frame from SP up: PS and PC are the frame's, SP is above it (R242, R268). -/
theorem execReti_of_frame {s : State} {p : Status} {pc : Word}
    (hps : s.peek s.sp = some (hiByte p.toWord) ∧ s.peek (s.sp + 1#16) = some (loByte p.toWord))
    (hpc : s.peek (s.sp + 2#16) = some (hiByte pc) ∧ s.peek (s.sp + 3#16) = some (loByte pc)) :
    execReti s = .next { s with ps := p, pc := pc, sp := s.sp + 4#16, maskBefore := some ⟨s.ps.i, s.ps.il⟩ } := by
  have hlo : s.peek (s.sp + 2#16 + 1#16) = some (loByte pc) := by rw [BitVec.add_assoc]; exact hpc.2
  have hreti := execReti_of_read16 (State.read16_of_peek hps.1 hps.2) (State.read16_of_peek hpc.1 hlo)
  rwa [joinBytes_hiByte_loByte, joinBytes_hiByte_loByte, Status.ofWord_toWord] at hreti

/-- With `irq_mask_latency` 0 the acceptance test depends on I and IL of now alone (R264). -/
theorem State.accepts_congr_of_noDelay {s t : State} (hs : s.device.irqMaskDelay = false) (hdevice : t.device = s.device)
    (hps : t.ps = s.ps) (level : BitVec 2) : t.accepts level = s.accepts level := by
  have ht : t.device.irqMaskDelay = false := hdevice ▸ hs
  rw [State.accepts, State.accepts, State.acceptMask_of_noDelay ht, State.acceptMask_of_noDelay hs, hps]

/-- Settles O58: RETI reads back the frame that entry wrote, and PS with it is the one the acceptance test reads. -/
theorem retiUndoesInterruptEntry : Obligations.RetiUndoesInterruptEntry := by
  intro s t n level hram1 hram2 hram3 hram4 hentry
  obtain ⟨⟨target, mem, log, draws, ht⟩, hsp, hps, hpc, hother⟩ := interruptEntry_pushedFrame hentry hram1 hram2 hram3 hram4
  have hreti := execReti_of_frame hps hpc
  have hback : t.sp + 4#16 = s.sp := by rw [hsp, BitVec.sub_add_cancel]
  rw [hback] at hreti
  rw [Status.hiByte_toWord, Status.loByte_toWord] at hps
  obtain ⟨hupper, hccr⟩ := hps
  obtain ⟨haddressHi, haddressLo⟩ := hpc
  subst ht
  exact ⟨hsp, hupper, hccr, haddressHi, haddressLo, rfl, rfl, rfl, rfl, rfl, hother, _, rfl, hreti, rfl,
    fun hdelay => State.accepts_congr_of_noDelay hdelay rfl rfl⟩

end Sys2Proof.Machine
end

