-- ==== Sys2Proof/Proofs/FlagInstructions.lean ====
section
/-! The instructions that only move PC and set or clear one flag, as whole next states (R249 to R253, R264). -/

namespace Sys2Proof.Machine

/-- Settles O53: the meaning of each instruction is the rule's next state; for CLRI and SETI the mask recorded is read from the PS of
before the write of I. -/
theorem flagInstructions : Obligations.FlagInstructions := fun _ => ⟨rfl, rfl, rfl, rfl, rfl⟩

end Sys2Proof.Machine
end

