-- ==== Sys2Proof/Proofs/InterruptEntry.lean ====
section
/-! The entry step for an accepted request, as a whole next state (R264, R266, R277). -/

namespace Sys2Proof.Machine

/-- The boundary at which an accepted request is presented, and nothing is withdrawn, is an entry step (R264, R277 E1). -/
theorem step_of_accepts {s : State} {n : Nat} {level : BitVec 2} (hp : s.presented = .request n level)
    (hwf : BoundaryInput.wellFormed s.device (.request n level) = true) (hw : s.withdraws = false)
    (ha : s.accepts level = true) : step s = interruptEntry n level s.leaveBoundary := by
  simp [step, boundaryStep, hp, hwf, hw, ha]

theorem Pushes.sp_eq {s t : State} {v : Word} (h : Pushes s v t) : t.sp = s.sp - 2#16 := by
  obtain ⟨_, _, _, _, rfl⟩ := h
  rfl

theorem Pushes.device_eq {s t : State} {v : Word} (h : Pushes s v t) : t.device = s.device := by
  obtain ⟨_, _, hlo, hhi, rfl⟩ := h
  exact (State.write8_storesOnly hhi).device_eq.trans (State.write8_storesOnly hlo).device_eq

/-- Two pushes complete where the four bytes below SP can be written, whatever is there: the first one changes neither the map nor,
but for the 2, SP. -/
theorem State.exists_pushes_pushes {s : State} (v w : Word) (h1 : s.writable (s.sp - 1#16) = true)
    (h2 : s.writable (s.sp - 2#16) = true) (h3 : s.writable (s.sp - 3#16) = true) (h4 : s.writable (s.sp - 4#16) = true) :
    ∃ t u, Pushes s v t ∧ Pushes t w u ∧ u.sp = s.sp - 4#16 := by
  obtain ⟨t, hv⟩ := State.exists_pushes v h1 h2
  have e3 : t.sp - 1#16 = s.sp - 3#16 := by rw [hv.sp_eq]; bv_omega
  have e4 : t.sp - 2#16 = s.sp - 4#16 := by rw [hv.sp_eq]; bv_omega
  rw [← e3, ← State.writable_congr hv.device_eq] at h3
  rw [← e4, ← State.writable_congr hv.device_eq] at h4
  obtain ⟨u, hw⟩ := State.exists_pushes w h3 h4
  exact ⟨t, u, hv, hw, hw.sp_eq.trans e4⟩

/-- Entry is the vector's read, the pushes of PC and of the old PS, and then IL and PC (R266). -/
theorem interruptEntry_of_pushes {n : Nat} {level : BitVec 2} {target : Word} {s s1 s2 s3 : State}
    (hvector : s.read16 (irqVectorAddr n) = .next (target, s1)) (hpc : Pushes s1 s.pc s2)
    (hps : Pushes s2 s.ps.toWord s3) :
    interruptEntry n level s = .next { s3 with ps := { s3.ps with il := level }, pc := target } :=
  interruptEntry_next.2 ⟨target, s1, hvector, s2, State.push16_of_pushes hpc nofun, s3, State.push16_of_pushes hps nofun, rfl⟩

/-- Settles O57: the pushes complete from the state the vector's read left, where SP and the device are as before. -/
theorem acceptedRequestIsEntered : Obligations.AcceptedRequestIsEntered := by
  intro s n level hp hwf hw ha hvector h1 h2 h3 h4
  obtain ⟨target, s1, hread⟩ := State.read16_of_readable16 ((State.leaveBoundary_readable16 s _).trans hvector)
  have hpushes : ∃ s2 s3, Pushes s1 s.pc s2 ∧ Pushes s2 s.ps.toWord s3 ∧ s3.sp = s.sp - 4#16 := by
    obtain ⟨_, _, rfl⟩ := State.read16_same hread
    exact State.exists_pushes_pushes _ _ h1 h2 h3 h4
  obtain ⟨s2, s3, hpc, hps, hsp⟩ := hpushes
  refine ⟨target, s1, s2, s3, hread, hpc, hps, hsp, ?_⟩
  rw [step_of_accepts hp hwf hw ha]
  exact interruptEntry_of_pushes hread hpc hps

end Sys2Proof.Machine
end

