-- ==== Sys2Proof/Proofs/PrefetchWindow.lean ====
section
/-! A store into the two bytes after the instruction is refused, so an instruction that completes has stored elsewhere: one lemma per
storing shape, then one case per constructor (R310). -/

namespace Sys2Proof.Machine

/-- No address of the list is one of the two bytes that may already be prefetched (R310). -/
def OutsideWindow (next : Word) (addrs : List Word) : Prop := ∀ addr ∈ addrs, inPrefetchWindow next addr = false

theorem inPrefetchWindow_eq_false_iff {next addr : Word} :
    inPrefetchWindow next addr = false ↔ addr ≠ next ∧ addr ≠ next + 1#16 := by
  simp [inPrefetchWindow]

theorem outsideWindow_singleton {next a : Word} : OutsideWindow next [a] ↔ inPrefetchWindow next a = false :=
  List.forall_mem_singleton

theorem outsideWindow_pair {next a b : Word} :
    OutsideWindow next [a, b] ↔ inPrefetchWindow next a = false ∧ inPrefetchWindow next b = false := by
  simp [OutsideWindow]

/-! ## Stores into the window -/

theorem State.store8_in_window {s : State} {next addr : Word} (v : Byte) (h : inPrefetchWindow next addr = true) :
    s.store8 (some next) addr v = .refused .prefetchHazard := by
  rw [State.store8, if_pos h]

/-- The upper byte, which is stored first, is refused already (R44). -/
theorem State.store16_in_window {s : State} {next addr : Word} (v : Word) (h : inPrefetchWindow next addr = true) :
    s.store16 (some next) addr v = .refused .prefetchHazard := by
  rw [State.store16, State.store8_in_window _ h, Res.andThen_refused]

/-! ## Stores that complete -/

theorem State.store8_outside {s t : State} {next addr : Word} {v : Byte} (h : s.store8 (some next) addr v = .next t) :
    inPrefetchWindow next addr = false :=
  (State.store8_next.1 h).1 next rfl

theorem storeByte_outside {e : Ea} {v : Byte} {len : Nat} {s t : State} (h : storeByte e v len s = .next t) :
    OutsideWindow (s.nextPc len) [s.addrOf e] := by
  obtain ⟨_, hstore, -⟩ := storeByte_next.1 h
  exact outsideWindow_singleton.2 (State.store8_outside hstore)

theorem storeWord_outside {e : Ea} {v : Word} {len : Nat} {s t : State} (h : storeWord e v len s = .next t) :
    OutsideWindow (s.nextPc len) [s.addrOf e, s.addrOf e + 1#16] := by
  obtain ⟨-, _, hstore, -⟩ := storeWord_next.1 h
  obtain ⟨_, hhi, hlo⟩ := State.store16_next.1 hstore
  exact outsideWindow_pair.2 ⟨State.store8_outside hhi, State.store8_outside hlo⟩

theorem modifyByte_outside {e : Ea} {f : Byte → Byte} {len : Nat} {s t : State} (h : modifyByte e f len s = .next t) :
    OutsideWindow (s.nextPc len) [s.addrOf e] := by
  obtain ⟨_, _, -, _, hstore, -⟩ := modifyByte_next.1 h
  exact outsideWindow_singleton.2 (State.store8_outside hstore)

theorem countByte_outside {r : BitVec 3} {f : Byte → Alu8} {s t : State} (h : countByte r f s = .next t) :
    OutsideWindow (s.nextPc 1) [s.addrOf (.reg r)] := by
  obtain ⟨_, _, -, _, hstore, -⟩ := countByte_next.1 h
  exact outsideWindow_singleton.2 (State.store8_outside hstore)

/-- A push by an instruction that goes on at `next`, whatever it does after (PUSHW). -/
theorem push16_andThen_outside {next v : Word} {s t : State} {f : State → Res State}
    (h : (s.push16 (some next) v).andThen f = .next t) : OutsideWindow next [s.sp - 1#16, s.sp - 2#16] := by
  obtain ⟨_, hpush, -⟩ := Res.andThen_eq_next.1 h
  obtain ⟨_, _, hlo, hhi, -⟩ := State.push16_next.1 hpush
  exact outsideWindow_pair.2 ⟨State.store8_outside hlo, State.store8_outside hhi⟩

/-! ## Every instruction -/

/-- The window a storing arm gives its stores is the one of its own encoded length. -/
theorem exec_outside {i : Instr} {s t : State} (h : exec i s = .next t) (hcall : i.isCall = false) :
    OutsideWindow (s.nextPc i.length) (i.storedBytes s) := by
  unfold exec at h
  cases i with
  | movDirA | movAtIxA | movExtA | movAtEpA | movRiA | movDirImm | movAtIxImm | movAtEpImm | movRiImm | movAtAT =>
    exact storeByte_outside h
  | movwDirA | movwAtIxA | movwExtA | movwAtEpA | movwAtAT => exact storeWord_outside h
  | setb | clrb => exact modifyByte_outside h
  | incRi | decRi => exact countByte_outside h
  | pushwA | pushwIx => exact push16_andThen_outside h
  | call | callv => cases hcall
  -- no store
  | _ => exact List.forall_mem_nil _

/-- Settles O15: an instruction that completes has stored outside its window, and a store into the window stops at its first byte. -/
theorem prefetchWindowIsNeverStoredTo : Obligations.PrefetchWindowIsNeverStoredTo := by
  refine ⟨fun i s t h hcall addr hstored => ?_, fun s next addr v => State.store16_in_window v,
    fun s next addr v => State.store8_in_window v⟩
  exact inPrefetchWindow_eq_false_iff.1 (exec_outside h hcall addr hstored)

end Sys2Proof.Machine
end
